-- ==== Sys2Proof/Word.lean ====
section
/-! DEFINITION. The bit-vector words the engine shows on its bus: octets of the octet buffer and 32-bit bus words (20_memory.md R81, R84).
Big-number registers are not bit vectors here: they hold the unsigned integers of R10, bounded by the width parameter W. -/

namespace Sys2Proof

/-- One octet of the octet buffer OB (10_state.md R43), and the type of the 8-bit detail code ERRINFO (R36). -/
abbrev Byte := BitVec 8

/-- One bus word (20_memory.md R81) and one command word (30_encoding.md R120). -/
abbrev Word32 := BitVec 32

end Sys2Proof
end

