-- ==== Sys2Proof/Config.lean ====
section
/-! DEFINITION. The open parameters of the spec (92_eei_decisions.md, "Open parameters"): W, BASE and IRQ_LINE.
LATENCY, the fourth, is not a number here: where a completion falls among the host's accesses is the order held in `State.agenda`.
The values derived from W (NW and OBSIZE) are in Machine/Ops.lean. -/

namespace Sys2Proof

/-- What one implementation and one platform fix. It is held in State, so a statement over all states is a statement for every W, BASE and IRQ_LINE. -/
structure Config where
  /-- `W`, the width in bits of every big-number register (00_scope.md R6). -/
  width : Nat
  /-- `BASE`, the bus address of the 8 KiB window (R7). -/
  base : Nat
  /-- `IRQ_LINE`, the interrupt-controller input (60_exceptions.md R350). -/
  irqLine : Nat
  /-- The priority of that input at the controller (R350, D34). -/
  irqPriority : Nat
  deriving DecidableEq, Repr

/-- The legal parameter values: W a multiple of 32 from 32 to 1024 (R6), BASE a multiple of 0x2000 (R7). -/
abbrev Config.Legal (c : Config) : Prop :=
  c.width % 32 = 0 ∧ 32 ≤ c.width ∧ c.width ≤ 1024 ∧ c.base % 0x2000 = 0

/-- The reference configuration W = 256 (R6). BASE = 0, line 0 and priority 0 are DESIGN CHOICE (log entry 1): the spec leaves them to the platform. -/
def Config.reference : Config := ⟨256, 0, 0, 0⟩

end Sys2Proof
end

