-- ==== Sys2Proof/Syntax.lean ====
section
/-! DEFINITION. The command set: one constructor for each row of spec/opcode_table.json (30_encoding.md R126), with the operands in the assembler's order of R131. -/

namespace Sys2Proof

/-- The modulus select bit M: `.P` (M = 0) or `.N` (M = 1), R124. -/
inductive ModSel where
  | p
  | n
  deriving DecidableEq, Repr

/-- A V-kind register field: all values 0 to 15 are legal (R122). -/
abbrev VField := Fin 16

/-- A PT-kind register field as the command word holds it, 4 bits wide. It selects PT[field[2:0]], and field[3] must be 0 (R122): that is the check of WellFormed.lean. -/
abbrev PtField := Fin 16

/-- The 2-bit selector SEL. The values 2 and 3 are well formed: they fail when the command runs, not at decode (R123). -/
abbrev Sel := Fin 4

/-- The 23 commands of version 1.0 (R3, R126). -/
inductive Instr where
  | madd (m : ModSel) (d a b : VField)
  | msub (m : ModSel) (d a b : VField)
  | mmul (m : ModSel) (d a b : VField)
  | minv (m : ModSel) (d a : VField)
  | mexp (m : ModSel) (d a b : VField)
  | msqrt (m : ModSel) (d a : VField)
  | mred (m : ModSel) (d a : VField)
  | cchk
  | oncrv (d : VField) (a : PtField)
  | padd (d a b : PtField)
  | pneg (d a : PtField)
  | jadd (d a b : PtField)
  | jdbl (d a : PtField)
  | j2a (d a : PtField)
  | a2j (d a : PtField)
  | j2x (d : VField) (a : PtField)
  | yodd (d a : VField) (sel : Sel)
  | ylow (d a : VField) (sel : Sel)
  | yqr (d a : VField) (sel : Sel)
  | hsqy (d : VField) (a : PtField)
  | dec (d : PtField)
  | enc (a : PtField) (sel : Sel)
  | smul (d a : PtField) (b : VField)
  deriving DecidableEq, Repr

end Sys2Proof
end

