-- ==== Sys2Proof/WellFormed.lean ====
section
/-! DEFINITION. Which command terms have an encoding: every PT-kind field must be below 8 (30_encoding.md R122, R128).
The types of Syntax.lean already bound V fields, SEL and M, so this is the only check. -/

namespace Sys2Proof

/-- A PT-kind field with field[3] = 0 (R122). -/
def PtField.ok (f : PtField) : Bool := decide (f.val < 8)

/-- Every PT-kind field of the command names one of PT0 to PT7 (R122). -/
def Instr.wellFormed : Instr → Bool
  | .madd _ _ _ _ => true
  | .msub _ _ _ _ => true
  | .mmul _ _ _ _ => true
  | .minv _ _ _ => true
  | .mexp _ _ _ _ => true
  | .msqrt _ _ _ => true
  | .mred _ _ _ => true
  | .cchk => true
  | .oncrv _ a => PtField.ok a
  | .padd d a b => PtField.ok d && PtField.ok a && PtField.ok b
  | .pneg d a => PtField.ok d && PtField.ok a
  | .jadd d a b => PtField.ok d && PtField.ok a && PtField.ok b
  | .jdbl d a => PtField.ok d && PtField.ok a
  | .j2a d a => PtField.ok d && PtField.ok a
  | .a2j d a => PtField.ok d && PtField.ok a
  | .j2x _ a => PtField.ok a
  | .yodd _ _ _ => true
  | .ylow _ _ _ => true
  | .yqr _ _ _ => true
  | .hsqy _ a => PtField.ok a
  | .dec d => PtField.ok d
  | .enc a _ => PtField.ok a
  | .smul d a _ => PtField.ok d && PtField.ok a

end Sys2Proof
end

