-- ==== Sys2Proof/Decode.lean ====
section
/-! DEFINITION. The command decoder, total on every 32-bit word and rejecting by name (30_encoding.md R121, R126, R128), and after it the encoder (R131) written from the same opcode map. -/

namespace Sys2Proof

/-- Format C, field by field (R121). -/
structure Fields where
  opc : BitVec 6
  d : BitVec 4
  a : BitVec 4
  b : BitVec 4
  sel : BitVec 2
  m : BitVec 1
  rsv : BitVec 11
  deriving DecidableEq, Repr

/-- The fields of a command word: OPC 31:26, D 25:22, A 21:18, B 17:14, SEL 13:12, M 11, RSV 10:0 (R121). -/
def unpack (w : Word32) : Fields where
  opc := w.extractLsb' 26 6
  d := w.extractLsb' 22 4
  a := w.extractLsb' 18 4
  b := w.extractLsb' 14 4
  sel := w.extractLsb' 12 2
  m := w.extractLsb' 11 1
  rsv := w.extractLsb' 0 11

/-- The word of its fields, most significant first (R121). -/
def pack (f : Fields) : Word32 :=
  f.opc ++ f.d ++ f.a ++ f.b ++ f.sel ++ f.m ++ f.rsv

/-- The kind of a register field (R122). -/
inductive FieldKind where
  | v
  | pt
  | unused
  deriving DecidableEq, Repr

/-- One row of the opcode map (R126). -/
structure OpRow where
  opc : BitVec 6
  d : FieldKind
  a : FieldKind
  b : FieldKind
  usesSel : Bool
  usesM : Bool
  deriving DecidableEq, Repr

/-- The mnemonics of the opcode map (R126). -/
inductive Opcode where
  | madd | msub | mmul | minv | mexp | msqrt | mred
  | cchk | oncrv | padd | pneg | jadd | jdbl | j2a | a2j | j2x
  | yodd | ylow | yqr | hsqy
  | dec | enc
  | smul
  deriving DecidableEq, Repr

/-- The opcode map of R126, row by row: OPC, kinds of D, A, B, SEL used, M used. -/
def Opcode.row : Opcode → OpRow
  | .madd => ⟨0x01, .v, .v, .v, false, true⟩
  | .msub => ⟨0x02, .v, .v, .v, false, true⟩
  | .mmul => ⟨0x03, .v, .v, .v, false, true⟩
  | .minv => ⟨0x04, .v, .v, .unused, false, true⟩
  | .mexp => ⟨0x05, .v, .v, .v, false, true⟩
  | .msqrt => ⟨0x06, .v, .v, .unused, false, true⟩
  | .mred => ⟨0x07, .v, .v, .unused, false, true⟩
  | .cchk => ⟨0x10, .unused, .unused, .unused, false, false⟩
  | .oncrv => ⟨0x11, .v, .pt, .unused, false, false⟩
  | .padd => ⟨0x12, .pt, .pt, .pt, false, false⟩
  | .pneg => ⟨0x13, .pt, .pt, .unused, false, false⟩
  | .jadd => ⟨0x14, .pt, .pt, .pt, false, false⟩
  | .jdbl => ⟨0x15, .pt, .pt, .unused, false, false⟩
  | .j2a => ⟨0x16, .pt, .pt, .unused, false, false⟩
  | .a2j => ⟨0x17, .pt, .pt, .unused, false, false⟩
  | .j2x => ⟨0x18, .v, .pt, .unused, false, false⟩
  | .yodd => ⟨0x19, .v, .v, .unused, true, false⟩
  | .ylow => ⟨0x1A, .v, .v, .unused, true, false⟩
  | .yqr => ⟨0x1B, .v, .v, .unused, true, false⟩
  | .hsqy => ⟨0x1C, .v, .pt, .unused, false, false⟩
  | .dec => ⟨0x20, .pt, .unused, .unused, false, false⟩
  | .enc => ⟨0x21, .unused, .pt, .unused, true, false⟩
  | .smul => ⟨0x28, .pt, .pt, .v, false, false⟩

/-- Every opcode, in the order of R126. -/
def Opcode.all : List Opcode :=
  [.madd, .msub, .mmul, .minv, .mexp, .msqrt, .mred,
   .cchk, .oncrv, .padd, .pneg, .jadd, .jdbl, .j2a, .a2j, .j2x,
   .yodd, .ylow, .yqr, .hsqy, .dec, .enc, .smul]

/-- The row an OPC value selects. A value in no row is reserved (R126, R129). -/
def opcodeOf (opc : BitVec 6) : Option Opcode :=
  Opcode.all.find? (fun o => decide (o.row.opc = opc))

/-- Why a word encodes no command, by name (R128): the three ILLEGAL details 0x01, 0x02 and 0x03. -/
inductive Illegal where
  /-- ILLEGAL(0x01): OPC not assigned. -/
  | opcode
  /-- ILLEGAL(0x02): RSV, an unused register field, an unused SEL or an unused M is not 0. -/
  | reserved
  /-- ILLEGAL(0x03): a PT register field is above 7. -/
  | ptField
  deriving DecidableEq, Repr

/-- An unused register field that is not 0 (R128). -/
def unusedSet (k : FieldKind) (f : BitVec 4) : Bool := decide (k = .unused) && decide (f ≠ 0)

/-- A PT-kind register field with field[3] = 1 (R128). -/
def ptAbove7 (k : FieldKind) (f : BitVec 4) : Bool := decide (k = .pt) && f.getLsbD 3

/-- The number a register field holds (R10, unsigned). -/
def regOf (f : BitVec 4) : Fin 16 := ⟨f.toNat, f.isLt⟩

/-- The number SEL holds (R123). -/
def selOf (f : BitVec 2) : Sel := ⟨f.toNat, f.isLt⟩

/-- The modulus M selects (R124). -/
def modOf (f : BitVec 1) : ModSel := if f = 0 then .p else .n

/-- The command of an opcode and its fields. -/
def buildInstr (o : Opcode) (f : Fields) : Instr :=
  match o with
  | .madd => .madd (modOf f.m) (regOf f.d) (regOf f.a) (regOf f.b)
  | .msub => .msub (modOf f.m) (regOf f.d) (regOf f.a) (regOf f.b)
  | .mmul => .mmul (modOf f.m) (regOf f.d) (regOf f.a) (regOf f.b)
  | .minv => .minv (modOf f.m) (regOf f.d) (regOf f.a)
  | .mexp => .mexp (modOf f.m) (regOf f.d) (regOf f.a) (regOf f.b)
  | .msqrt => .msqrt (modOf f.m) (regOf f.d) (regOf f.a)
  | .mred => .mred (modOf f.m) (regOf f.d) (regOf f.a)
  | .cchk => .cchk
  | .oncrv => .oncrv (regOf f.d) (regOf f.a)
  | .padd => .padd (regOf f.d) (regOf f.a) (regOf f.b)
  | .pneg => .pneg (regOf f.d) (regOf f.a)
  | .jadd => .jadd (regOf f.d) (regOf f.a) (regOf f.b)
  | .jdbl => .jdbl (regOf f.d) (regOf f.a)
  | .j2a => .j2a (regOf f.d) (regOf f.a)
  | .a2j => .a2j (regOf f.d) (regOf f.a)
  | .j2x => .j2x (regOf f.d) (regOf f.a)
  | .yodd => .yodd (regOf f.d) (regOf f.a) (selOf f.sel)
  | .ylow => .ylow (regOf f.d) (regOf f.a) (selOf f.sel)
  | .yqr => .yqr (regOf f.d) (regOf f.a) (selOf f.sel)
  | .hsqy => .hsqy (regOf f.d) (regOf f.a)
  | .dec => .dec (regOf f.d)
  | .enc => .enc (regOf f.a) (selOf f.sel)
  | .smul => .smul (regOf f.d) (regOf f.a) (regOf f.b)

/-- The checks of R128 on the fields, in the order R128 gives them. -/
def decodeFields (f : Fields) : Except Illegal Instr :=
  match opcodeOf f.opc with
  | none => .error .opcode
  | some o =>
    if f.rsv ≠ 0 then .error .reserved
    else if unusedSet o.row.d f.d || unusedSet o.row.a f.a || unusedSet o.row.b f.b then .error .reserved
    else if o.row.usesSel = false ∧ f.sel ≠ 0 then .error .reserved
    else if o.row.usesM = false ∧ f.m ≠ 0 then .error .reserved
    else if ptAbove7 o.row.d f.d || ptAbove7 o.row.a f.a || ptAbove7 o.row.b f.b then .error .ptField
    else .ok (buildInstr o f)

/-- The decoder of R128: total on every 32-bit command word. -/
def decode (w : Word32) : Except Illegal Instr := decodeFields (unpack w)

/-- The 4 bits of a register number. -/
def regBits (r : Fin 16) : BitVec 4 := BitVec.ofNat 4 r.val

/-- The 2 bits of a selector. -/
def selBits (s : Sel) : BitVec 2 := BitVec.ofNat 2 s.val

/-- The bit of a modulus select: `.P` is 0 and `.N` is 1 (R131). -/
def ModSel.bit : ModSel → BitVec 1
  | .p => 0
  | .n => 1

/-- The fields of a command in the assembler's rule `OPC<<26 | D<<22 | A<<18 | B<<14 | SEL<<12 | M<<11` (R131); the fields the command does not use are 0. -/
def fieldsOf : Instr → Fields
  | .madd m d a b => ⟨Opcode.madd.row.opc, regBits d, regBits a, regBits b, 0, m.bit, 0⟩
  | .msub m d a b => ⟨Opcode.msub.row.opc, regBits d, regBits a, regBits b, 0, m.bit, 0⟩
  | .mmul m d a b => ⟨Opcode.mmul.row.opc, regBits d, regBits a, regBits b, 0, m.bit, 0⟩
  | .minv m d a => ⟨Opcode.minv.row.opc, regBits d, regBits a, 0, 0, m.bit, 0⟩
  | .mexp m d a b => ⟨Opcode.mexp.row.opc, regBits d, regBits a, regBits b, 0, m.bit, 0⟩
  | .msqrt m d a => ⟨Opcode.msqrt.row.opc, regBits d, regBits a, 0, 0, m.bit, 0⟩
  | .mred m d a => ⟨Opcode.mred.row.opc, regBits d, regBits a, 0, 0, m.bit, 0⟩
  | .cchk => ⟨Opcode.cchk.row.opc, 0, 0, 0, 0, 0, 0⟩
  | .oncrv d a => ⟨Opcode.oncrv.row.opc, regBits d, regBits a, 0, 0, 0, 0⟩
  | .padd d a b => ⟨Opcode.padd.row.opc, regBits d, regBits a, regBits b, 0, 0, 0⟩
  | .pneg d a => ⟨Opcode.pneg.row.opc, regBits d, regBits a, 0, 0, 0, 0⟩
  | .jadd d a b => ⟨Opcode.jadd.row.opc, regBits d, regBits a, regBits b, 0, 0, 0⟩
  | .jdbl d a => ⟨Opcode.jdbl.row.opc, regBits d, regBits a, 0, 0, 0, 0⟩
  | .j2a d a => ⟨Opcode.j2a.row.opc, regBits d, regBits a, 0, 0, 0, 0⟩
  | .a2j d a => ⟨Opcode.a2j.row.opc, regBits d, regBits a, 0, 0, 0, 0⟩
  | .j2x d a => ⟨Opcode.j2x.row.opc, regBits d, regBits a, 0, 0, 0, 0⟩
  | .yodd d a sel => ⟨Opcode.yodd.row.opc, regBits d, regBits a, 0, selBits sel, 0, 0⟩
  | .ylow d a sel => ⟨Opcode.ylow.row.opc, regBits d, regBits a, 0, selBits sel, 0, 0⟩
  | .yqr d a sel => ⟨Opcode.yqr.row.opc, regBits d, regBits a, 0, selBits sel, 0, 0⟩
  | .hsqy d a => ⟨Opcode.hsqy.row.opc, regBits d, regBits a, 0, 0, 0, 0⟩
  | .dec d => ⟨Opcode.dec.row.opc, regBits d, 0, 0, 0, 0, 0⟩
  | .enc a sel => ⟨Opcode.enc.row.opc, 0, regBits a, 0, selBits sel, 0, 0⟩
  | .smul d a b => ⟨Opcode.smul.row.opc, regBits d, regBits a, regBits b, 0, 0, 0⟩

/-- The command word of a command (R131). -/
def encode (i : Instr) : Word32 := pack (fieldsOf i)

/-- The command this decoder reads from a table word: bit 0 is the least significant bit of the one 32-bit word (R120).
Bits at `nbits` and above are 0, and more than 32 bits are no command. -/
def decodeTableWord (nbits w : Nat) : Option Instr :=
  if w % 2 ^ nbits < 2 ^ 32 then (decode (BitVec.ofNat 32 (w % 2 ^ nbits))).toOption else none

/-- The pseudo-instructions of R132. -/
inductive Pseudo where
  | msqr (m : ModSel) (d a : VField)
  | mmov (m : ModSel) (d a : VField)
  | pdbl (d a : PtField)
  | yeven (d a : VField)
  | encc (a : PtField)
  | encu (a : PtField)
  deriving DecidableEq, Repr

/-- The one command a pseudo-instruction expands to (R132). -/
def Pseudo.expand : Pseudo → Instr
  | .msqr m d a => .mmul m d a a
  | .mmov m d a => .mred m d a
  | .pdbl d a => .padd d a a
  | .yeven d a => .yodd d a 0
  | .encc a => .enc a 1
  | .encu a => .enc a 0

/-- One line of assembly: the mnemonic, then the operands separated by commas (R131). -/
def asmLine (mnemonic : String) (operands : List String) : String :=
  if operands.isEmpty then mnemonic else mnemonic ++ " " ++ String.intercalate ", " operands

/-- `vN` (R131). -/
def asmV (r : VField) : String := "v" ++ toString r.val

/-- `ptN` (R131). -/
def asmPt (r : PtField) : String := "pt" ++ toString r.val

/-- The mandatory suffix of the modular family (R131). -/
def ModSel.suffix : ModSel → String
  | .p => ".P"
  | .n => ".N"

/-- The assembler's spelling of a command (R131): operands D, A, B, then SEL as a decimal, unused fields left out. -/
def Instr.assembly : Instr → String
  | .madd m d a b => asmLine ("MADD" ++ m.suffix) [asmV d, asmV a, asmV b]
  | .msub m d a b => asmLine ("MSUB" ++ m.suffix) [asmV d, asmV a, asmV b]
  | .mmul m d a b => asmLine ("MMUL" ++ m.suffix) [asmV d, asmV a, asmV b]
  | .minv m d a => asmLine ("MINV" ++ m.suffix) [asmV d, asmV a]
  | .mexp m d a b => asmLine ("MEXP" ++ m.suffix) [asmV d, asmV a, asmV b]
  | .msqrt m d a => asmLine ("MSQRT" ++ m.suffix) [asmV d, asmV a]
  | .mred m d a => asmLine ("MRED" ++ m.suffix) [asmV d, asmV a]
  | .cchk => asmLine "CCHK" []
  | .oncrv d a => asmLine "ONCRV" [asmV d, asmPt a]
  | .padd d a b => asmLine "PADD" [asmPt d, asmPt a, asmPt b]
  | .pneg d a => asmLine "PNEG" [asmPt d, asmPt a]
  | .jadd d a b => asmLine "JADD" [asmPt d, asmPt a, asmPt b]
  | .jdbl d a => asmLine "JDBL" [asmPt d, asmPt a]
  | .j2a d a => asmLine "J2A" [asmPt d, asmPt a]
  | .a2j d a => asmLine "A2J" [asmPt d, asmPt a]
  | .j2x d a => asmLine "J2X" [asmV d, asmPt a]
  | .yodd d a sel => asmLine "YODD" [asmV d, asmV a, toString sel.val]
  | .ylow d a sel => asmLine "YLOW" [asmV d, asmV a, toString sel.val]
  | .yqr d a sel => asmLine "YQR" [asmV d, asmV a, toString sel.val]
  | .hsqy d a => asmLine "HSQY" [asmV d, asmPt a]
  | .dec d => asmLine "DEC" [asmPt d]
  | .enc a sel => asmLine "ENC" [asmPt a, toString sel.val]
  | .smul d a b => asmLine "SMUL" [asmPt d, asmPt a, asmV b]

end Sys2Proof
end

