-- ==== Sys2Proof/Machine/State.lean ====
section
/-! DEFINITION. The engine's whole architectural state (10_state.md R32), the host's accesses still to come, and the state after reset (R47). -/

namespace Sys2Proof.Machine

/-- The form of a point register (R38): code 0 INF, 1 AFF, 2 JAC, 3 reserved. -/
inductive Form where
  | inf
  | aff
  | jac
  | reserved
  deriving DecidableEq, Repr

/-- One point register: the form PT[i].F of PTF and three W-bit coordinates (R38, R42). -/
structure PtReg where
  f : Form
  x : Nat
  y : Nat
  z : Nat
  deriving DecidableEq, Repr

/-- The curve block P, A, B, GX, GY, N, H, each W bits (R40). -/
structure CurveBlock where
  p : Nat
  a : Nat
  b : Nat
  gx : Nat
  gy : Nat
  n : Nat
  h : Nat
  deriving DecidableEq, Repr

/-- The width of a bus access (20_memory.md R81): only the 32-bit one is legal. -/
inductive BusSize where
  | b8
  | b16
  | b32
  | b64
  deriving DecidableEq, Repr

/-- MemRead or MemWrite (00_scope.md R12). The data of a write that is not 32 bits wide never matters (R81). -/
inductive BusOp where
  | read
  | write (wdata : Word32)
  deriving DecidableEq, Repr

/-- One access a bus master makes, at a bus address; the interconnect decodes BASE (R80). -/
structure Access where
  addr : Nat
  size : BusSize
  op : BusOp
  deriving DecidableEq, Repr

/-- One entry of the total order of R92 that is not an engine choice: a host access, the place of the engine's completion step, or a power-on reset (10_state.md R30). -/
inductive Event where
  | access (a : Access)
  | completion
  | powerOnReset
  deriving DecidableEq, Repr

/-- What the engine answered to an access: the word read, an accepted write, or a bus error response (R81, whose read data is 0). -/
inductive BusResp where
  | readData (w : Word32)
  | writeDone
  | busError
  deriving DecidableEq, Repr

/-- The state. The registers of R32 come first; `agenda` and `resp` are the model's own (log entries 3 and 4).
ID, HWCFG, CURVECFG.PSIZE and IRQ are constants or derived (R33, R34, R37, R45), so they are computed in Machine/Flags.lean and not stored.
A W-bit register is the unsigned integer of R10; that it is below 2^W is the invariant `State.WidthOk` (Safety.lean). -/
structure State where
  /-- The open parameters W, BASE and IRQ_LINE; HWCFG.W reads the first (R34). No step changes it. -/
  cfg : Config
  /-- CTRL.IE (R35). -/
  ie : Bool
  /-- STATUS.BUSY (R36). -/
  busy : Bool
  /-- STATUS.DONE (R36). -/
  done : Bool
  /-- STATUS.BUSYWR (R36). -/
  busywr : Bool
  /-- STATUS.CURVE_OK (R36, R48). -/
  curveOk : Bool
  /-- STATUS.ERR, 4 bits (R36). -/
  err : BitVec 4
  /-- STATUS.ERRINFO, 8 bits (R36). -/
  errInfo : Byte
  /-- CMD_LAST, the last accepted command word (R39). -/
  cmdLast : Word32
  /-- OBLEN, 16 bits (R43). -/
  oblen : BitVec 16
  /-- CURVECFG.WEAK (R37). -/
  weak : Bool
  /-- P, A, B, GX, GY, N, H (R40). -/
  curve : CurveBlock
  /-- V0 to V15 (R41). -/
  v : Vector Nat 16
  /-- PT0 to PT7 with PTF (R38, R42). -/
  pt : Vector PtReg 8
  /-- The octet buffer OB as the list of its bytes that are not 0, indices rising (R43); an unlisted byte reads 0, its reset value. -/
  ob : List Host.Cell
  /-- The host accesses, completion places and power-on resets still to come, in the total order of R92. -/
  agenda : List Event
  /-- The answer to the access taken last, or none when none was answered since power-on. -/
  resp : Option BusResp
  deriving DecidableEq, Repr

/-- A machine fault. The spec has none: every command completes, an error completes with a code in STATUS, and a bus error is a response (60_exceptions.md R340: "There is no other exception, fault or trap"). -/
inductive Fault
  deriving DecidableEq, Repr

/-- A refusal of the model. -/
inductive Refusal where
  /-- Raised by an arm of `exec` whose command has no meaning yet; safe. No arm raises it: all 23 commands have their meaning. -/
  | notModelled (mnemonic : String)
  deriving DecidableEq, Repr

/-- The value every point register resets to: form INF and coordinates 0 (R47). -/
def PtReg.zero : PtReg := ⟨.inf, 0, 0, 0⟩

/-- The state after reset under one configuration: every register 0, no command in flight (R47, R370). -/
def State.resetFor (c : Config) : State where
  cfg := c
  ie := false
  busy := false
  done := false
  busywr := false
  curveOk := false
  err := 0
  errInfo := 0
  cmdLast := 0
  oblen := 0
  weak := false
  curve := ⟨0, 0, 0, 0, 0, 0, 0⟩
  v := Vector.replicate 16 0
  pt := Vector.replicate 8 PtReg.zero
  ob := []
  agenda := []
  resp := none

/-- The machine right after reset, in the reference configuration (R6, R47), with no host access to come. -/
def State.reset : State := State.resetFor Config.reference

end Sys2Proof.Machine
end

