-- ==== Sys2Proof/Machine/Errors.lean ====
section
/-! DEFINITION. The error classes and detail codes of a command (60_exceptions.md R341, R342), one constructor for each row of R342. -/

namespace Sys2Proof.Machine

/-- The error classes of R341 that a raise can name (00_scope.md R13). -/
inductive ErrClass where
  | illegal
  | config
  | type
  | value
  | domain
  deriving DecidableEq, Repr

/-- The code of a class in STATUS.ERR (R341). -/
def ErrClass.code : ErrClass → BitVec 4
  | .illegal => 1
  | .config => 2
  | .type => 3
  | .value => 4
  | .domain => 5

/-- What a command can raise: the rows of R342 but for 0x00, which is success. -/
inductive CmdError where
  /-- ILLEGAL(0x01, 0x02, 0x03): the word encodes no command (30_encoding.md R128). -/
  | illegal (why : Illegal)
  /-- CONFIG(0x10): CURVE_OK = 0. -/
  | noCurve
  /-- CONFIG(0x11): the selected modulus is even or below 3. -/
  | badModulus
  /-- TYPE(0x20): point operand A has the wrong form. -/
  | formA
  /-- TYPE(0x21): point operand B has the wrong form. -/
  | formB
  /-- VALUE(0x30): SEL is 2 or 3. -/
  | selector
  /-- VALUE(0x31): point operand A is invalid. -/
  | pointA
  /-- VALUE(0x32): point operand B is invalid. -/
  | pointB
  /-- VALUE(0x33): x-coordinate at or above p. -/
  | xRange
  /-- VALUE(0x34): x-coordinate with no y on the curve. -/
  | noY
  /-- VALUE(0x35): p mod 4 is not 3. -/
  | pMod4
  /-- VALUE(0x36): x of the Jacobian infinity. -/
  | xOfInf
  /-- VALUE(0x37): octet string length wrong. -/
  | octetLength
  /-- VALUE(0x38): leading byte not 0x02, 0x03 or 0x04. -/
  | leadingByte
  /-- VALUE(0x39): uncompressed point not on the curve. -/
  | octetPoint
  /-- VALUE(0x3A): INF cannot be encoded. -/
  | encodeInf
  /-- VALUE(0x3D): no root has the requested property. -/
  | noRoot
  /-- VALUE(0x40): P even or below 3 (CCHK). -/
  | curveP
  /-- VALUE(0x41): A, B, GX or GY at or above P (CCHK). -/
  | curveRange
  /-- VALUE(0x42): singular curve (CCHK). -/
  | singular
  /-- VALUE(0x43): G not on the curve (CCHK). -/
  | curveG
  /-- VALUE(0x44): N even or below 3 (CCHK). -/
  | curveN
  /-- VALUE(0x45): N·G is not infinity (CCHK). -/
  | curveOrder
  /-- DOMAIN(0x50): no inverse. -/
  | noInverse
  /-- DOMAIN(0x51): no square root. -/
  | noSqrt
  deriving DecidableEq, Repr

/-- The class column of R342. -/
def CmdError.cls : CmdError → ErrClass
  | .illegal _ => .illegal
  | .noCurve => .config
  | .badModulus => .config
  | .formA => .type
  | .formB => .type
  | .selector => .value
  | .pointA => .value
  | .pointB => .value
  | .xRange => .value
  | .noY => .value
  | .pMod4 => .value
  | .xOfInf => .value
  | .octetLength => .value
  | .leadingByte => .value
  | .octetPoint => .value
  | .encodeInf => .value
  | .noRoot => .value
  | .curveP => .value
  | .curveRange => .value
  | .singular => .value
  | .curveG => .value
  | .curveN => .value
  | .curveOrder => .value
  | .noInverse => .domain
  | .noSqrt => .domain

/-- The ERRINFO column of R342. -/
def CmdError.info : CmdError → Byte
  | .illegal .opcode => 0x01
  | .illegal .reserved => 0x02
  | .illegal .ptField => 0x03
  | .noCurve => 0x10
  | .badModulus => 0x11
  | .formA => 0x20
  | .formB => 0x21
  | .selector => 0x30
  | .pointA => 0x31
  | .pointB => 0x32
  | .xRange => 0x33
  | .noY => 0x34
  | .pMod4 => 0x35
  | .xOfInf => 0x36
  | .octetLength => 0x37
  | .leadingByte => 0x38
  | .octetPoint => 0x39
  | .encodeInf => 0x3A
  | .noRoot => 0x3D
  | .curveP => 0x40
  | .curveRange => 0x41
  | .singular => 0x42
  | .curveG => 0x43
  | .curveN => 0x44
  | .curveOrder => 0x45
  | .noInverse => 0x50
  | .noSqrt => 0x51

/-- One check of a command: it raises `e` unless `c` holds (00_scope.md R13). -/
def require (c : Prop) [Decidable c] (e : CmdError) : Except CmdError Unit :=
  if c then .ok () else .error e

end Sys2Proof.Machine
end

