-- ==== Sys2Proof/Machine/Arith.lean ====
section
/-! DEFINITION. The integer helpers of 00_scope.md R10 and R15 and the modular helpers of 40_modular.md R165 to R169.
All of them work on exact integers and end by structural recursion, so each can be evaluated. -/

namespace Sys2Proof.Machine

/-- The number of binary digits of x, with bitlen 0 = 0 (R10). -/
def bitlen (x : Nat) : Nat := if x = 0 then 0 else x.log2 + 1

/-- The floored remainder of an exact integer, in [0, m) for m >= 1 (R10): how every field expression is reduced (R15). -/
def red (m : Nat) (e : Int) : Nat := (e % (m : Int)).toNat

/-- The loop of `pow_mod` from bit index i - 1 down to 0 (R165). -/
def powLoop (b e m : Nat) : Nat → Nat → Nat
  | 0, r => r
  | i + 1, r =>
    let sq := (r * r) % m
    powLoop b e m i (if e.testBit i then (sq * b) % m else sq)

/-- `pow_mod(a, e, m)` (R165). -/
def powMod (a e m : Nat) : Nat := powLoop (a % m) e m (bitlen e) 1

/-- The Euclidean loop on (r0, r1) with coefficients t0, t1 modulo m, for `inv_mod` (R166). The fuel m is never used up (Laws/Arith.lean, `invMod_spec`). -/
def invLoop (m : Nat) : Nat → Nat → Nat → Nat → Nat → Nat
  | 0, _, _, t0, _ => t0
  | fuel + 1, r0, r1, t0, t1 =>
    if r1 = 0 then t0
    else invLoop m fuel r1 (r0 % r1) t1 (red m ((t0 : Int) - (r0 / r1 : Nat) * t1))

/-- `inv_mod(a, m)` (R166): DOMAIN(0x50) unless u = a mod m is nonzero and coprime to m, else the x in [1, m) with u·x mod m = 1. -/
def invMod (a m : Nat) : Except CmdError Nat :=
  let u := a % m
  if u = 0 then .error .noInverse
  else if Nat.gcd u m ≠ 1 then .error .noInverse
  else .ok (invLoop m m m u 0 1)

/-- `while q mod 2 = 0: q <- q / 2; s <- s + 1` (R167). -/
def splitTwos : Nat → Nat → Nat → Nat × Nat
  | 0, q, s => (q, s)
  | fuel + 1, q, s => if q % 2 = 0 then splitTwos fuel (q / 2) (s + 1) else (q, s)

/-- The search for the least non-residue from z up, with fuel + z = m; none is z = m (R167). -/
def nonResidueFrom (m : Nat) : Nat → Nat → Option Nat
  | 0, _ => none
  | fuel + 1, z => if powMod z ((m - 1) / 2) m ≠ m - 1 then nonResidueFrom m fuel (z + 1) else some z

/-- The inner loop `while i < k and u != 1`, with fuel + i = k (R167): the i it ends with. -/
def orderLoop (m : Nat) : Nat → Nat → Nat → Nat
  | 0, i, _ => i
  | fuel + 1, i, u => if u ≠ 1 then orderLoop m fuel (i + 1) ((u * u) % m) else i

/-- The outer loop `while t != 1` on (c, t, r, k) (R167). k falls in every pass, so a fuel of the first k is never used up. -/
def tonelliLoop (m : Nat) : Nat → Nat → Nat → Nat → Nat → Except CmdError Nat
  | 0, _, t, r, _ => if t = 1 then .ok r else .error .noSqrt
  | fuel + 1, c, t, r, k =>
    if t = 1 then .ok r
    else
      let i := orderLoop m (k - 1) 1 ((t * t) % m)
      if i = k then .error .noSqrt
      else
        let b := powMod c (2 ^ (k - i - 1)) m
        let c' := (b * b) % m
        tonelliLoop m fuel c' ((t * c') % m) ((r * b) % m) i

/-- The root candidate of `sqrt_mod` before its final check, for a in (0, m) (R167). -/
def sqrtCandidate (a m : Nat) : Except CmdError Nat :=
  if m % 4 = 3 then .ok (powMod a ((m + 1) / 4) m)
  else
    let qs := splitTwos m (m - 1) 0
    match nonResidueFrom m (m - 2) 2 with
    | none => .error .noSqrt
    | some z => tonelliLoop m qs.2 (powMod z qs.1 m) (powMod a qs.1 m) (powMod a ((qs.1 + 1) / 2) m) qs.2

/-- `sqrt_mod(a0, m)` for odd m >= 3 (R167), with the final check that makes every root returned a root. -/
def sqrtMod (a0 m : Nat) : Except CmdError Nat :=
  let a := a0 % m
  if a = 0 then .ok 0
  else do
    let r ← sqrtCandidate a m
    if (r * r) % m ≠ a then .error .noSqrt else .ok r

/-- `is_qr(v, m)`: 0 counts as a residue, else Euler's criterion (R169). -/
def isQr (v m : Nat) : Bool :=
  let u := v % m
  if u = 0 then true else decide (powMod u ((m - 1) / 2) m = 1)

end Sys2Proof.Machine
end

