-- ==== Sys2Proof/Machine/Ops.lean ====
section
/-! DEFINITION. The named operations over registers and the octet buffer, the reset operation, acceptance of a command (10_state.md R39) and its completion (60_exceptions.md R349, 70_reset_and_hazards.md R377).
The completion is this machine's counterpart of taking an exception; its return counterpart, clearing DONE, is `State.writeStatus` of Machine/Flags.lean (R351). -/

namespace Sys2Proof

/-- `NW = W/32`, the words of a big register (00_scope.md R6). -/
def Config.nw (c : Config) : Nat := c.width / 32

/-- `OBSIZE = 1 + 2*(W/8)`, the bytes of the octet buffer (R6). -/
def Config.obSize (c : Config) : Nat := 1 + 2 * (c.width / 8)

namespace Machine

/-- The octet buffer as a sparse list of cells (index, byte). -/
abbrev Memory := List Host.Cell

/-- The byte at an index; an unlisted byte reads 0 (10_state.md R43, R47). -/
def Memory.read (m : Memory) (a : Nat) : Byte :=
  match m with
  | [] => 0
  | (k, b) :: rest => if k = a then b else Memory.read rest a

/-- Writes one byte and keeps the canonical form: indices rise, and a byte of 0 is not listed. -/
def Memory.write (m : Memory) (a : Nat) (b : Byte) : Memory :=
  match m with
  | [] => if b = 0 then [] else [(a, b)]
  | (k, c) :: rest =>
    if a < k then (if b = 0 then (k, c) :: rest else (a, b) :: (k, c) :: rest)
    else if a = k then (if b = 0 then rest else (a, b) :: rest)
    else (k, c) :: Memory.write rest a b

/-- The canonical form: indices strictly rising and no byte of 0 listed. -/
abbrev Memory.wf (m : Memory) : Prop :=
  List.Pairwise (fun c d => c.1 < d.1) m ∧ ∀ c ∈ m, c.2 ≠ 0

/-- `V[i]` (00_scope.md R11). -/
def State.getV (s : State) (i : Fin 16) : Nat := s.v.get i

/-- `V[i] <- x` (R11). -/
def State.setV (s : State) (i : Fin 16) (x : Nat) : State := { s with v := s.v.set i.val x i.isLt }

/-- `PT[i]` (R11). -/
def State.getPt (s : State) (i : Fin 8) : PtReg := s.pt.get i

/-- `PT[i] <- (F, X, Y, Z)` (R11). -/
def State.setPt (s : State) (i : Fin 8) (q : PtReg) : State := { s with pt := s.pt.set i.val q i.isLt }

/-- The point register a PT-kind field selects: PT[field[2:0]] (30_encoding.md R122). -/
def ptIx (f : PtField) : Fin 8 := ⟨f.val % 8, Nat.mod_lt _ (by decide)⟩

/-- `OB[j]`; the bytes at OBSIZE and above do not exist and read 0 (20_memory.md R84). -/
def State.obByte (s : State) (j : Nat) : Byte := if j < s.cfg.obSize then Memory.read s.ob j else 0

/-- `OB[j] <- b` for j below OBSIZE; a write to a byte that does not exist is ignored (R84). -/
def State.setObByte (s : State) (j : Nat) (b : Byte) : State :=
  if j < s.cfg.obSize then { s with ob := Memory.write s.ob j b } else s

/-- `OB[i .. i+n-1]` as a string. -/
def State.obSlice (s : State) (i n : Nat) : List Byte := (List.range n).map (fun j => s.obByte (i + j))

/-- `for j in 0 .. OBSIZE-1: OB[j] <- (j < len) ? str[j] : 0x00; OBLEN <- len` (43_codec.md R292). -/
def State.fillOb (s : State) (str : List Byte) : State :=
  { (List.range s.cfg.obSize).foldl (fun t j => t.setObByte j (str.getD j 0)) s with
    oblen := BitVec.ofNat 16 str.length }

/-- PSIZE = ceil(bitlen(P) / 8), recomputed from P at all times (10_state.md R37). -/
def State.psize (s : State) : Nat := (bitlen s.curve.p + 7) / 8

/-- `be(b[0..k-1])`, most significant byte first (00_scope.md R14). -/
def beNat (bs : List Byte) : Nat := bs.foldl (fun acc b => acc * 256 + b.toNat) 0

/-- `be_k(x)`: x left-padded to k bytes (R14). -/
def beBytes (k x : Nat) : List Byte := (List.range k).map (fun j => BitVec.ofNat 8 (x / 256 ^ (k - 1 - j)))

/-- What reset does to the registers (70_reset_and_hazards.md R370, R371): all of R47. The parameters, the accesses still to come and the last answer are not registers. -/
def State.resetRegisters (s : State) : State :=
  { State.resetFor s.cfg with agenda := s.agenda, resp := s.resp }

/-- Power-on reset (R370). No answer to an access is left. -/
def State.powerOn (s : State) : State := { s.resetRegisters with resp := none }

/-- Acceptance of a command word: no decode and no check (10_state.md R39, 70_reset_and_hazards.md R375). -/
def State.accept (s : State) (w : Word32) : State :=
  { s with cmdLast := w, busy := true, done := false, err := 0, errInfo := 0 }

/-- The register write a command collects (R377): a V destination, a PT destination, the octet buffer with OBLEN, or CURVE_OK. -/
inductive Effect where
  | setV (d : Fin 16) (x : Nat)
  | setPt (d : Fin 8) (q : PtReg)
  | setOb (str : List Byte)
  | setCurveOk
  deriving DecidableEq, Repr

/-- Applies the collected write (R377). -/
def State.apply (s : State) : Effect → State
  | .setV d x => s.setV d x
  | .setPt d q => s.setPt d q
  | .setOb str => s.fillOb str
  | .setCurveOk => { s with curveOk := true }

/-- The STATUS write of every completion: ERR and ERRINFO, BUSY <- 0, DONE <- 1 (60_exceptions.md R349). -/
def State.finish (s : State) (err : BitVec 4) (info : Byte) : State :=
  { s with busy := false, done := true, err := err, errInfo := info }

/-- A successful completion: the destination, then STATUS (R345). -/
def State.succeed (s : State) (e : Effect) : State := (s.apply e).finish 0 0

/-- An error completion: STATUS only (R345). -/
def State.fail (s : State) (e : CmdError) : State := s.finish e.cls.code e.info

/-- The completion of a command other than CCHK (R377): always a next state. -/
def complete (s : State) (r : Except CmdError Effect) : Host.Outcome State Fault Refusal :=
  match r with
  | .ok e => .next (s.succeed e)
  | .error e => .next (s.fail e)

/-- The completion of CCHK, whose error path also clears CURVE_OK (R377, 41_curve_group.md R202). -/
def completeCheck (s : State) (r : Except CmdError Effect) : Host.Outcome State Fault Refusal :=
  match r with
  | .ok e => .next (s.succeed e)
  | .error e => .next (State.fail { s with curveOk := false } e)

end Machine
end Sys2Proof
end

