-- ==== Sys2Proof/Machine/Flags.lean ====
section
/-! DEFINITION. The control and status words the host reads and writes (10_state.md R33 to R39, R43), and the interrupt output (R45).
The engine has no arithmetic condition codes (R46): its flags are the STATUS fields. -/

namespace Sys2Proof.Machine

/-- ID, a constant (R33). -/
def idWord : Word32 := 0xECC10100

/-- HWCFG: W, 16 V registers, 8 PT registers (R34). -/
def State.hwcfgWord (s : State) : Word32 := 8#8 ++ 16#8 ++ BitVec.ofNat 16 s.cfg.width

/-- CTRL: SRST reads 0, IE is bit 1 (R35). -/
def State.ctrlWord (s : State) : Word32 := 0#30 ++ BitVec.ofBool s.ie ++ 0#1

/-- STATUS, from bit 31 down (R36). -/
def State.statusWord (s : State) : Word32 :=
  0#8 ++ s.errInfo ++ 0#4 ++ s.err ++ 0#4 ++ BitVec.ofBool s.curveOk ++ BitVec.ofBool s.busywr ++ BitVec.ofBool s.done
    ++ BitVec.ofBool s.busy

/-- The write-1-to-clear of STATUS: DONE and BUSYWR only (R36). Clearing DONE is the host's return from a completion (60_exceptions.md R351). -/
def State.writeStatus (s : State) (w : Word32) : State :=
  { s with done := s.done && !w.getLsbD 1, busywr := s.busywr && !w.getLsbD 2 }

/-- A CTRL write: soft reset when bit 0 is 1, whatever bit 1 holds, else IE from bit 1 (R35, 70_reset_and_hazards.md R371). -/
def State.writeCtrl (s : State) (w : Word32) : State :=
  if w.getLsbD 0 then s.resetRegisters else { s with ie := w.getLsbD 1 }

/-- OBLEN[31:16] reads 0 (R43). -/
def State.oblenWord (s : State) : Word32 := s.oblen.zeroExtend 32

/-- CURVECFG: PSIZE in bits 23:16, WEAK in bit 0 (R37). -/
def State.curvecfgWord (s : State) : Word32 := 0#8 ++ BitVec.ofNat 8 s.psize ++ 0#15 ++ BitVec.ofBool s.weak

/-- A CURVECFG write sets WEAK from bit 0 and clears CURVE_OK (R37, R48). -/
def State.writeCurvecfg (s : State) (w : Word32) : State := { s with weak := w.getLsbD 0, curveOk := false }

/-- The form codes of R38. -/
def Form.code : Form → BitVec 2
  | .inf => 0
  | .aff => 1
  | .jac => 2
  | .reserved => 3

/-- The form of a 2-bit code (R38). -/
def Form.ofCode (c : BitVec 2) : Form :=
  if c = 0 then .inf else if c = 1 then .aff else if c = 2 then .jac else .reserved

/-- The point registers, in order. -/
def ptIndices : List (Fin 8) := [0, 1, 2, 3, 4, 5, 6, 7]

/-- PTF: PTF[2i+1:2i] = PT[i].F, bits 31:16 read 0 (R38). -/
def State.ptfWord (s : State) : Word32 :=
  ptIndices.foldl (fun w i => w ||| ((s.getPt i).f.code.zeroExtend 32 <<< (2 * i.val))) 0

/-- A PTF write sets every form and no coordinate (R38). -/
def State.writePtf (s : State) (w : Word32) : State :=
  ptIndices.foldl (fun t i => t.setPt i { t.getPt i with f := Form.ofCode (w.extractLsb' (2 * i.val) 2) }) s

/-- The interrupt output: `IRQ = STATUS.DONE AND CTRL.IE`, a level (R45). -/
def State.irq (s : State) : Bool := s.done && s.ie

/-- What the platform's interrupt controller sees: the line and priority of IRQ_LINE while IRQ is 1 (60_exceptions.md R350). -/
def State.irqRequest (s : State) : Option (Nat × Nat) :=
  if s.irq then some (s.cfg.irqLine, s.cfg.irqPriority) else none

end Sys2Proof.Machine
end

