-- ==== Sys2Proof/Machine/Bus.lean ====
section
/-! DEFINITION. The host's side: the address map, the word layout of big registers, the octet-buffer lanes, the busy rule and one bus access (20_memory.md R80 to R89). -/

namespace Sys2Proof.Machine

/-- The curve-block registers, in address order (10_state.md R40). -/
inductive CurveReg where
  | p | a | b | gx | gy | n | h
  deriving DecidableEq, Repr

/-- The coordinates of a point register, in address order (R42). -/
inductive Coord where
  | x | y | z
  deriving DecidableEq, Repr

/-- What an offset of the window names (R82); `q` is the word of a big-register slot or of the OB window. -/
inductive Target where
  | id
  | hwcfg
  | ctrl
  | status
  | cmd
  | oblen
  | ptf
  | curvecfg
  | curve (r : CurveReg) (q : Nat)
  | v (i : Fin 16) (q : Nat)
  | pt (i : Fin 8) (c : Coord) (q : Nat)
  | ob (q : Nat)
  | reserved
  deriving DecidableEq, Repr

/-- The control and status registers at 0x000 to 0x01F (R82). -/
def controlTarget (k : Nat) : Target :=
  match k with
  | 0 => .id
  | 1 => .hwcfg
  | 2 => .ctrl
  | 3 => .status
  | 4 => .cmd
  | 5 => .oblen
  | 6 => .ptf
  | 7 => .curvecfg
  | _ => .reserved

/-- The curve register of slot k at 0x400 + 0x80*k (R82). -/
def curveRegOf (k : Nat) : CurveReg :=
  match k with
  | 0 => .p
  | 1 => .a
  | 2 => .b
  | 3 => .gx
  | 4 => .gy
  | 5 => .n
  | _ => .h

/-- The coordinate of slot c at 0x80*c (R82). -/
def coordOf (c : Nat) : Coord :=
  match c with
  | 0 => .x
  | 1 => .y
  | _ => .z

/-- The address map of R82 on offsets that are multiples of 4. Every big-register slot is 0x80 bytes. -/
def targetOf (off : Nat) : Target :=
  if off < 0x20 then controlTarget (off / 4)
  else if off < 0x400 then .reserved
  else if off < 0x780 then .curve (curveRegOf ((off - 0x400) / 0x80)) (off % 0x80 / 4)
  else if off < 0x800 then .reserved
  else if off < 0x1000 then .v (Fin.ofNat 16 ((off - 0x800) / 0x80)) (off % 0x80 / 4)
  else if off < 0x1C00 then
    .pt (Fin.ofNat 8 ((off - 0x1000) / 0x180)) (coordOf ((off - 0x1000) % 0x180 / 0x80)) (off % 0x80 / 4)
  else if off < 0x1E00 then .ob ((off - 0x1C00) / 4)
  else .reserved

/-- Word q of a big register; words at NW and above read 0 (R83). -/
def State.bigWord (s : State) (x q : Nat) : Word32 :=
  if q < s.cfg.nw then BitVec.ofNat 32 (x / 2 ^ (32 * q)) else 0

/-- A big register with its bits [32q+31 : 32q] replaced (R83). -/
def replaceWord (x q : Nat) (w : Word32) : Nat :=
  x % 2 ^ (32 * q) + w.toNat * 2 ^ (32 * q) + x / 2 ^ (32 * (q + 1)) * 2 ^ (32 * (q + 1))

/-- Word q of a big register written; words at NW and above ignore writes (R83). -/
def State.putWord (s : State) (x q : Nat) (w : Word32) : Nat :=
  if q < s.cfg.nw then replaceWord x q w else x

/-- A register of the curve block (R40). -/
def CurveBlock.get (c : CurveBlock) : CurveReg → Nat
  | .p => c.p
  | .a => c.a
  | .b => c.b
  | .gx => c.gx
  | .gy => c.gy
  | .n => c.n
  | .h => c.h

/-- Writes a register of the curve block (R40). -/
def CurveBlock.put (c : CurveBlock) (r : CurveReg) (x : Nat) : CurveBlock :=
  match r with
  | .p => { c with p := x }
  | .a => { c with a := x }
  | .b => { c with b := x }
  | .gx => { c with gx := x }
  | .gy => { c with gy := x }
  | .n => { c with n := x }
  | .h => { c with h := x }

/-- A coordinate of a point register (R42). -/
def PtReg.get (q : PtReg) : Coord → Nat
  | .x => q.x
  | .y => q.y
  | .z => q.z

/-- Writes a coordinate of a point register; the form is PTF's and stays (R42). -/
def PtReg.put (q : PtReg) (c : Coord) (v : Nat) : PtReg :=
  match c with
  | .x => { q with x := v }
  | .y => { q with y := v }
  | .z => { q with z := v }

/-- Word q of the OB window: byte OB[4q+t] in lane [8t+7 : 8t] (R84). -/
def State.obWord (s : State) (q : Nat) : Word32 :=
  s.obByte (4 * q + 3) ++ s.obByte (4 * q + 2) ++ s.obByte (4 * q + 1) ++ s.obByte (4 * q)

/-- Writes the four lanes of a word of the OB window (R84). -/
def State.writeObWord (s : State) (q : Nat) (w : Word32) : State :=
  (((s.setObByte (4 * q) (w.extractLsb' 0 8)).setObByte (4 * q + 1) (w.extractLsb' 8 8)).setObByte (4 * q + 2)
    (w.extractLsb' 16 8)).setObByte (4 * q + 3) (w.extractLsb' 24 8)

/-- The word a target reads as while the engine is idle (R82 to R86). No read changes the state (R89). -/
def State.readTarget (s : State) : Target → Word32
  | .id => idWord
  | .hwcfg => s.hwcfgWord
  | .ctrl => s.ctrlWord
  | .status => s.statusWord
  | .cmd => s.cmdLast
  | .oblen => s.oblenWord
  | .ptf => s.ptfWord
  | .curvecfg => s.curvecfgWord
  | .curve r q => s.bigWord (s.curve.get r) q
  | .v i q => s.bigWord (s.getV i) q
  | .pt i c q => s.bigWord ((s.getPt i).get c) q
  | .ob q => s.obWord q
  | .reserved => 0

/-- A write to an implemented word of the curve block also clears CURVE_OK, whether or not the value changes (10_state.md R48). -/
def State.writeCurve (s : State) (r : CurveReg) (q : Nat) (w : Word32) : State :=
  if q < s.cfg.nw then { s with curve := s.curve.put r (replaceWord (s.curve.get r) q w), curveOk := false } else s

/-- What a write to a target does while the engine is idle (R82 to R86; a CMD write is an acceptance, 10_state.md R39). -/
def State.writeTarget (s : State) (t : Target) (w : Word32) : State :=
  match t with
  | .id => s
  | .hwcfg => s
  | .ctrl => s.writeCtrl w
  | .status => s.writeStatus w
  | .cmd => s.accept w
  | .oblen => { s with oblen := w.extractLsb' 0 16 }
  | .ptf => s.writePtf w
  | .curvecfg => s.writeCurvecfg w
  | .curve r q => s.writeCurve r q w
  | .v i q => s.setV i (s.putWord (s.getV i) q w)
  | .pt i c q => s.setPt i ((s.getPt i).put c (s.putWord ((s.getPt i).get c) q w))
  | .ob q => s.writeObWord q w
  | .reserved => s

/-- The offsets the busy rule hides: 0x014–0x01F and 0x400–0x1FFF (R87). -/
def hiddenWhenBusy (off : Nat) : Bool :=
  (decide (0x014 ≤ off) && decide (off < 0x020)) || decide (0x400 ≤ off)

/-- A legal read at an offset: a hidden offset reads 0 while busy (R87). -/
def State.busRead (s : State) (off : Nat) : Word32 :=
  if s.busy && hiddenWhenBusy off then 0 else s.readTarget (targetOf off)

/-- A legal write at an offset: a write to a hidden offset or to CMD while busy is dropped and sets BUSYWR (R87, 60_exceptions.md R348). -/
def State.busWrite (s : State) (off : Nat) (w : Word32) : State :=
  if s.busy && (hiddenWhenBusy off || decide (targetOf off = .cmd)) then { s with busywr := true }
  else s.writeTarget (targetOf off) w

/-- The addresses the interconnect routes to this engine: BASE to BASE + 0x1FFF (R80). -/
def Config.routes (c : Config) (addr : Nat) : Bool := decide (c.base ≤ addr) && decide (addr < c.base + 0x2000)

/-- The offset the window decodes: address bits [12:0] (R80). -/
def windowOffset (addr : Nat) : Nat := addr % 0x2000

/-- A legal access is 32 bits wide at an offset that is a multiple of 4 (R81). -/
def Access.legal (a : Access) : Bool := decide (a.size = .b32) && decide (windowOffset a.addr % 4 = 0)

/-- One host access, whole and atomic (R89). An illegal one gets a bus error and changes nothing else (R81, 60_exceptions.md R347); one outside the window does not reach the engine (R80). -/
def State.busAccess (s : State) (a : Access) : State :=
  if Config.routes s.cfg a.addr then
    if a.legal then
      match a.op with
      | .read => { s with resp := some (.readData (s.busRead (windowOffset a.addr))) }
      | .write w => { s.busWrite (windowOffset a.addr) w with resp := some .writeDone }
    else { s with resp := some .busError }
  else { s with resp := none }

end Sys2Proof.Machine
end

