-- ==== Sys2Proof/Machine/Points.lean ====
section
/-! DEFINITION. The curve helpers: membership tests (41_curve_group.md R200, R201), conversions (R206), the affine law (R207), Jacobian doubling and addition (R208, R209), the scalar loop (44_scalar.md R320) and y recovery (42_curve_y.md R260, R261).
A field expression is the exact integer expression of the rule, reduced once by `red` (00_scope.md R15). -/

namespace Sys2Proof.Machine

/-- An affine point value: INF or (x, y) (R17). -/
inductive AffPoint where
  | inf
  | pt (x y : Nat)
  deriving DecidableEq, Repr

/-- A Jacobian triple (X, Y, Z): infinity when Z = 0 (R17). -/
structure JacPoint where
  x : Nat
  y : Nat
  z : Nat
  deriving DecidableEq, Repr

/-- (1, 1, 0), the canonical Jacobian infinity (R206). -/
def JacPoint.infinity : JacPoint := ⟨1, 1, 0⟩

/-- `on_curve_aff(x, y)` (R200). -/
def onCurveAff (c : CurveBlock) (x y : Nat) : Bool :=
  decide (x < c.p) && decide (y < c.p) &&
    decide (((y : Int) * y - ((x : Int) * x * x + c.a * x + c.b)) % c.p = 0)

/-- The VALUE test of `val_jac` (R201): coordinates below p, and for Z nonzero the curve equation times Z^6. -/
def validJac (c : CurveBlock) (t : JacPoint) : Bool :=
  decide (t.x < c.p) && decide (t.y < c.p) && decide (t.z < c.p) &&
    (decide (t.z = 0) ||
      decide (((t.y : Int) * t.y - ((t.x : Int) * t.x * t.x + c.a * t.x * t.z ^ 4 + c.b * t.z ^ 6)) % c.p = 0))

/-- `jac_of(Q)` (R206). -/
def jacOf : AffPoint → JacPoint
  | .inf => JacPoint.infinity
  | .pt x y => ⟨x, y, 1⟩

/-- `aff_of(T)` (R206); DOMAIN(0x50) only for a composite p. -/
def affOf (c : CurveBlock) (t : JacPoint) : Except CmdError AffPoint :=
  if t.z = 0 then .ok .inf
  else do
    let zi ← invMod t.z c.p
    .ok (.pt (red c.p ((t.x : Int) * (zi * zi))) (red c.p ((t.y : Int) * (zi * zi * zi))))

/-- The third point of the line of slope lam through (x1, y1), the common end of R207. -/
def lineThird (c : CurveBlock) (lam x1 y1 x2 : Nat) : AffPoint :=
  let x3 := red c.p ((lam : Int) * lam - x1 - x2)
  .pt x3 (red c.p ((lam : Int) * ((x1 : Int) - x3) - y1))

/-- `aff_add(P1, P2)` (R207). -/
def affAdd (c : CurveBlock) : AffPoint → AffPoint → Except CmdError AffPoint
  | .inf, q => .ok q
  | .pt x1 y1, .inf => .ok (.pt x1 y1)
  | .pt x1 y1, .pt x2 y2 =>
    if x1 = x2 then
      if y1 = y2 ∧ y1 ≠ 0 then do
        let di ← invMod (red c.p (2 * (y1 : Int))) c.p
        .ok (lineThird c (red c.p ((3 * (x1 : Int) * x1 + c.a) * di)) x1 y1 x2)
      else .ok .inf
    else do
      let di ← invMod (red c.p ((x2 : Int) - x1)) c.p
      .ok (lineThird c (red c.p (((y2 : Int) - y1) * di)) x1 y1 x2)

/-- `jdbl(T)`, with the pinned formulas (R208). -/
def jdbl (c : CurveBlock) (t : JacPoint) : JacPoint :=
  if t.z = 0 ∨ t.y = 0 then JacPoint.infinity
  else
    let s := red c.p (4 * (t.x : Int) * t.y * t.y)
    let mv := red c.p (3 * (t.x : Int) * t.x + c.a * t.z ^ 4)
    let x3 := red c.p ((mv : Int) * mv - 2 * s)
    let y3 := red c.p ((mv : Int) * ((s : Int) - x3) - 8 * t.y ^ 4)
    let z3 := red c.p (2 * (t.y : Int) * t.z)
    if z3 = 0 then JacPoint.infinity else ⟨x3, y3, z3⟩

/-- `jadd(T1, T2)`, with the pinned formulas (R209). -/
def jadd (c : CurveBlock) (t1 t2 : JacPoint) : JacPoint :=
  if t1.z = 0 then (if t2.z = 0 then JacPoint.infinity else t2)
  else if t2.z = 0 then t1
  else
    let u1 := red c.p ((t1.x : Int) * t2.z ^ 2)
    let u2 := red c.p ((t2.x : Int) * t1.z ^ 2)
    let s1 := red c.p ((t1.y : Int) * t2.z ^ 3)
    let s2 := red c.p ((t2.y : Int) * t1.z ^ 3)
    if u1 = u2 then
      if s1 = s2 then jdbl c t1 else JacPoint.infinity
    else
      let h := red c.p ((u2 : Int) - u1)
      let r := red c.p ((s2 : Int) - s1)
      let x3 := red c.p ((r : Int) * r - h ^ 3 - 2 * u1 * h ^ 2)
      let y3 := red c.p ((r : Int) * ((u1 : Int) * h ^ 2 - x3) - s1 * h ^ 3)
      let z3 := red c.p ((h : Int) * t1.z * t2.z)
      if z3 = 0 then JacPoint.infinity else ⟨x3, y3, z3⟩

/-- The loop of `jmul` from bit index i - 1 down to 0 (R320). -/
def jmulLoop (c : CurveBlock) (k : Nat) (q : JacPoint) : Nat → JacPoint → JacPoint
  | 0, t => t
  | i + 1, t => jmulLoop c k q i (if k.testBit i then jadd c (jdbl c t) q else jdbl c t)

/-- `jmul(k, Q)`: double-and-add, most significant bit first, from (1, 1, 0); k is not reduced (R320). -/
def jmul (c : CurveBlock) (k : Nat) (q : AffPoint) : JacPoint :=
  jmulLoop c k (jacOf q) (bitlen k) JacPoint.infinity

/-- `y_roots(x)` (42_curve_y.md R260): a missing root is VALUE(0x34), not DOMAIN. -/
def yRoots (c : CurveBlock) (x : Nat) : Except CmdError (Nat × Nat) :=
  if c.p ≤ x then .error .xRange
  else
    match sqrtMod (red c.p ((x : Int) * x * x + c.a * x + c.b)) c.p with
    | .error _ => .error .noY
    | .ok r => .ok (r, red c.p ((c.p : Int) - r))

/-- `select(roots, pred)` (R261). -/
def selectRoot (roots : Nat × Nat) (pred : Nat → Bool) : Except CmdError Nat :=
  if pred roots.1 then .ok roots.1
  else if pred roots.2 then .ok roots.2
  else .error .noRoot

/-- What `write_aff` writes (R206, 10_state.md R42). -/
def affReg : AffPoint → PtReg
  | .inf => ⟨.inf, 0, 0, 0⟩
  | .pt x y => ⟨.aff, x, y, 1⟩

/-- What `write_jac` writes (R206, R42). -/
def jacReg (t : JacPoint) : PtReg :=
  if t.z = 0 then ⟨.jac, 1, 1, 0⟩ else ⟨.jac, t.x, t.y, t.z⟩

end Sys2Proof.Machine
end

