-- ==== Sys2Proof/Machine/Operands.lean ====
section
/-! DEFINITION. The operand forms of the commands: the modulus prologue (40_modular.md R160), the curve prologue (41_curve_group.md R205), the form and value checks of point operands (R200, R201) and the selector check (30_encoding.md R123). -/

namespace Sys2Proof.Machine

/-- The modulus register M selects: P for `.P`, N for `.N` (30_encoding.md R124). -/
def State.modulus (s : State) : ModSel → Nat
  | .p => s.curve.p
  | .n => s.curve.n

/-- `mod_prologue(M)`: the modulus, which must be odd and at least 3, else CONFIG(0x11) (R160). -/
def modPrologue (s : State) (m : ModSel) : Except CmdError Nat := do
  require (¬ (s.modulus m % 2 = 0 ∨ s.modulus m < 3)) .badModulus
  return s.modulus m

/-- `curve_prologue`: CURVE_OK must be 1, else CONFIG(0x10) (R205). -/
def curvePrologue (s : State) : Except CmdError Unit := require (s.curveOk = true) .noCurve

/-- The VALUE(0x30) check of a selector above 1 (R123, R205). -/
def selectorCheck (sel : Sel) : Except CmdError Unit := require (sel.val ≤ 1) .selector

/-- `form_aff(i, code)`: the form must be INF or AFF (R200). -/
def formAff (s : State) (i : Fin 8) (e : CmdError) : Except CmdError Unit :=
  require ((s.getPt i).f = .inf ∨ (s.getPt i).f = .aff) e

/-- `form_jac(i, code)`: the form must be JAC (R201). -/
def formJac (s : State) (i : Fin 8) (e : CmdError) : Except CmdError Unit :=
  require ((s.getPt i).f = .jac) e

/-- `val_aff(i, code)`: INF, or the pair when it is on the curve (R200). -/
def valAff (s : State) (i : Fin 8) (e : CmdError) : Except CmdError AffPoint :=
  if (s.getPt i).f = .inf then .ok .inf
  else do
    require (onCurveAff s.curve (s.getPt i).x (s.getPt i).y = true) e
    return .pt (s.getPt i).x (s.getPt i).y

/-- The coordinates of a point register as a Jacobian triple. -/
def PtReg.triple (q : PtReg) : JacPoint := ⟨q.x, q.y, q.z⟩

/-- `val_jac(i, code)` (R201). -/
def valJac (s : State) (i : Fin 8) (e : CmdError) : Except CmdError JacPoint := do
  require (validJac s.curve (s.getPt i).triple = true) e
  return (s.getPt i).triple

/-- One affine operand A after the curve prologue: TYPE(0x20), then VALUE(0x31) (R205). -/
def affOperandA (s : State) (a : Fin 8) : Except CmdError AffPoint := do
  curvePrologue s
  formAff s a .formA
  valAff s a .pointA

/-- One Jacobian operand A after the curve prologue: TYPE(0x20), then VALUE(0x31) (R205). -/
def jacOperandA (s : State) (a : Fin 8) : Except CmdError JacPoint := do
  curvePrologue s
  formJac s a .formA
  valJac s a .pointA

/-- Two affine operands: both form checks before both value checks, A before B (R205). -/
def affOperands (s : State) (a b : Fin 8) : Except CmdError (AffPoint × AffPoint) := do
  curvePrologue s
  formAff s a .formA
  formAff s b .formB
  let p1 ← valAff s a .pointA
  let p2 ← valAff s b .pointB
  return (p1, p2)

/-- Two Jacobian operands, in the order of R205. -/
def jacOperands (s : State) (a b : Fin 8) : Except CmdError (JacPoint × JacPoint) := do
  curvePrologue s
  formJac s a .formA
  formJac s b .formB
  let t1 ← valJac s a .pointA
  let t2 ← valJac s b .pointB
  return (t1, t2)

/-- `zext_W` of a boolean (00_scope.md R10). -/
def boolNat (b : Bool) : Nat := if b then 1 else 0

end Sys2Proof.Machine
end

