-- ==== Sys2Proof/Machine/Codec.lean ====
section
/-! DEFINITION. The SEC1 point codec family: DEC, ENC (43_codec.md R290 to R292). -/

namespace Sys2Proof.Machine

/-- The compressed branch of DEC, leading byte 0x02 or 0x03 (R291). -/
def decCompressed (s : State) (b0 : Byte) : Except CmdError AffPoint := do
  require (s.oblen.toNat = 1 + s.psize) .octetLength
  let x := beNat (s.obSlice 1 s.psize)
  let roots ← yRoots s.curve x
  let y ← selectRoot roots (fun r => decide (r % 2 = (b0 &&& 1).toNat))
  return .pt x y

/-- The uncompressed branch of DEC, leading byte 0x04 (R291). -/
def decUncompressed (s : State) : Except CmdError AffPoint := do
  require (s.oblen.toNat = 1 + 2 * s.psize) .octetLength
  let x := beNat (s.obSlice 1 s.psize)
  let y := beNat (s.obSlice (1 + s.psize) s.psize)
  require (onCurveAff s.curve x y = true) .octetPoint
  return .pt x y

/-- The point the octet buffer encodes: the leading byte is checked before the length, but for the empty string (R291). -/
def decPoint (s : State) : Except CmdError AffPoint :=
  if s.oblen = 0 then .error .octetLength
  else if s.obByte 0 = 0x02 ∨ s.obByte 0 = 0x03 then decCompressed s (s.obByte 0)
  else if s.obByte 0 = 0x04 then decUncompressed s
  else .error .leadingByte

/-- DEC (R291). -/
def execDec (d : PtField) (s : State) : Host.Outcome State Fault Refusal :=
  complete s (do
    curvePrologue s
    let q ← decPoint s
    return .setPt (ptIx d) (affReg q))

/-- The SEC1 string of (x, y): compressed for SEL = 1, else uncompressed (R292). -/
def encBytes (psize : Nat) (sel : Sel) (x y : Nat) : List Byte :=
  if sel.val = 1 then BitVec.ofNat 8 (2 + y % 2) :: beBytes psize x
  else 0x04 :: (beBytes psize x ++ beBytes psize y)

/-- The point ENC encodes, after the checks in the order of R292. -/
def encPoint (s : State) (a : Fin 8) (sel : Sel) : Except CmdError (Nat × Nat) := do
  curvePrologue s
  formAff s a .formA
  selectorCheck sel
  require ((s.getPt a).f ≠ .inf) .encodeInf
  require (onCurveAff s.curve (s.getPt a).x (s.getPt a).y = true) .pointA
  return ((s.getPt a).x, (s.getPt a).y)

/-- ENC (R292). -/
def execEnc (a : PtField) (sel : Sel) (s : State) : Host.Outcome State Fault Refusal :=
  complete s (do
    let q ← encPoint s (ptIx a) sel
    return .setOb (encBytes s.psize sel q.1 q.2))

end Sys2Proof.Machine
end

