-- ==== Sys2Proof/Machine/Group.lean ====
section
/-! DEFINITION. The curve group family: CCHK, ONCRV, PADD, PNEG, JADD, JDBL, J2A, A2J, J2X (41_curve_group.md R202, R210 to R217). -/

namespace Sys2Proof.Machine

/-- The checks of CCHK, in its order, on the curve block and WEAK alone (R202, R203). N·G is computed with N unreduced, and H is not read. -/
def checkCurve (c : CurveBlock) (weak : Bool) : Except CmdError Unit := do
  require (¬ (c.p % 2 = 0 ∨ c.p < 3)) .curveP
  require (¬ (c.p ≤ c.a ∨ c.p ≤ c.b ∨ c.p ≤ c.gx ∨ c.p ≤ c.gy)) .curveRange
  require (¬ (weak = false ∧ (4 * c.a ^ 3 + 27 * c.b ^ 2) % c.p = 0)) .singular
  require (onCurveAff c c.gx c.gy = true) .curveG
  require (¬ (c.n % 2 = 0 ∨ c.n < 3)) .curveN
  require ((jmul c c.n (.pt c.gx c.gy)).z = 0) .curveOrder

/-- CCHK (R202). -/
def execCchk (s : State) : Host.Outcome State Fault Refusal :=
  completeCheck s (do
    checkCurve s.curve s.weak
    return .setCurveOk)

/-- ONCRV (R210): a wrong form is VALUE(0x31) here, not TYPE. -/
def execOncrv (d : VField) (a : PtField) (s : State) : Host.Outcome State Fault Refusal :=
  complete s (do
    curvePrologue s
    match (s.getPt (ptIx a)).f with
    | .inf => return .setV d 1
    | .aff => return .setV d (boolNat (onCurveAff s.curve (s.getPt (ptIx a)).x (s.getPt (ptIx a)).y))
    | .jac => .error .pointA
    | .reserved => .error .pointA)

/-- PADD (R211). -/
def execPadd (d a b : PtField) (s : State) : Host.Outcome State Fault Refusal :=
  complete s (do
    let ops ← affOperands s (ptIx a) (ptIx b)
    let q ← affAdd s.curve ops.1 ops.2
    return .setPt (ptIx d) (affReg q))

/-- The negation of an affine point: (x, (p - y) mod p), INF for INF (R212). -/
def affNeg (c : CurveBlock) : AffPoint → AffPoint
  | .inf => .inf
  | .pt x y => .pt x (red c.p ((c.p : Int) - y))

/-- PNEG (R212). -/
def execPneg (d a : PtField) (s : State) : Host.Outcome State Fault Refusal :=
  complete s (do
    let q ← affOperandA s (ptIx a)
    return .setPt (ptIx d) (affReg (affNeg s.curve q)))

/-- JADD (R213). -/
def execJadd (d a b : PtField) (s : State) : Host.Outcome State Fault Refusal :=
  complete s (do
    let ops ← jacOperands s (ptIx a) (ptIx b)
    return .setPt (ptIx d) (jacReg (jadd s.curve ops.1 ops.2)))

/-- JDBL (R214). -/
def execJdbl (d a : PtField) (s : State) : Host.Outcome State Fault Refusal :=
  complete s (do
    let t ← jacOperandA s (ptIx a)
    return .setPt (ptIx d) (jacReg (jdbl s.curve t)))

/-- J2A (R215). -/
def execJ2a (d a : PtField) (s : State) : Host.Outcome State Fault Refusal :=
  complete s (do
    let t ← jacOperandA s (ptIx a)
    let q ← affOf s.curve t
    return .setPt (ptIx d) (affReg q))

/-- A2J (R216). -/
def execA2j (d a : PtField) (s : State) : Host.Outcome State Fault Refusal :=
  complete s (do
    let q ← affOperandA s (ptIx a)
    return .setPt (ptIx d) (jacReg (jacOf q)))

/-- J2X (R217): Y is validated but not used. -/
def execJ2x (d : VField) (a : PtField) (s : State) : Host.Outcome State Fault Refusal :=
  complete s (do
    let t ← jacOperandA s (ptIx a)
    require (t.z ≠ 0) .xOfInf
    let zi ← invMod t.z s.curve.p
    return .setV d (red s.curve.p ((t.x : Int) * (zi * zi))))

end Sys2Proof.Machine
end

