-- ==== Sys2Proof/Machine/Modular.lean ====
section
/-! DEFINITION. The modular arithmetic family: MADD, MSUB, MMUL, MINV, MEXP, MSQRT, MRED (40_modular.md R180 to R186). -/

namespace Sys2Proof.Machine

/-- A command of two sources whose result is a function of the modulus and the sources (R161). -/
def modBinary (s : State) (m : ModSel) (d a b : VField) (f : Nat → Nat → Nat → Nat) :
    Host.Outcome State Fault Refusal :=
  complete s (do
    let p ← modPrologue s m
    return .setV d (f p (s.getV a) (s.getV b)))

/-- A command of one source whose result may fail (R161). -/
def modUnary (s : State) (m : ModSel) (d a : VField) (f : Nat → Nat → Except CmdError Nat) :
    Host.Outcome State Fault Refusal :=
  complete s (do
    let p ← modPrologue s m
    let x ← f p (s.getV a)
    return .setV d x)

/-- MADD (R180): (V[A] + V[B]) mod m, the sum exact. -/
def execMadd (m : ModSel) (d a b : VField) (s : State) : Host.Outcome State Fault Refusal :=
  modBinary s m d a b (fun p x y => (x + y) % p)

/-- MSUB (R181): (V[A] - V[B]) mod m, floored. -/
def execMsub (m : ModSel) (d a b : VField) (s : State) : Host.Outcome State Fault Refusal :=
  modBinary s m d a b (fun p x y => red p ((x : Int) - y))

/-- MMUL (R182): (V[A] * V[B]) mod m, the product exact. -/
def execMmul (m : ModSel) (d a b : VField) (s : State) : Host.Outcome State Fault Refusal :=
  modBinary s m d a b (fun p x y => (x * y) % p)

/-- MINV (R183). -/
def execMinv (m : ModSel) (d a : VField) (s : State) : Host.Outcome State Fault Refusal :=
  modUnary s m d a (fun p x => invMod x p)

/-- MEXP (R184): the exponent is not reduced. -/
def execMexp (m : ModSel) (d a b : VField) (s : State) : Host.Outcome State Fault Refusal :=
  modBinary s m d a b (fun p x y => powMod x y p)

/-- MSQRT (R185). -/
def execMsqrt (m : ModSel) (d a : VField) (s : State) : Host.Outcome State Fault Refusal :=
  modUnary s m d a (fun p x => sqrtMod x p)

/-- MRED (R186). -/
def execMred (m : ModSel) (d a : VField) (s : State) : Host.Outcome State Fault Refusal :=
  modUnary s m d a (fun p x => .ok (x % p))

end Sys2Proof.Machine
end

