-- ==== Sys2Proof/Machine/Scalar.lean ====
section
/-! DEFINITION. The scalar multiplication family: SMUL (44_scalar.md R321). -/

namespace Sys2Proof.Machine

/-- The product of R321: INF for k = 0 or Q = INF, else one conversion of the Jacobian loop's result. -/
def scalarMul (c : CurveBlock) (k : Nat) (q : AffPoint) : Except CmdError AffPoint :=
  if k = 0 ∨ q = .inf then .ok .inf else affOf c (jmul c k q)

/-- SMUL (R321): the scalar is V[B] mod N. -/
def execSmul (d a : PtField) (b : VField) (s : State) : Host.Outcome State Fault Refusal :=
  complete s (do
    let q ← affOperandA s (ptIx a)
    let r ← scalarMul s.curve (s.getV b % s.curve.n) q
    return .setPt (ptIx d) (affReg r))

end Sys2Proof.Machine
end

