-- ==== Sys2Proof/Machine/YRecovery.lean ====
section
/-! DEFINITION. The y-coordinate recovery and residuosity family: YODD, YLOW, YQR, HSQY (42_curve_y.md R263 to R266). -/

namespace Sys2Proof.Machine

/-- YODD (R263). -/
def execYodd (d a : VField) (sel : Sel) (s : State) : Host.Outcome State Fault Refusal :=
  complete s (do
    curvePrologue s
    selectorCheck sel
    let roots ← yRoots s.curve (s.getV a)
    let y ← selectRoot roots (fun r => decide (r % 2 = sel.val))
    return .setV d y)

/-- The predicate of YLOW: `r <= (p - r) mod p` for low = 1, `r >= (p - r) mod p` for low = 0 (R264). -/
def lowPred (c : CurveBlock) (sel : Sel) (r : Nat) : Bool :=
  if sel.val = 1 then decide (r ≤ red c.p ((c.p : Int) - r)) else decide (red c.p ((c.p : Int) - r) ≤ r)

/-- YLOW (R264). -/
def execYlow (d a : VField) (sel : Sel) (s : State) : Host.Outcome State Fault Refusal :=
  complete s (do
    curvePrologue s
    selectorCheck sel
    let roots ← yRoots s.curve (s.getV a)
    let y ← selectRoot roots (lowPred s.curve sel)
    return .setV d y)

/-- YQR (R265): the selector check comes before the p mod 4 check. -/
def execYqr (d a : VField) (sel : Sel) (s : State) : Host.Outcome State Fault Refusal :=
  complete s (do
    curvePrologue s
    selectorCheck sel
    require (s.curve.p % 4 = 3) .pMod4
    let roots ← yRoots s.curve (s.getV a)
    let y ← selectRoot roots (fun r => decide (boolNat (isQr r s.curve.p) = sel.val))
    return .setV d y)

/-- The predicate of HSQY: INF is false, else y is a residue (R266). -/
def hasSquareY (c : CurveBlock) : AffPoint → Bool
  | .inf => false
  | .pt _ y => isQr y c.p

/-- HSQY (R266). -/
def execHsqy (d : VField) (a : PtField) (s : State) : Host.Outcome State Fault Refusal :=
  complete s (do
    let q ← affOperandA s (ptIx a)
    return .setV d (boolNat (hasSquareY s.curve q)))

end Sys2Proof.Machine
end

