-- ==== Sys2Proof/Machine/Dispatch.lean ====
section
/-! DEFINITION. One arm for each command: the rule of its opcode run to its completion (30_encoding.md R126, 70_reset_and_hazards.md R377). -/

namespace Sys2Proof.Machine

def exec (i : Instr) (s : State) : Host.Outcome State Fault Refusal :=
  match i with
  | .madd m d a b => Sys2Proof.Machine.execMadd m d a b s
  | .msub m d a b => Sys2Proof.Machine.execMsub m d a b s
  | .mmul m d a b => Sys2Proof.Machine.execMmul m d a b s
  | .minv m d a => Sys2Proof.Machine.execMinv m d a s
  | .mexp m d a b => Sys2Proof.Machine.execMexp m d a b s
  | .msqrt m d a => Sys2Proof.Machine.execMsqrt m d a s
  | .mred m d a => Sys2Proof.Machine.execMred m d a s
  | .cchk => Sys2Proof.Machine.execCchk s
  | .oncrv d a => Sys2Proof.Machine.execOncrv d a s
  | .padd d a b => Sys2Proof.Machine.execPadd d a b s
  | .pneg d a => Sys2Proof.Machine.execPneg d a s
  | .jadd d a b => Sys2Proof.Machine.execJadd d a b s
  | .jdbl d a => Sys2Proof.Machine.execJdbl d a s
  | .j2a d a => Sys2Proof.Machine.execJ2a d a s
  | .a2j d a => Sys2Proof.Machine.execA2j d a s
  | .j2x d a => Sys2Proof.Machine.execJ2x d a s
  | .yodd d a sel => Sys2Proof.Machine.execYodd d a sel s
  | .ylow d a sel => Sys2Proof.Machine.execYlow d a sel s
  | .yqr d a sel => Sys2Proof.Machine.execYqr d a sel s
  | .hsqy d a => Sys2Proof.Machine.execHsqy d a s
  | .dec d => Sys2Proof.Machine.execDec d s
  | .enc a sel => Sys2Proof.Machine.execEnc a sel s
  | .smul d a b => Sys2Proof.Machine.execSmul d a b s

end Sys2Proof.Machine
end

