-- ==== Sys2Proof/Machine/Step.lean ====
section
/-! DEFINITION. One step of the machine: the next entry of the total order of 20_memory.md R92, or the engine's completion step (70_reset_and_hazards.md R377). -/

namespace Sys2Proof.Machine

/-- The engine's one step (R377): decode CMD_LAST, then run the command's rule, or complete with ILLEGAL. It is enabled only while BUSY = 1. -/
def engineStep (s : State) : Host.Outcome State Fault Refusal :=
  match decode s.cmdLast with
  | .ok i => exec i s
  | .error why => .next (s.fail (.illegal why))

/-- The completion step where it is enabled; an idle engine has no step and stays as it is (R30, R377). -/
def engineTurn (s : State) : Host.Outcome State Fault Refusal :=
  if s.busy then engineStep s else .next s

/-- One step. The agenda's head is next in the order of R92; with nothing left on it, a busy engine completes (the fairness of R376), and an idle one waits (R349). -/
def step (s : State) : Host.Outcome State Fault Refusal :=
  match s.agenda with
  | [] => engineTurn s
  | .access a :: rest => .next (State.busAccess { s with agenda := rest } a)
  | .completion :: rest => engineTurn { s with agenda := rest }
  | .powerOnReset :: rest => .next (State.powerOn { s with agenda := rest })

/-- An order in which the completion comes next: an empty agenda is one already. -/
def completesNext : List Event → List Event
  | [] => []
  | e :: rest => .completion :: e :: rest

/-- The engine fetches nothing (10_state.md R31): the word is in flight once it is accepted (R39), and its completion is made the next event of the order. Bits at `nbits` and above are 0. -/
def State.withFetchWord (s : State) (nbits w : Nat) : State :=
  { s.accept (BitVec.ofNat 32 (w % 2 ^ nbits)) with agenda := completesNext s.agenda }

end Sys2Proof.Machine
end

