-- ==== Sys2Proof/Machine/HostProgram.lean ====
section
/-! DEFINITION. The host program notation of 30_encoding.md R135: the accesses of each line, and a host that runs the lines against the engine. The host is no part of the engine's state; each of its accesses is a `step` of the machine. -/

namespace Sys2Proof.Machine

/-- `W off, val`: MemWrite(off, 4, val) at BASE + off (00_scope.md R12). -/
def hostWrite (c : Config) (off : Nat) (w : Word32) : Access := ⟨c.base + off, .b32, .write w⟩

/-- `R off`: MemRead(off, 4) at BASE + off (R12). -/
def hostRead (c : Config) (off : Nat) : Access := ⟨c.base + off, .b32, .read⟩

/-- The slot offset of V[i] (10_state.md R41). -/
def slotV (i : Fin 16) : Nat := 0x800 + 0x80 * i.val

/-- The slot offset of a curve register (R40). -/
def slotCurve : CurveReg → Nat
  | .p => 0x400
  | .a => 0x480
  | .b => 0x500
  | .gx => 0x580
  | .gy => 0x600
  | .n => 0x680
  | .h => 0x700

/-- The slot offset of a coordinate of PT[i] (R42). -/
def slotPt (i : Fin 8) : Coord → Nat
  | .x => 0x1000 + 0x180 * i.val
  | .y => 0x1080 + 0x180 * i.val
  | .z => 0x1100 + 0x180 * i.val

/-- The write of word q of a W-bit value to a slot: bits [32q+31 : 32q] at slot + 4q (20_memory.md R83). -/
def hostWriteWord (c : Config) (slot x q : Nat) : Access :=
  hostWrite c (slot + 4 * q) (BitVec.ofNat 32 (x / 2 ^ (32 * q)))

/-- `WV`, `WC` and `WX`: the NW writes that load a W-bit value, least significant word first (R135). -/
def hostWriteBig (c : Config) (slot x : Nat) : List Access := (List.range c.nw).map (hostWriteWord c slot x)

/-- `CMD`: the command word written to 0x010 (R135). -/
def hostCommand (c : Config) (i : Instr) : Access := hostWrite c 0x010 (encode i)

/-- The accesses of a list, one after another, as the agenda takes them. -/
def State.busAccesses (s : State) (as : List Access) : State := as.foldl State.busAccess s

/-- `RV`: the NW reads of a slot, least significant word first (R135). -/
def hostReadBig (c : Config) (slot : Nat) : List Access := (List.range c.nw).map (fun q => hostRead c (slot + 4 * q))

/-- The word the last answer carries: one for a read, none for a write, a bus error or an access that does not reach the engine. -/
def State.answered (s : State) : List Word32 :=
  match s.resp with
  | some (.readData w) => [w]
  | some .writeDone => []
  | some .busError => []
  | none => []

/-- The words the reads among a list of accesses are answered with, in their order. -/
def State.busAnswers (s : State) : List Access → List Word32
  | [] => []
  | a :: as => (s.busAccess a).answered ++ (s.busAccess a).busAnswers as

/-- Words assembled to one value, least significant word first (R135, 20_memory.md R88). -/
def assembleWords : List Word32 → Nat
  | [] => 0
  | w :: ws => w.toNat + 2 ^ 32 * assembleWords ws

/-! The host's lines and its control flow. -/

/-- The values the host has read, by name, the latest first. -/
abbrev HostEnv := List (String × Nat)

/-- The value last read under a name. -/
def HostEnv.get (env : HostEnv) (name : String) : Option Nat := List.lookup name env

/-- One line of a host program (R135). The condition of an `if` is any test on the values the host has read. -/
inductive HostLine where
  /-- `W off, val`. -/
  | w (off : Nat) (val : Word32)
  /-- `R off -> name`. -/
  | r (off : Nat) (name : String)
  /-- `WV vN, val`. -/
  | wv (i : Fin 16) (val : Nat)
  /-- `WC reg, val`. -/
  | wc (reg : CurveReg) (val : Nat)
  /-- `WX ptN.c, val`. -/
  | wx (i : Fin 8) (c : Coord) (val : Nat)
  /-- `RV vN -> name`. -/
  | rv (i : Fin 16) (name : String)
  /-- `CMD <assembly>`. -/
  | cmd (i : Instr)
  /-- `WAIT`. -/
  | wait
  /-- `label:`. -/
  | label (name : String)
  /-- `goto label`. -/
  | goto (target : String)
  /-- `if <cond> goto label`. -/
  | ifGoto (cond : HostEnv → Bool) (target : String)

/-- The accesses a line makes; WAIT's are those of one poll of STATUS. -/
def HostLine.accesses (c : Config) : HostLine → List Access
  | .w off val => [hostWrite c off val]
  | .r off _ => [hostRead c off]
  | .wv i val => hostWriteBig c (slotV i) val
  | .wc reg val => hostWriteBig c (slotCurve reg) val
  | .wx i k val => hostWriteBig c (slotPt i k) val
  | .rv i _ => hostReadBig c (slotV i)
  | .cmd i => [hostCommand c i]
  | .wait => [hostRead c 0x00C]
  | .label _ => []
  | .goto _ => []
  | .ifGoto _ _ => []

/-- A host in the middle of a program: the engine, the line it is on, the accesses of that line still to make, the words read on it so far, and the values read by name. -/
structure HostRun where
  engine : State
  line : Nat
  todo : List Access
  words : List Word32
  env : HostEnv
  deriving DecidableEq, Repr

/-- The number of the line that carries a label; the end of the program where none does. -/
def labelLine (prog : List HostLine) (name : String) : Nat :=
  prog.findIdx fun l => match l with
    | .label n => n == name
    | .w _ _ | .r _ _ | .wv _ _ | .wc _ _ | .wx _ _ _ | .rv _ _ | .cmd _ | .wait | .goto _ | .ifGoto _ _ => false

/-- The host comes to a line. -/
def HostRun.enter (prog : List HostLine) (r : HostRun) (n : Nat) : HostRun :=
  { r with line := n, words := [], todo := (prog[n]?).elim [] (HostLine.accesses r.engine.cfg) }

/-- The words read on the line are kept under a name. A read that no word answered (a bus error, or an access outside the window) adds none, so `R off -> name` then binds 0: DESIGN CHOICE, unsafe, log entry 12; 60_exceptions.md R347 leaves the master's handling outside the spec. -/
def HostRun.bind (r : HostRun) (name : String) : HostRun := { r with env := (name, assembleWords r.words) :: r.env }

/-- The end of a line whose accesses are all made. WAIT polls again while bit 0 of the STATUS it read, `s`, is 1 (R135). After a read that no word answered the host goes on, with the value `HostRun.bind` gives: DESIGN CHOICE, unsafe, log entry 12. -/
def HostRun.endLine (prog : List HostLine) (r : HostRun) : HostLine → HostRun
  | .w _ _ | .wv _ _ | .wc _ _ | .wx _ _ _ | .cmd _ | .label _ => r.enter prog (r.line + 1)
  | .r _ name | .rv _ name => (r.bind name).enter prog (r.line + 1)
  | .wait => (r.bind "s").enter prog (if assembleWords r.words % 2 = 0 then r.line + 1 else r.line)
  | .goto target => r.enter prog (labelLine prog target)
  | .ifGoto cond target => r.enter prog (if cond r.env then labelLine prog target else r.line + 1)

/-- A host about to run a program. -/
def HostRun.start (prog : List HostLine) (s : State) : HostRun := HostRun.enter prog ⟨s, 0, [], [], []⟩ 0

/-- The machine steps on one event, put before those still to come. -/
def State.take (s : State) (e : Event) : Host.Outcome State Fault Refusal := step { s with agenda := e :: s.agenda }

/-- Who acts next: the host, or the engine, whose completion place this is (20_memory.md R92, 70_reset_and_hazards.md R376). -/
inductive HostMove where
  | host
  | engine
  deriving DecidableEq, Repr

/-- One move: an access of the host's line, the end of that line, or the engine's completion place. After its last line the host does nothing. -/
def HostRun.move (prog : List HostLine) (r : HostRun) : HostMove → Host.Outcome HostRun Fault Refusal
  | .engine =>
    match r.engine.take .completion with
    | .next t => .next { r with engine := t }
    | .fault f => .fault f
    | .refused x => .refused x
  | .host =>
    match r.todo with
    | a :: rest =>
      match r.engine.take (.access a) with
      | .next t => .next { r with engine := t, todo := rest, words := r.words ++ t.answered }
      | .fault f => .fault f
      | .refused x => .refused x
    | [] =>
      match prog[r.line]? with
      | none => .next r
      | some l => .next (r.endLine prog l)

/-- A host program run in one order of moves. -/
def HostRun.run (prog : List HostLine) (r : HostRun) : List HostMove → Host.Outcome HostRun Fault Refusal
  | [] => .next r
  | m :: ms =>
    match r.move prog m with
    | .next t => t.run prog ms
    | .fault f => .fault f
    | .refused x => .refused x

end Sys2Proof.Machine
end

