-- ==== Sys2Proof/Safety.lean ====
section
/-! DEFINITION. What the statements speak of: the invariant of the machine, what a completion leaves alone, and how a command ends. -/

namespace Sys2Proof.Machine

/-- Every W-bit register holds an unsigned integer below 2^W (00_scope.md R10). -/
structure State.WidthOk (s : State) : Prop where
  v : ∀ i, s.getV i < 2 ^ s.cfg.width
  pt : ∀ i c, (s.getPt i).get c < 2 ^ s.cfg.width
  curve : ∀ r, s.curve.get r < 2 ^ s.cfg.width

/-- OB is in canonical form and holds no byte at OBSIZE or above (10_state.md R43, 20_memory.md R84). -/
structure State.ObOk (s : State) : Prop where
  form : Memory.wf s.ob
  size : ∀ c ∈ s.ob, c.1 < s.cfg.obSize

/-- The ERR and ERRINFO pairs of 60_exceptions.md R342, written out row by row: no other pair is ever produced. -/
def resultPairs : List (BitVec 4 × Byte) :=
  [(0, 0x00)] ++
  [(1, 0x01), (1, 0x02), (1, 0x03)] ++
  [(2, 0x10), (2, 0x11)] ++
  [(3, 0x20), (3, 0x21)] ++
  [(4, 0x30), (4, 0x31), (4, 0x32), (4, 0x33), (4, 0x34), (4, 0x35), (4, 0x36), (4, 0x37), (4, 0x38), (4, 0x39),
   (4, 0x3A), (4, 0x3D)] ++
  [(4, 0x40), (4, 0x41), (4, 0x42), (4, 0x43), (4, 0x44), (4, 0x45)] ++
  [(5, 0x50), (5, 0x51)]

/-- STATUS is legal: ERR and ERRINFO are a row of R342, and a busy engine has DONE, ERR and ERRINFO at 0 (10_state.md R36, R39). -/
structure State.StatusOk (s : State) : Prop where
  result : (s.err, s.errInfo) ∈ resultPairs
  inFlight : s.busy = true → s.done = false ∧ s.err = 0 ∧ s.errInfo = 0

/-- CURVE_OK = 1 only over a curve block, WEAK included, that CCHK accepts (R36, R48). -/
def State.CurveOkSound (s : State) : Prop := s.curveOk = true → checkCurve s.curve s.weak = .ok ()

/-- The invariant of the machine. -/
structure State.Inv (s : State) : Prop where
  legal : Config.Legal s.cfg
  width : s.WidthOk
  ob : s.ObOk
  status : s.StatusOk
  curveOk : s.CurveOkSound

/-- What no command writes: the parameters, CTRL, BUSYWR, CMD_LAST, WEAK, the curve block, the accesses to come and the last answer (R32's last column). -/
structure SameContext (s t : State) : Prop where
  cfg : t.cfg = s.cfg
  ie : t.ie = s.ie
  busywr : t.busywr = s.busywr
  cmdLast : t.cmdLast = s.cmdLast
  weak : t.weak = s.weak
  curve : t.curve = s.curve
  agenda : t.agenda = s.agenda
  resp : t.resp = s.resp

/-- Every V register but those of a list is unchanged. -/
def SameVBut (ds : List (Fin 16)) (s t : State) : Prop := ∀ i, i ∉ ds → t.getV i = s.getV i

/-- Every point register but those of a list is unchanged, form and coordinates. -/
def SamePtBut (ds : List (Fin 8)) (s t : State) : Prop := ∀ i, i ∉ ds → t.getPt i = s.getPt i

/-- Every byte of OB, and OBLEN, is unchanged. -/
def SameOb (s t : State) : Prop := t.oblen = s.oblen ∧ ∀ j, t.obByte j = s.obByte j

/-- STATUS after a completion (60_exceptions.md R349); CURVE_OK and BUSYWR are said elsewhere. -/
structure CompletedWith (t : State) (err : BitVec 4) (info : Byte) : Prop where
  busy : t.busy = false
  done : t.done = true
  err : t.err = err
  info : t.errInfo = info

/-- An outcome that is an error completion of s: only STATUS is written, and CURVE_OK is not (R345). -/
def OnlyFails (o : Host.Outcome State Fault Refusal) (s : State) (err : BitVec 4) (info : Byte) : Prop :=
  ∃ t, o = .next t ∧ CompletedWith t err info ∧ SameContext s t ∧ t.curveOk = s.curveOk ∧
    SameVBut [] s t ∧ SamePtBut [] s t ∧ SameOb s t

/-- The command completes with an error and writes only STATUS (R345). -/
abbrev FailsWith (i : Instr) (s : State) (err : BitVec 4) (info : Byte) : Prop := OnlyFails (exec i s) s err info

/-- The command completes without error, V[d] is x, and nothing but V[d] and STATUS is written. -/
def WritesV (i : Instr) (s : State) (d : Fin 16) (x : Nat) : Prop :=
  ∃ t, exec i s = .next t ∧ CompletedWith t 0 0 ∧ t.getV d = x ∧ SameContext s t ∧ t.curveOk = s.curveOk ∧
    SameVBut [d] s t ∧ SamePtBut [] s t ∧ SameOb s t

/-- The command completes without error, PT[d] is q in form and coordinates, and nothing but PT[d] and STATUS is written. -/
def WritesPt (i : Instr) (s : State) (d : Fin 8) (q : PtReg) : Prop :=
  ∃ t, exec i s = .next t ∧ CompletedWith t 0 0 ∧ t.getPt d = q ∧ SameContext s t ∧ t.curveOk = s.curveOk ∧
    SameVBut [] s t ∧ SamePtBut [d] s t ∧ SameOb s t

/-- The command completes without error, OB holds the string and zeros up to OBSIZE, OBLEN its length, and nothing else but STATUS is written. -/
def WritesOb (i : Instr) (s : State) (str : List Byte) : Prop :=
  ∃ t, exec i s = .next t ∧ CompletedWith t 0 0 ∧ t.oblen.toNat = str.length ∧
    (∀ j, t.obByte j = str.getD j 0) ∧ SameContext s t ∧ t.curveOk = s.curveOk ∧ SameVBut [] s t ∧ SamePtBut [] s t

/-- (x, y) lies on the curve, below p (41_curve_group.md §1): y² ≡ x³ + a·x + b. -/
def OnCurve (c : CurveBlock) (x y : Nat) : Prop :=
  x < c.p ∧ y < c.p ∧ y ^ 2 % c.p = (x ^ 3 + c.a * x + c.b) % c.p

/-- The affine value of a valid affine operand: INF, or a pair on the curve (R200). -/
def AffOperand (s : State) (i : Fin 8) (q : AffPoint) : Prop :=
  ((s.getPt i).f = .inf ∧ q = .inf) ∨
  ((s.getPt i).f = .aff ∧ q = .pt (s.getPt i).x (s.getPt i).y ∧ OnCurve s.curve (s.getPt i).x (s.getPt i).y)

/-- The affine form of R200: INF or AFF. -/
def AffForm (s : State) (i : Fin 8) : Prop := (s.getPt i).f = .inf ∨ (s.getPt i).f = .aff

/-- An AFF operand that is not on the curve, or has a coordinate at p or above (R200). -/
def OffCurve (s : State) (i : Fin 8) : Prop :=
  (s.getPt i).f = .aff ∧ ¬ OnCurve s.curve (s.getPt i).x (s.getPt i).y

/-- A valid Jacobian triple (R201): coordinates below p, and for Z nonzero the curve equation times Z⁶. -/
def OnCurveJac (c : CurveBlock) (t : JacPoint) : Prop :=
  t.x < c.p ∧ t.y < c.p ∧ t.z < c.p ∧
    (t.z ≠ 0 → t.y ^ 2 % c.p = (t.x ^ 3 + c.a * t.x * t.z ^ 4 + c.b * t.z ^ 6) % c.p)

/-- The triple of a valid Jacobian operand (R201). -/
def JacOperand (s : State) (i : Fin 8) (t : JacPoint) : Prop :=
  (s.getPt i).f = .jac ∧ t = ⟨(s.getPt i).x, (s.getPt i).y, (s.getPt i).z⟩ ∧ OnCurveJac s.curve t

/-- A JAC operand that is not a valid triple (R201). -/
def OffCurveJac (s : State) (i : Fin 8) : Prop :=
  (s.getPt i).f = .jac ∧ ¬ OnCurveJac s.curve ⟨(s.getPt i).x, (s.getPt i).y, (s.getPt i).z⟩

/-- The engine's curve y² = x³ + a·x + b over the field of p elements, as Mathlib's Weierstrass curve (41_curve_group.md §1). -/
def CurveBlock.overField (c : CurveBlock) : WeierstrassCurve.Affine (ZMod c.p) :=
  ⟨0, 0, 0, (c.a : ZMod c.p), (c.b : ZMod c.p)⟩

/-- An affine point value stands for a point of the curve's group: INF for the identity, (x, y) below p for the point of those coordinates. -/
def AffPoint.Denotes (c : CurveBlock) (q : AffPoint) (g : c.overField.Point) : Prop :=
  match q with
  | .inf => g = .zero
  | .pt x y => x < c.p ∧ y < c.p ∧ ∃ h, g = .some (x : ZMod c.p) (y : ZMod c.p) h

/-- A Jacobian triple stands for a point of the curve's group: the identity when Z = 0, else the point (X/Z², Y/Z³) (00_scope.md R17). -/
def JacPoint.Denotes (c : CurveBlock) [Fact c.p.Prime] (t : JacPoint) (g : c.overField.Point) : Prop :=
  t.x < c.p ∧ t.y < c.p ∧ t.z < c.p ∧
    (if t.z = 0 then g = .zero
     else ∃ h, g = .some ((t.x : ZMod c.p) / (t.z : ZMod c.p) ^ 2) ((t.y : ZMod c.p) / (t.z : ZMod c.p) ^ 3) h)

/-- An affine point value on the curve. -/
def AffPoint.On (c : CurveBlock) : AffPoint → Prop
  | .inf => True
  | .pt x y => OnCurve c x y

/-- The rows of spec/opcode_table.json: mnemonic, mask, match (30_encoding.md R127). -/
def opcodeTable : List (String × Word32 × Word32) :=
  [("MADD", 0xFC0037FF, 0x04000000), ("MSUB", 0xFC0037FF, 0x08000000), ("MMUL", 0xFC0037FF, 0x0C000000), ("MINV", 0xFC03F7FF, 0x10000000)] ++
  [("MEXP", 0xFC0037FF, 0x14000000), ("MSQRT", 0xFC03F7FF, 0x18000000), ("MRED", 0xFC03F7FF, 0x1C000000), ("CCHK", 0xFFFFFFFF, 0x40000000)] ++
  [("ONCRV", 0xFC23FFFF, 0x44000000), ("PADD", 0xFE223FFF, 0x48000000), ("PNEG", 0xFE23FFFF, 0x4C000000), ("JADD", 0xFE223FFF, 0x50000000)] ++
  [("JDBL", 0xFE23FFFF, 0x54000000), ("J2A", 0xFE23FFFF, 0x58000000), ("A2J", 0xFE23FFFF, 0x5C000000), ("J2X", 0xFC23FFFF, 0x60000000)] ++
  [("YODD", 0xFC03CFFF, 0x64000000), ("YLOW", 0xFC03CFFF, 0x68000000), ("YQR", 0xFC03CFFF, 0x6C000000), ("HSQY", 0xFC23FFFF, 0x70000000)] ++
  [("DEC", 0xFE3FFFFF, 0x80000000), ("ENC", 0xFFE3CFFF, 0x84000000), ("SMUL", 0xFE203FFF, 0xA0000000)]

/-- The mnemonic of a command, without the modulus suffix (R126). -/
def mnemonicOf : Instr → String
  | .madd _ _ _ _ => "MADD"
  | .msub _ _ _ _ => "MSUB"
  | .mmul _ _ _ _ => "MMUL"
  | .minv _ _ _ => "MINV"
  | .mexp _ _ _ _ => "MEXP"
  | .msqrt _ _ _ => "MSQRT"
  | .mred _ _ _ => "MRED"
  | .cchk => "CCHK"
  | .oncrv _ _ => "ONCRV"
  | .padd _ _ _ => "PADD"
  | .pneg _ _ => "PNEG"
  | .jadd _ _ _ => "JADD"
  | .jdbl _ _ => "JDBL"
  | .j2a _ _ => "J2A"
  | .a2j _ _ => "A2J"
  | .j2x _ _ => "J2X"
  | .yodd _ _ _ => "YODD"
  | .ylow _ _ _ => "YLOW"
  | .yqr _ _ _ => "YQR"
  | .hsqy _ _ => "HSQY"
  | .dec _ => "DEC"
  | .enc _ _ => "ENC"
  | .smul _ _ _ => "SMUL"

/-- The V register a command writes, if it has a V destination (R126). -/
def vDest : Instr → List (Fin 16)
  | .madd _ d _ _ | .msub _ d _ _ | .mmul _ d _ _ | .mexp _ d _ _ => [d]
  | .minv _ d _ | .msqrt _ d _ | .mred _ d _ => [d]
  | .oncrv d _ | .j2x d _ | .hsqy d _ => [d]
  | .yodd d _ _ | .ylow d _ _ | .yqr d _ _ => [d]
  | .cchk | .padd _ _ _ | .pneg _ _ | .jadd _ _ _ | .jdbl _ _ | .j2a _ _ | .a2j _ _ | .dec _ | .enc _ _ | .smul _ _ _ => []

/-- The point register a command writes, if it has a PT destination (R126). -/
def ptDest : Instr → List (Fin 8)
  | .padd d _ _ | .jadd d _ _ | .smul d _ _ => [ptIx d]
  | .pneg d _ | .jdbl d _ | .j2a d _ | .a2j d _ => [ptIx d]
  | .dec d => [ptIx d]
  | .madd _ _ _ _ | .msub _ _ _ _ | .mmul _ _ _ _ | .mexp _ _ _ _ | .minv _ _ _ | .msqrt _ _ _ | .mred _ _ _ => []
  | .cchk | .oncrv _ _ | .j2x _ _ | .hsqy _ _ | .yodd _ _ _ | .ylow _ _ _ | .yqr _ _ _ | .enc _ _ => []

/-- The errors a command that decodes can raise: the "raised by" column of 60_exceptions.md R342, read by command. -/
def raisedBy : Instr → List (BitVec 4 × Byte)
  | .madd _ _ _ _ | .msub _ _ _ _ | .mmul _ _ _ _ | .mexp _ _ _ _ | .mred _ _ _ => [(2, 0x11)]
  | .minv _ _ _ => [(2, 0x11), (5, 0x50)]
  | .msqrt _ _ _ => [(2, 0x11), (5, 0x51)]
  | .cchk => [(4, 0x40), (4, 0x41), (4, 0x42), (4, 0x43), (4, 0x44), (4, 0x45)]
  | .oncrv _ _ => [(2, 0x10), (4, 0x31)]
  | .padd _ _ _ => [(2, 0x10), (3, 0x20), (3, 0x21), (4, 0x31), (4, 0x32), (5, 0x50)]
  | .pneg _ _ | .jdbl _ _ | .a2j _ _ | .hsqy _ _ => [(2, 0x10), (3, 0x20), (4, 0x31)]
  | .jadd _ _ _ => [(2, 0x10), (3, 0x20), (3, 0x21), (4, 0x31), (4, 0x32)]
  | .j2a _ _ | .smul _ _ _ => [(2, 0x10), (3, 0x20), (4, 0x31), (5, 0x50)]
  | .j2x _ _ => [(2, 0x10), (3, 0x20), (4, 0x31), (4, 0x36), (5, 0x50)]
  | .yodd _ _ _ => [(2, 0x10), (4, 0x30), (4, 0x33), (4, 0x34), (4, 0x3D)]
  | .ylow _ _ _ => [(2, 0x10), (4, 0x30), (4, 0x33), (4, 0x34)]
  | .yqr _ _ _ => [(2, 0x10), (4, 0x30), (4, 0x35), (4, 0x33), (4, 0x34), (4, 0x3D)]
  | .dec _ => [(2, 0x10), (4, 0x37), (4, 0x38), (4, 0x33), (4, 0x34), (4, 0x3D), (4, 0x39)]
  | .enc _ _ => [(2, 0x10), (3, 0x20), (4, 0x30), (4, 0x3A), (4, 0x31)]

/-- The commands whose prologue checks CURVE_OK: every curve-family command but CCHK (41_curve_group.md R205). -/
def needsCurve : Instr → Bool
  | .madd _ _ _ _ | .msub _ _ _ _ | .mmul _ _ _ _ | .mexp _ _ _ _ | .minv _ _ _ | .msqrt _ _ _ | .mred _ _ _ | .cchk => false
  | .oncrv _ _ | .padd _ _ _ | .pneg _ _ | .jadd _ _ _ | .jdbl _ _ | .j2a _ _ | .a2j _ _ | .j2x _ _ => true
  | .yodd _ _ _ | .ylow _ _ _ | .yqr _ _ _ | .hsqy _ _ | .dec _ | .enc _ _ | .smul _ _ _ => true

/-- The right side of the curve equation at x, reduced: `(x*x*x + a*x + b) mod p` (42_curve_y.md R260). -/
def rightSide (c : CurveBlock) (x : Nat) : Nat := (x ^ 3 + c.a * x + c.b) % c.p

/-- Non-singularity modulo p: 4a³ + 27b² is not 0 (41_curve_group.md R202). -/
def NonSingular (c : CurveBlock) : Prop := (4 * c.a ^ 3 + 27 * c.b ^ 2) % c.p ≠ 0

/-- A read of the word at an offset is answered with w and changes nothing (20_memory.md R89). -/
def ReadsAs (s : State) (off : Nat) (w : Word32) : Prop :=
  s.busAccess (hostRead s.cfg off) = { s with resp := some (.readData w) }

/-- A write at an offset is accepted and changes nothing. -/
def WriteIgnored (s : State) (off : Nat) (w : Word32) : Prop :=
  s.busAccess (hostWrite s.cfg off w) = { s with resp := some .writeDone }

/-- The W-bit registers by slot of the address map (R82). -/
inductive Slot where
  | curve (r : CurveReg)
  | v (i : Fin 16)
  | pt (i : Fin 8) (c : Coord)
  deriving DecidableEq, Repr

/-- The offset of a slot (10_state.md R40, R41, R42). -/
def Slot.offset : Slot → Nat
  | .curve r => slotCurve r
  | .v i => slotV i
  | .pt i c => slotPt i c

/-- The register a slot holds. -/
def State.slot (s : State) : Slot → Nat
  | .curve r => s.curve.get r
  | .v i => s.getV i
  | .pt i c => (s.getPt i).get c

/-- The words of a W-bit register are numbered by R83; this is word q of a value. -/
def wordOf (x q : Nat) : Word32 := BitVec.ofNat 32 (x / 2 ^ (32 * q))

/-- An access that performs the soft reset (70_reset_and_hazards.md R371). -/
def SoftReset (c : Config) (a : Access) : Prop :=
  Config.routes c a.addr = true ∧ a.size = .b32 ∧ windowOffset a.addr = 0x008 ∧ ∃ w : Word32, a.op = .write w ∧ w.getLsbD 0 = true

/-- Everything a command can read or write but STATUS.BUSY, DONE, ERR and ERRINFO is the same in two states. -/
structure SameOperands (s t : State) : Prop where
  cfg : t.cfg = s.cfg
  cmdLast : t.cmdLast = s.cmdLast
  weak : t.weak = s.weak
  curve : t.curve = s.curve
  curveOk : t.curveOk = s.curveOk
  v : t.v = s.v
  pt : t.pt = s.pt
  ob : t.ob = s.ob
  oblen : t.oblen = s.oblen

end Sys2Proof.Machine
end

