-- ==== Sys2Proof/Certificates/Slice0/Obligations.lean ====
section
/-! DEFINITION. The statements for the provers, one definition each; OBLIGATIONS.json lists them. -/

open Sys2Proof Sys2Proof.Machine

/-! The command word. -/

/-- The nine encoding examples of 30_encoding.md §3, which the spec marks as derived from R121 and R126: each word decodes to its command, is that command's encoding, and is spelled as the example spells it. -/
def Obligations.DecodeExamples : Prop :=
  ∀ row ∈ ([
    (0x0CC48000, .mmul .p 3 1 2, "MMUL.P v3, v1, v2"),
    (0x11100800, .minv .n 4 4, "MINV.N v4, v4"),
    (0x18800000, .msqrt .p 2 0, "MSQRT.P v2, v0"),
    (0x40000000, .cchk, "CCHK"),
    (0x48804000, .padd 2 0 1, "PADD pt2, pt0, pt1"),
    (0x64401000, .yodd 1 0 1, "YODD v1, v0, 1"),
    (0x81C00000, .dec 7, "DEC pt7"),
    (0x840C1000, .enc 3 1, "ENC pt3, 1"),
    (0xA0414000, .smul 1 0 5, "SMUL pt1, pt0, v5")] : List (Word32 × Instr × String)),
    decode row.1 = .ok row.2.1 ∧ encode row.2.1 = row.1 ∧ row.2.1.assembly = row.2.2

/-- R121, R126, R131: decoding the word of a well-formed command gives the command back, every operand at every value. -/
def Obligations.DecodeOfEncode : Prop :=
  ∀ i : Instr, i.wellFormed = true → decode (encode i) = .ok i

/-- R128, R131: a word that decodes is the encoding of the command it decodes to, and that command is well formed. -/
def Obligations.EncodeOfDecode : Prop :=
  ∀ (w : Word32) (i : Instr), decode w = .ok i → i.wellFormed = true ∧ encode i = w

/-- R127: a word selects an opcode exactly when it matches that row of the opcode table under its mask, and a word that decodes matches a row. -/
def Obligations.MatchAndMask : Prop :=
  (∀ row ∈ opcodeTable, ∀ w : Word32,
    w &&& row.2.1 = row.2.2 ↔ ∃ i, decode w = .ok i ∧ mnemonicOf i = row.1) ∧
  ∀ (w : Word32) (i : Instr), decode w = .ok i → ∃ row ∈ opcodeTable, mnemonicOf i = row.1

/-- R128: the checks on a word, in their order: the opcode, then RSV, unused fields, SEL and M, then the PT fields. -/
def Obligations.IllegalWords : Prop :=
  ∀ w : Word32,
    ((unpack w).opc ∉ ([0x01, 0x02, 0x03, 0x04, 0x05, 0x06, 0x07] ++
        [0x10, 0x11, 0x12, 0x13, 0x14, 0x15, 0x16, 0x17, 0x18, 0x19, 0x1A, 0x1B, 0x1C] ++ [0x20, 0x21, 0x28] :
        List (BitVec 6)) → decode w = .error .opcode) ∧
    ∀ o : Opcode, (unpack w).opc = o.row.opc →
      let f := unpack w
      let reserved : Prop := f.rsv ≠ 0 ∨ (o.row.d = .unused ∧ f.d ≠ 0) ∨ (o.row.a = .unused ∧ f.a ≠ 0) ∨
        (o.row.b = .unused ∧ f.b ≠ 0) ∨ (o.row.usesSel = false ∧ f.sel ≠ 0) ∨ (o.row.usesM = false ∧ f.m ≠ 0)
      let ptHigh : Prop := (o.row.d = .pt ∧ 8 ≤ f.d.toNat) ∨ (o.row.a = .pt ∧ 8 ≤ f.a.toNat) ∨
        (o.row.b = .pt ∧ 8 ≤ f.b.toNat)
      (reserved → decode w = .error .reserved) ∧
      (¬ reserved → ptHigh → decode w = .error .ptField) ∧
      (¬ reserved → ¬ ptHigh → decode w = .ok (buildInstr o f))

/-! The step. -/

/-- R377 (the order of events is the model's agenda, log entry 3): a busy engine whose completion is next runs exactly the decoded command of CMD_LAST; the word placed by withFetchWord (log entry 7) is that command; an idle engine has no step of its own; a host access that is next is one bus access, and a power-on reset that is next is the power-on reset, idle or busy. -/
def Obligations.StepRunsDecodedCommand : Prop :=
  (∀ (s : State) (rest : List Event) (i : Instr), s.busy = true → decode s.cmdLast = .ok i →
    (s.agenda = .completion :: rest → step s = exec i { s with agenda := rest }) ∧
    (s.agenda = [] → step s = exec i s)) ∧
  (∀ (s : State) (w : Word32) (i : Instr), decode w = .ok i →
    step (s.withFetchWord 32 w.toNat) = exec i (s.accept w)) ∧
  (∀ (s : State) (rest : List Event), s.busy = false →
    (s.agenda = .completion :: rest → step s = .next { s with agenda := rest }) ∧
    (s.agenda = [] → step s = .next s)) ∧
  (∀ (s : State) (rest : List Event) (a : Access), s.agenda = .access a :: rest →
    step s = .next (State.busAccess { s with agenda := rest } a)) ∧
  (∀ (s : State) (rest : List Event), s.agenda = .powerOnReset :: rest →
    step s = .next (State.powerOn { s with agenda := rest }))

/-- R128, R129: a word that encodes no command completes with ILLEGAL and its detail, and writes nothing but STATUS. That CURVE_OK stays even when OPC is CCHK's is log entry 6. -/
def Obligations.IllegalWordCompletes : Prop :=
  ∀ (s : State) (why : Illegal), decode s.cmdLast = .error why →
    OnlyFails (engineStep s) s 1 (match why with | .opcode => 0x01 | .reserved => 0x02 | .ptField => 0x03)

/-- R340, R342: every command ends in one completion, with success or with an error the "raised by" column of R342 gives that command. -/
def Obligations.EveryCommandCompletes : Prop :=
  ∀ (i : Instr) (s : State), ∃ t, exec i s = .next t ∧ t.busy = false ∧ t.done = true ∧
    (t.err, t.errInfo) ∈ (0, 0x00) :: raisedBy i

/-- R345: an error writes only STATUS, and CCHK's clears CURVE_OK; a success writes its destination and STATUS. -/
def Obligations.ErrorAtomicity : Prop :=
  ∀ (i : Instr) (s t : State), exec i s = .next t →
    t.busy = false ∧ t.done = true ∧ SameContext s t ∧
    (t.err ≠ 0 → SameVBut [] s t ∧ SamePtBut [] s t ∧ SameOb s t ∧
      t.curveOk = (if i = .cchk then false else s.curveOk)) ∧
    (t.err = 0 → t.errInfo = 0 ∧ SameVBut (vDest i) s t ∧ SamePtBut (ptDest i) s t ∧
      (mnemonicOf i ≠ "ENC" → SameOb s t) ∧ t.curveOk = (if i = .cchk then true else s.curveOk))

/-- R205 step 2: without a checked curve every curve-family command but CCHK raises CONFIG(0x10), whatever its operands hold. -/
def Obligations.CurveCommandsNeedCurveOk : Prop :=
  ∀ (i : Instr) (s : State), needsCurve i = true → s.curveOk = false → FailsWith i s 2 0x10

/-! Modular arithmetic. -/

/-- R180: MADD writes (V[A] + V[B]) mod m, or raises CONFIG(0x11). -/
def Obligations.MaddResult : Prop :=
  ∀ (m : ModSel) (d a b : VField) (s : State),
    (s.modulus m % 2 = 1 → 3 ≤ s.modulus m →
      WritesV (.madd m d a b) s d ((s.getV a + s.getV b) % s.modulus m)) ∧
    (s.modulus m % 2 = 0 ∨ s.modulus m < 3 → FailsWith (.madd m d a b) s 2 0x11)

/-- R181: MSUB writes the floored (V[A] - V[B]) mod m, or raises CONFIG(0x11). -/
def Obligations.MsubResult : Prop :=
  ∀ (m : ModSel) (d a b : VField) (s : State),
    (s.modulus m % 2 = 1 → 3 ≤ s.modulus m →
      ∃ x : Nat, (x : Int) = ((s.getV a : Int) - s.getV b) % s.modulus m ∧ WritesV (.msub m d a b) s d x) ∧
    (s.modulus m % 2 = 0 ∨ s.modulus m < 3 → FailsWith (.msub m d a b) s 2 0x11)

/-- R182: MMUL writes (V[A] * V[B]) mod m, or raises CONFIG(0x11). -/
def Obligations.MmulResult : Prop :=
  ∀ (m : ModSel) (d a b : VField) (s : State),
    (s.modulus m % 2 = 1 → 3 ≤ s.modulus m →
      WritesV (.mmul m d a b) s d (s.getV a * s.getV b % s.modulus m)) ∧
    (s.modulus m % 2 = 0 ∨ s.modulus m < 3 → FailsWith (.mmul m d a b) s 2 0x11)

/-- R183: MINV writes the unique inverse in [1, m) where there is one, the Fermat power for a prime m, and raises DOMAIN(0x50) where there is none, which includes V[A] mod m = 0. -/
def Obligations.MinvResult : Prop :=
  ∀ (m : ModSel) (d a : VField) (s : State),
    (s.modulus m % 2 = 1 → 3 ≤ s.modulus m → Nat.gcd (s.getV a % s.modulus m) (s.modulus m) = 1 →
      ∃ x, 1 ≤ x ∧ x < s.modulus m ∧ s.getV a % s.modulus m * x % s.modulus m = 1 ∧
        (∀ y, 1 ≤ y → y < s.modulus m → s.getV a % s.modulus m * y % s.modulus m = 1 → y = x) ∧
        ((s.modulus m).Prime → x = (s.getV a % s.modulus m) ^ (s.modulus m - 2) % s.modulus m) ∧
        WritesV (.minv m d a) s d x) ∧
    (s.modulus m % 2 = 1 → 3 ≤ s.modulus m → Nat.gcd (s.getV a % s.modulus m) (s.modulus m) ≠ 1 →
      FailsWith (.minv m d a) s 5 0x50) ∧
    (s.modulus m % 2 = 1 → 3 ≤ s.modulus m → s.getV a % s.modulus m = 0 → FailsWith (.minv m d a) s 5 0x50) ∧
    (s.modulus m % 2 = 0 ∨ s.modulus m < 3 → FailsWith (.minv m d a) s 2 0x11)

/-- R184: MEXP writes V[A]^V[B] mod m with the exponent not reduced, or raises CONFIG(0x11). -/
def Obligations.MexpResult : Prop :=
  ∀ (m : ModSel) (d a b : VField) (s : State),
    (s.modulus m % 2 = 1 → 3 ≤ s.modulus m →
      WritesV (.mexp m d a b) s d (s.getV a ^ s.getV b % s.modulus m)) ∧
    (s.modulus m % 2 = 0 ∨ s.modulus m < 3 → FailsWith (.mexp m d a b) s 2 0x11)

/-- R185: MSQRT writes the root sqrt_mod returns, raises DOMAIN(0x51) where it raises, or CONFIG(0x11). -/
def Obligations.MsqrtResult : Prop :=
  ∀ (m : ModSel) (d a : VField) (s : State),
    (s.modulus m % 2 = 1 → 3 ≤ s.modulus m → ∀ r, sqrtMod (s.getV a) (s.modulus m) = .ok r →
      WritesV (.msqrt m d a) s d r ∧ r < s.modulus m ∧ r * r % s.modulus m = s.getV a % s.modulus m) ∧
    (s.modulus m % 2 = 1 → 3 ≤ s.modulus m → ∀ e, sqrtMod (s.getV a) (s.modulus m) = .error e →
      FailsWith (.msqrt m d a) s 5 0x51) ∧
    (s.modulus m % 2 = 0 ∨ s.modulus m < 3 → FailsWith (.msqrt m d a) s 2 0x11)

/-- R186: MRED writes V[A] mod m, or raises CONFIG(0x11). -/
def Obligations.MredResult : Prop :=
  ∀ (m : ModSel) (d a : VField) (s : State),
    (s.modulus m % 2 = 1 → 3 ≤ s.modulus m → WritesV (.mred m d a) s d (s.getV a % s.modulus m)) ∧
    (s.modulus m % 2 = 0 ∨ s.modulus m < 3 → FailsWith (.mred m d a) s 2 0x11)

/-- What sqrt_mod and is_qr (R167, R169) are for, an inference from their pseudocode: over an odd prime, sqrt_mod succeeds exactly on the squares, is_qr holds exactly on the squares, and for a prime that is 3 mod 4 the root is v^((p+1)/4) mod p, itself a residue. -/
def Obligations.SquareRootsModPrime : Prop :=
  ∀ p v : Nat, p.Prime → 3 ≤ p →
    ((∃ r, sqrtMod v p = .ok r) ↔ ∃ z, z < p ∧ z * z % p = v % p) ∧
    (isQr v p = true ↔ ∃ z, z < p ∧ z * z % p = v % p) ∧
    (p % 4 = 3 → ∀ r, sqrtMod v p = .ok r → r = v ^ ((p + 1) / 4) % p ∧ isQr r p = true)

/-! The curve group. -/

/-- R202: CCHK's checks in their order; CURVE_OK is 1 exactly on success, and no register but STATUS is written. -/
def Obligations.CchkResult : Prop :=
  ∀ s : State,
    let c := s.curve
    ∃ t, exec .cchk s = .next t ∧ t.busy = false ∧ t.done = true ∧ SameContext s t ∧ SameVBut [] s t ∧
      SamePtBut [] s t ∧ SameOb s t ∧
      (t.curveOk, t.err, t.errInfo) =
        if c.p % 2 = 0 ∨ c.p < 3 then (false, 4, 0x40)
        else if c.p ≤ c.a ∨ c.p ≤ c.b ∨ c.p ≤ c.gx ∨ c.p ≤ c.gy then (false, 4, 0x41)
        else if s.weak = false ∧ (4 * c.a ^ 3 + 27 * c.b ^ 2) % c.p = 0 then (false, 4, 0x42)
        else if c.gy ^ 2 % c.p ≠ (c.gx ^ 3 + c.a * c.gx + c.b) % c.p then (false, 4, 0x43)
        else if c.n % 2 = 0 ∨ c.n < 3 then (false, 4, 0x44)
        else if (jmul c c.n (.pt c.gx c.gy)).z ≠ 0 then (false, 4, 0x45)
        else (true, 0, 0x00)

/-- R210: ONCRV writes 1 for INF and for a pair on the curve, 0 for another pair, and raises VALUE(0x31) for a form that is not affine. -/
def Obligations.OncrvResult : Prop :=
  ∀ (d : VField) (a : PtField) (s : State),
    (s.curveOk = true → (s.getPt (ptIx a)).f = .inf → WritesV (.oncrv d a) s d 1) ∧
    (s.curveOk = true → (s.getPt (ptIx a)).f = .aff →
      OnCurve s.curve (s.getPt (ptIx a)).x (s.getPt (ptIx a)).y → WritesV (.oncrv d a) s d 1) ∧
    (s.curveOk = true → OffCurve s (ptIx a) → WritesV (.oncrv d a) s d 0) ∧
    (s.curveOk = true → ¬ AffForm s (ptIx a) → FailsWith (.oncrv d a) s 4 0x31) ∧
    (s.curveOk = false → FailsWith (.oncrv d a) s 2 0x10)

/-- R211: PADD's checks in their order, and the sum aff_add gives, written by write_aff; over an odd prime aff_add gives one. -/
def Obligations.PaddResult : Prop :=
  ∀ (d a b : PtField) (s : State),
    (s.curveOk = false → FailsWith (.padd d a b) s 2 0x10) ∧
    (s.curveOk = true → ¬ AffForm s (ptIx a) → FailsWith (.padd d a b) s 3 0x20) ∧
    (s.curveOk = true → AffForm s (ptIx a) → ¬ AffForm s (ptIx b) → FailsWith (.padd d a b) s 3 0x21) ∧
    (s.curveOk = true → OffCurve s (ptIx a) → AffForm s (ptIx b) → FailsWith (.padd d a b) s 4 0x31) ∧
    (∀ q1, s.curveOk = true → AffOperand s (ptIx a) q1 → OffCurve s (ptIx b) → FailsWith (.padd d a b) s 4 0x32) ∧
    (∀ q1 q2, s.curveOk = true → AffOperand s (ptIx a) q1 → AffOperand s (ptIx b) q2 →
      (∀ q, affAdd s.curve q1 q2 = .ok q → WritesPt (.padd d a b) s (ptIx d) (affReg q)) ∧
      (∀ e, affAdd s.curve q1 q2 = .error e → FailsWith (.padd d a b) s 5 0x50) ∧
      (s.curve.p.Prime → 3 ≤ s.curve.p → ∃ q, affAdd s.curve q1 q2 = .ok q))

/-- R212: PNEG writes INF for INF and (x, (p - y) mod p) for a point, so y = 0 stays 0. -/
def Obligations.PnegResult : Prop :=
  ∀ (d a : PtField) (s : State),
    (s.curveOk = false → FailsWith (.pneg d a) s 2 0x10) ∧
    (s.curveOk = true → ¬ AffForm s (ptIx a) → FailsWith (.pneg d a) s 3 0x20) ∧
    (s.curveOk = true → OffCurve s (ptIx a) → FailsWith (.pneg d a) s 4 0x31) ∧
    (s.curveOk = true → AffOperand s (ptIx a) .inf → WritesPt (.pneg d a) s (ptIx d) ⟨.inf, 0, 0, 0⟩) ∧
    (∀ x y, s.curveOk = true → AffOperand s (ptIx a) (.pt x y) →
      WritesPt (.pneg d a) s (ptIx d) ⟨.aff, x, (s.curve.p - y) % s.curve.p, 1⟩)

/-- R213 with the pinned formulas of R209: JADD's checks in their order, and the triple: the other operand for an infinity, JDBL's for equal classes, (1, 1, 0) for opposite ones, else each coordinate the residue of its exact expression, and (1, 1, 0) where Z3 is 0. -/
def Obligations.JaddResult : Prop :=
  ∀ (d a b : PtField) (s : State),
    (s.curveOk = false → FailsWith (.jadd d a b) s 2 0x10) ∧
    (s.curveOk = true → (s.getPt (ptIx a)).f ≠ .jac → FailsWith (.jadd d a b) s 3 0x20) ∧
    (s.curveOk = true → (s.getPt (ptIx a)).f = .jac → (s.getPt (ptIx b)).f ≠ .jac → FailsWith (.jadd d a b) s 3 0x21) ∧
    (s.curveOk = true → OffCurveJac s (ptIx a) → (s.getPt (ptIx b)).f = .jac → FailsWith (.jadd d a b) s 4 0x31) ∧
    (∀ t1, s.curveOk = true → JacOperand s (ptIx a) t1 → OffCurveJac s (ptIx b) → FailsWith (.jadd d a b) s 4 0x32) ∧
    (∀ t1 t2, s.curveOk = true → JacOperand s (ptIx a) t1 → JacOperand s (ptIx b) t2 →
      let u1 : Int := t1.x * t2.z ^ 2
      let u2 : Int := t2.x * t1.z ^ 2
      let s1 : Int := t1.y * t2.z ^ 3
      let s2 : Int := t2.y * t1.z ^ 3
      let hh := u2 - u1
      let r := s2 - s1
      WritesPt (.jadd d a b) s (ptIx d) (jacReg (jadd s.curve t1 t2)) ∧
      (t1.z = 0 → t2.z = 0 → WritesPt (.jadd d a b) s (ptIx d) ⟨.jac, 1, 1, 0⟩) ∧
      (t1.z = 0 → t2.z ≠ 0 → WritesPt (.jadd d a b) s (ptIx d) ⟨.jac, t2.x, t2.y, t2.z⟩) ∧
      (t1.z ≠ 0 → t2.z = 0 → WritesPt (.jadd d a b) s (ptIx d) ⟨.jac, t1.x, t1.y, t1.z⟩) ∧
      (t1.z ≠ 0 → t2.z ≠ 0 → u1 ≡ u2 [ZMOD s.curve.p] → s1 ≡ s2 [ZMOD s.curve.p] →
        ∀ q, WritesPt (.jdbl d a) s (ptIx d) q → WritesPt (.jadd d a b) s (ptIx d) q) ∧
      (t1.z ≠ 0 → t2.z ≠ 0 → u1 ≡ u2 [ZMOD s.curve.p] → ¬ s1 ≡ s2 [ZMOD s.curve.p] →
        WritesPt (.jadd d a b) s (ptIx d) ⟨.jac, 1, 1, 0⟩) ∧
      (t1.z ≠ 0 → t2.z ≠ 0 → ¬ u1 ≡ u2 [ZMOD s.curve.p] → ∃ x3 y3 z3 : Nat,
        x3 < s.curve.p ∧ y3 < s.curve.p ∧ z3 < s.curve.p ∧
        (x3 : Int) ≡ r * r - hh ^ 3 - 2 * u1 * hh ^ 2 [ZMOD s.curve.p] ∧
        (y3 : Int) ≡ r * (u1 * hh ^ 2 - x3) - s1 * hh ^ 3 [ZMOD s.curve.p] ∧
        (z3 : Int) ≡ hh * t1.z * t2.z [ZMOD s.curve.p] ∧
        WritesPt (.jadd d a b) s (ptIx d) (if z3 = 0 then ⟨.jac, 1, 1, 0⟩ else ⟨.jac, x3, y3, z3⟩)))

/-- R214: JDBL writes (1, 1, 0) for Z = 0 or Y = 0, else the pinned triple, each coordinate the residue of its exact expression. -/
def Obligations.JdblResult : Prop :=
  ∀ (d a : PtField) (s : State),
    (s.curveOk = false → FailsWith (.jdbl d a) s 2 0x10) ∧
    (s.curveOk = true → (s.getPt (ptIx a)).f ≠ .jac → FailsWith (.jdbl d a) s 3 0x20) ∧
    (s.curveOk = true → OffCurveJac s (ptIx a) → FailsWith (.jdbl d a) s 4 0x31) ∧
    (∀ t, s.curveOk = true → JacOperand s (ptIx a) t →
      (t.z = 0 ∨ t.y = 0 → WritesPt (.jdbl d a) s (ptIx d) ⟨.jac, 1, 1, 0⟩) ∧
      (t.z ≠ 0 → t.y ≠ 0 → 2 * t.y * t.z % s.curve.p = 0 → WritesPt (.jdbl d a) s (ptIx d) ⟨.jac, 1, 1, 0⟩) ∧
      (t.z ≠ 0 → t.y ≠ 0 → 2 * t.y * t.z % s.curve.p ≠ 0 → ∃ x3 y3 : Nat,
        x3 < s.curve.p ∧ y3 < s.curve.p ∧
        (x3 : Int) ≡ (3 * t.x ^ 2 + s.curve.a * t.z ^ 4) ^ 2 - 8 * t.x * t.y ^ 2 [ZMOD s.curve.p] ∧
        (y3 : Int) ≡ (3 * t.x ^ 2 + s.curve.a * t.z ^ 4) * (4 * t.x * t.y ^ 2 - x3) - 8 * t.y ^ 4 [ZMOD s.curve.p] ∧
        WritesPt (.jdbl d a) s (ptIx d) ⟨.jac, x3, y3, 2 * t.y * t.z % s.curve.p⟩))

/-- R215: J2A writes INF for Z = 0, else the affine point of the inverse of Z, or raises DOMAIN(0x50) when Z has none. -/
def Obligations.J2aResult : Prop :=
  ∀ (d a : PtField) (s : State),
    (s.curveOk = false → FailsWith (.j2a d a) s 2 0x10) ∧
    (s.curveOk = true → (s.getPt (ptIx a)).f ≠ .jac → FailsWith (.j2a d a) s 3 0x20) ∧
    (s.curveOk = true → OffCurveJac s (ptIx a) → FailsWith (.j2a d a) s 4 0x31) ∧
    (∀ t, s.curveOk = true → JacOperand s (ptIx a) t →
      (t.z = 0 → WritesPt (.j2a d a) s (ptIx d) ⟨.inf, 0, 0, 0⟩) ∧
      (t.z ≠ 0 → Nat.gcd t.z s.curve.p ≠ 1 → FailsWith (.j2a d a) s 5 0x50) ∧
      (t.z ≠ 0 → ∀ zi, t.z * zi % s.curve.p = 1 →
        WritesPt (.j2a d a) s (ptIx d) ⟨.aff, t.x * zi ^ 2 % s.curve.p, t.y * zi ^ 3 % s.curve.p, 1⟩))

/-- R216: A2J writes (1, 1, 0) for INF and (x, y, 1) for a point. -/
def Obligations.A2jResult : Prop :=
  ∀ (d a : PtField) (s : State),
    (s.curveOk = false → FailsWith (.a2j d a) s 2 0x10) ∧
    (s.curveOk = true → ¬ AffForm s (ptIx a) → FailsWith (.a2j d a) s 3 0x20) ∧
    (s.curveOk = true → OffCurve s (ptIx a) → FailsWith (.a2j d a) s 4 0x31) ∧
    (s.curveOk = true → AffOperand s (ptIx a) .inf → WritesPt (.a2j d a) s (ptIx d) ⟨.jac, 1, 1, 0⟩) ∧
    (∀ x y, s.curveOk = true → AffOperand s (ptIx a) (.pt x y) → WritesPt (.a2j d a) s (ptIx d) ⟨.jac, x, y, 1⟩)

/-- R217: J2X writes X/Z² mod p, raises VALUE(0x36) for Z = 0 and DOMAIN(0x50) when Z has no inverse. -/
def Obligations.J2xResult : Prop :=
  ∀ (d : VField) (a : PtField) (s : State),
    (s.curveOk = false → FailsWith (.j2x d a) s 2 0x10) ∧
    (s.curveOk = true → (s.getPt (ptIx a)).f ≠ .jac → FailsWith (.j2x d a) s 3 0x20) ∧
    (s.curveOk = true → OffCurveJac s (ptIx a) → FailsWith (.j2x d a) s 4 0x31) ∧
    (∀ t, s.curveOk = true → JacOperand s (ptIx a) t →
      (t.z = 0 → FailsWith (.j2x d a) s 4 0x36) ∧
      (t.z ≠ 0 → Nat.gcd t.z s.curve.p ≠ 1 → FailsWith (.j2x d a) s 5 0x50) ∧
      (t.z ≠ 0 → ∀ zi, t.z * zi % s.curve.p = 1 →
        WritesV (.j2x d a) s d (t.x * zi ^ 2 % s.curve.p)))

/-- R207 and §3's group: over an odd prime, PADD of two points of the curve's group writes their sum (Mathlib's group law). -/
def Obligations.PaddIsGroupAddition : Prop :=
  ∀ (d a b : PtField) (s : State) (q1 q2 : AffPoint) (g1 g2 : s.curve.overField.Point) (_ : Fact s.curve.p.Prime),
    3 ≤ s.curve.p → s.curveOk = true → AffOperand s (ptIx a) q1 → AffOperand s (ptIx b) q2 →
    q1.Denotes s.curve g1 → q2.Denotes s.curve g2 →
      ∃ q, q.Denotes s.curve (g1 + g2) ∧ WritesPt (.padd d a b) s (ptIx d) (affReg q)

/-- R208, R209, R206: over an odd prime the Jacobian commands compute in the curve's group: JADD adds, JDBL doubles, J2A and A2J keep the point. -/
def Obligations.JacobianCommandsCompute : Prop :=
  ∀ (d a b : PtField) (s : State) (_ : Fact s.curve.p.Prime), 3 ≤ s.curve.p → s.curveOk = true →
    (∀ t1 t2 g1 g2, JacOperand s (ptIx a) t1 → JacOperand s (ptIx b) t2 → t1.Denotes s.curve g1 → t2.Denotes s.curve g2 →
      ∃ t, t.Denotes s.curve (g1 + g2) ∧ WritesPt (.jadd d a b) s (ptIx d) (jacReg t)) ∧
    (∀ t1 g1, JacOperand s (ptIx a) t1 → t1.Denotes s.curve g1 →
      ∃ t, t.Denotes s.curve (g1 + g1) ∧ WritesPt (.jdbl d a) s (ptIx d) (jacReg t)) ∧
    (∀ t1 g1, JacOperand s (ptIx a) t1 → t1.Denotes s.curve g1 →
      ∃ q, q.Denotes s.curve g1 ∧ WritesPt (.j2a d a) s (ptIx d) (affReg q)) ∧
    (∀ q1 g1, AffOperand s (ptIx a) q1 → q1.Denotes s.curve g1 →
      ∃ t, t.Denotes s.curve g1 ∧ WritesPt (.a2j d a) s (ptIx d) (jacReg t))

/-- The last sentence of R209, an inference the spec marks as its own ("`aff_of(jadd(jac_of(P1), jac_of(P2))) = aff_add(P1, P2)` for all on-curve P1 and P2"): over an odd prime, adding in Jacobian coordinates and normalising gives the affine sum, INF and doubling among them. -/
def Obligations.JacobianSumNormalises : Prop :=
  ∀ (c : CurveBlock) (q1 q2 : AffPoint), c.p.Prime → 3 ≤ c.p → q1.On c → q2.On c →
    affOf c (jadd c (jacOf q1) (jacOf q2)) = affAdd c q1 q2

/-- R200 to R202: in a state whose curve is checked with WEAK = 0 over a prime P, every valid operand, affine or Jacobian, stands for exactly one point of the curve's group, and ONCRV answers 1 for exactly the affine forms that stand for one. -/
def Obligations.ValidPointsDenote : Prop :=
  ∀ (s : State) (a : PtField) (_ : Fact s.curve.p.Prime), s.Inv → s.curveOk = true → s.weak = false →
    (∀ q, AffOperand s (ptIx a) q → ∃! g, q.Denotes s.curve g) ∧
    (∀ t, JacOperand s (ptIx a) t → ∃! g, t.Denotes s.curve g) ∧
    (∀ d : VField, WritesV (.oncrv d a) s d 1 ↔ ∃ q g, AffOperand s (ptIx a) q ∧ q.Denotes s.curve g)

/-- R202, R204: over an odd prime with WEAK = 0, CCHK succeeds exactly when the parameters are below p, the curve is non-singular, G is on it, N is odd and at least 3, and N·G is the identity (that N is the exact order of G is not checked). -/
def Obligations.CchkChecksOrder : Prop :=
  ∀ (s : State) (_ : Fact s.curve.p.Prime), 3 ≤ s.curve.p → s.weak = false →
    ∃ t, exec .cchk s = .next t ∧
      (t.curveOk = true ↔
        s.curve.a < s.curve.p ∧ s.curve.b < s.curve.p ∧ NonSingular s.curve ∧ s.curve.n % 2 = 1 ∧ 3 ≤ s.curve.n ∧
        ∃ g, (AffPoint.pt s.curve.gx s.curve.gy).Denotes s.curve g ∧ s.curve.n • g = 0)

/-! y recovery. -/

/-- R263: YODD's checks in their order, and the first of the two candidates with the requested parity. -/
def Obligations.YoddResult : Prop :=
  ∀ (d a : VField) (sel : Sel) (s : State),
    (s.curveOk = false → FailsWith (.yodd d a sel) s 2 0x10) ∧
    (s.curveOk = true → 2 ≤ sel.val → FailsWith (.yodd d a sel) s 4 0x30) ∧
    (s.curveOk = true → sel.val ≤ 1 → s.curve.p ≤ s.getV a → FailsWith (.yodd d a sel) s 4 0x33) ∧
    (s.curveOk = true → sel.val ≤ 1 → s.getV a < s.curve.p →
      (∀ e, sqrtMod (rightSide s.curve (s.getV a)) s.curve.p = .error e → FailsWith (.yodd d a sel) s 4 0x34) ∧
      (∀ r, sqrtMod (rightSide s.curve (s.getV a)) s.curve.p = .ok r →
        (r % 2 = sel.val → WritesV (.yodd d a sel) s d r) ∧
        (r % 2 ≠ sel.val → (s.curve.p - r) % s.curve.p % 2 = sel.val →
          WritesV (.yodd d a sel) s d ((s.curve.p - r) % s.curve.p)) ∧
        (r % 2 ≠ sel.val → (s.curve.p - r) % s.curve.p % 2 ≠ sel.val → FailsWith (.yodd d a sel) s 4 0x3D)))

/-- R264: YLOW's checks in their order; it writes min(y, (p - y) mod p) for 1 and max for 0, and never raises 0x3D. -/
def Obligations.YlowResult : Prop :=
  ∀ (d a : VField) (sel : Sel) (s : State),
    (s.curveOk = false → FailsWith (.ylow d a sel) s 2 0x10) ∧
    (s.curveOk = true → 2 ≤ sel.val → FailsWith (.ylow d a sel) s 4 0x30) ∧
    (s.curveOk = true → sel.val ≤ 1 → s.curve.p ≤ s.getV a → FailsWith (.ylow d a sel) s 4 0x33) ∧
    (s.curveOk = true → sel.val ≤ 1 → s.getV a < s.curve.p →
      (∀ e, sqrtMod (rightSide s.curve (s.getV a)) s.curve.p = .error e → FailsWith (.ylow d a sel) s 4 0x34) ∧
      (∀ r, sqrtMod (rightSide s.curve (s.getV a)) s.curve.p = .ok r →
        (sel.val = 1 → WritesV (.ylow d a sel) s d (min r ((s.curve.p - r) % s.curve.p))) ∧
        (sel.val = 0 → WritesV (.ylow d a sel) s d (max r ((s.curve.p - r) % s.curve.p)))))

/-- R265: YQR's checks in their order, the selector before p mod 4, and the first candidate of the requested residuosity. -/
def Obligations.YqrResult : Prop :=
  ∀ (d a : VField) (sel : Sel) (s : State),
    (s.curveOk = false → FailsWith (.yqr d a sel) s 2 0x10) ∧
    (s.curveOk = true → 2 ≤ sel.val → FailsWith (.yqr d a sel) s 4 0x30) ∧
    (s.curveOk = true → sel.val ≤ 1 → s.curve.p % 4 ≠ 3 → FailsWith (.yqr d a sel) s 4 0x35) ∧
    (s.curveOk = true → sel.val ≤ 1 → s.curve.p % 4 = 3 → s.curve.p ≤ s.getV a → FailsWith (.yqr d a sel) s 4 0x33) ∧
    (s.curveOk = true → sel.val ≤ 1 → s.curve.p % 4 = 3 → s.getV a < s.curve.p →
      (∀ e, sqrtMod (rightSide s.curve (s.getV a)) s.curve.p = .error e → FailsWith (.yqr d a sel) s 4 0x34) ∧
      (∀ r, sqrtMod (rightSide s.curve (s.getV a)) s.curve.p = .ok r →
        (isQr r s.curve.p = decide (sel.val = 1) → WritesV (.yqr d a sel) s d r) ∧
        (isQr r s.curve.p ≠ decide (sel.val = 1) → isQr ((s.curve.p - r) % s.curve.p) s.curve.p = decide (sel.val = 1) →
          WritesV (.yqr d a sel) s d ((s.curve.p - r) % s.curve.p)) ∧
        (isQr r s.curve.p ≠ decide (sel.val = 1) → isQr ((s.curve.p - r) % s.curve.p) s.curve.p ≠ decide (sel.val = 1) →
          FailsWith (.yqr d a sel) s 4 0x3D)))

/-- R266: HSQY writes 0 for INF, else is_qr of y; a wrong form is TYPE and an off-curve point VALUE(0x31). -/
def Obligations.HsqyResult : Prop :=
  ∀ (d : VField) (a : PtField) (s : State),
    (s.curveOk = false → FailsWith (.hsqy d a) s 2 0x10) ∧
    (s.curveOk = true → ¬ AffForm s (ptIx a) → FailsWith (.hsqy d a) s 3 0x20) ∧
    (s.curveOk = true → OffCurve s (ptIx a) → FailsWith (.hsqy d a) s 4 0x31) ∧
    (s.curveOk = true → AffOperand s (ptIx a) .inf → WritesV (.hsqy d a) s d 0) ∧
    (∀ x y, s.curveOk = true → AffOperand s (ptIx a) (.pt x y) →
      WritesV (.hsqy d a) s d (if isQr y s.curve.p = true then 1 else 0))

/-- 42_curve_y.md §1's inference, marked as the spec's own ("So the result does not depend on which root `sqrt_mod` returned"): over an odd prime the y-recovery commands return the y of the curve that has the requested property, and raise VALUE(0x34) when x has no y. -/
def Obligations.YRecoveryOverPrime : Prop :=
  ∀ (d a : VField) (sel : Sel) (s : State), s.curve.p.Prime → 3 ≤ s.curve.p → s.curveOk = true → sel.val ≤ 1 →
    (∀ y, OnCurve s.curve (s.getV a) y →
      (y % 2 = sel.val → WritesV (.yodd d a sel) s d y) ∧
      (sel.val = 1 → y ≤ (s.curve.p - y) % s.curve.p → WritesV (.ylow d a sel) s d y) ∧
      (sel.val = 0 → (s.curve.p - y) % s.curve.p ≤ y → WritesV (.ylow d a sel) s d y) ∧
      (s.curve.p % 4 = 3 → isQr y s.curve.p = decide (sel.val = 1) → WritesV (.yqr d a sel) s d y)) ∧
    (s.getV a < s.curve.p → (∀ y, ¬ OnCurve s.curve (s.getV a) y) →
      FailsWith (.yodd d a sel) s 4 0x34 ∧ FailsWith (.ylow d a sel) s 4 0x34 ∧
      (s.curve.p % 4 = 3 → FailsWith (.yqr d a sel) s 4 0x34))

/-! The SEC1 codec. -/

/-- R291: DEC's checks in their order, and the point each form of the octet string gives. -/
def Obligations.DecResult : Prop :=
  ∀ (d : PtField) (s : State),
    let l := s.oblen.toNat
    let ps := s.psize
    let b0 := s.obByte 0
    let x := beNat (s.obSlice 1 ps)
    let y := beNat (s.obSlice (1 + ps) ps)
    (s.curveOk = false → FailsWith (.dec d) s 2 0x10) ∧
    (s.curveOk = true → l = 0 → FailsWith (.dec d) s 4 0x37) ∧
    (s.curveOk = true → l ≠ 0 → b0 ≠ 0x02 → b0 ≠ 0x03 → b0 ≠ 0x04 → FailsWith (.dec d) s 4 0x38) ∧
    (s.curveOk = true → l ≠ 0 → b0 = 0x02 ∨ b0 = 0x03 → l ≠ 1 + ps → FailsWith (.dec d) s 4 0x37) ∧
    (s.curveOk = true → b0 = 0x02 ∨ b0 = 0x03 → l = 1 + ps → s.curve.p ≤ x → FailsWith (.dec d) s 4 0x33) ∧
    (s.curveOk = true → b0 = 0x02 ∨ b0 = 0x03 → l = 1 + ps → x < s.curve.p →
      (∀ e, sqrtMod (rightSide s.curve x) s.curve.p = .error e → FailsWith (.dec d) s 4 0x34) ∧
      (∀ r, sqrtMod (rightSide s.curve x) s.curve.p = .ok r →
        let odd := if b0 = 0x03 then 1 else 0
        (r % 2 = odd → WritesPt (.dec d) s (ptIx d) ⟨.aff, x, r, 1⟩) ∧
        (r % 2 ≠ odd → (s.curve.p - r) % s.curve.p % 2 = odd →
          WritesPt (.dec d) s (ptIx d) ⟨.aff, x, (s.curve.p - r) % s.curve.p, 1⟩) ∧
        (r % 2 ≠ odd → (s.curve.p - r) % s.curve.p % 2 ≠ odd → FailsWith (.dec d) s 4 0x3D))) ∧
    (s.curveOk = true → l ≠ 0 → b0 = 0x04 → l ≠ 1 + 2 * ps → FailsWith (.dec d) s 4 0x37) ∧
    (s.curveOk = true → b0 = 0x04 → l = 1 + 2 * ps → ¬ OnCurve s.curve x y → FailsWith (.dec d) s 4 0x39) ∧
    (s.curveOk = true → b0 = 0x04 → l = 1 + 2 * ps → OnCurve s.curve x y →
      WritesPt (.dec d) s (ptIx d) ⟨.aff, x, y, 1⟩)

/-- R292: ENC's checks in their order, the two strings byte by byte, OB zero past the string, and OBLEN. -/
def Obligations.EncResult : Prop :=
  ∀ (a : PtField) (sel : Sel) (s : State), s.Inv →
    (s.curveOk = false → FailsWith (.enc a sel) s 2 0x10) ∧
    (s.curveOk = true → ¬ AffForm s (ptIx a) → FailsWith (.enc a sel) s 3 0x20) ∧
    (s.curveOk = true → AffForm s (ptIx a) → 2 ≤ sel.val → FailsWith (.enc a sel) s 4 0x30) ∧
    (s.curveOk = true → sel.val ≤ 1 → (s.getPt (ptIx a)).f = .inf → FailsWith (.enc a sel) s 4 0x3A) ∧
    (s.curveOk = true → sel.val ≤ 1 → OffCurve s (ptIx a) → FailsWith (.enc a sel) s 4 0x31) ∧
    (∀ x y, s.curveOk = true → AffOperand s (ptIx a) (.pt x y) →
      (sel.val = 1 → ∃ str, WritesOb (.enc a sel) s str ∧ str.length = 1 + s.psize ∧
        str.getD 0 0 = (if y % 2 = 1 then 0x03 else 0x02) ∧ beNat (str.drop 1) = x) ∧
      (sel.val = 0 → ∃ str, WritesOb (.enc a sel) s str ∧ str.length = 1 + 2 * s.psize ∧ str.getD 0 0 = 0x04 ∧
        beNat ((str.drop 1).take s.psize) = x ∧ beNat (str.drop (1 + s.psize)) = y))

/-- The round trip of 43_codec.md §2, an inference the spec marks as its own ("ENC of Q into OB, then DEC, gives back Q"): over a prime p, on a checked curve, for either form, the 2-torsion point among them. -/
def Obligations.Sec1RoundTrip : Prop :=
  ∀ (a d : PtField) (sel : Sel) (s : State) (x y : Nat), s.Inv → s.curve.p.Prime → s.curveOk = true → sel.val ≤ 1 →
    AffOperand s (ptIx a) (.pt x y) →
      ∃ t, exec (.enc a sel) s = .next t ∧ t.err = 0 ∧ WritesPt (.dec d) t (ptIx d) ⟨.aff, x, y, 1⟩

/-! Scalar multiplication. -/

/-- R321: SMUL's checks in their order; INF for k = 0 or Q = INF, else one conversion of the loop's result, with k = V[B] mod N. -/
def Obligations.SmulResult : Prop :=
  ∀ (d a : PtField) (b : VField) (s : State),
    let k := s.getV b % s.curve.n
    (s.curveOk = false → FailsWith (.smul d a b) s 2 0x10) ∧
    (s.curveOk = true → ¬ AffForm s (ptIx a) → FailsWith (.smul d a b) s 3 0x20) ∧
    (s.curveOk = true → OffCurve s (ptIx a) → FailsWith (.smul d a b) s 4 0x31) ∧
    (∀ q, s.curveOk = true → AffOperand s (ptIx a) q →
      (k = 0 ∨ q = .inf → WritesPt (.smul d a b) s (ptIx d) ⟨.inf, 0, 0, 0⟩) ∧
      (k ≠ 0 → q ≠ .inf → ∀ r, affOf s.curve (jmul s.curve k q) = .ok r → WritesPt (.smul d a b) s (ptIx d) (affReg r)) ∧
      (k ≠ 0 → q ≠ .inf → ∀ e, affOf s.curve (jmul s.curve k q) = .error e → FailsWith (.smul d a b) s 5 0x50))

/-- 44_scalar.md §1's inference, marked as the spec's own ("For prime p, the affine value of the result, `aff_of(jmul(k, Q))`, is k·Q"), with C5's reduction: over an odd prime, SMUL writes (V[B] mod N)·Q of the curve's group (Mathlib's scalar multiple). -/
def Obligations.SmulIsScalarMultiple : Prop :=
  ∀ (d a : PtField) (b : VField) (s : State) (q : AffPoint) (g : s.curve.overField.Point) (_ : Fact s.curve.p.Prime),
    3 ≤ s.curve.p → s.curveOk = true → AffOperand s (ptIx a) q → q.Denotes s.curve g →
      ∃ r, r.Denotes s.curve ((s.getV b % s.curve.n) • g) ∧ WritesPt (.smul d a b) s (ptIx d) (affReg r)

/-! Registers on the bus. -/

/-- R33, R34: ID and HWCFG read their constants at all times, and writes to them are ignored. -/
def Obligations.IdAndHwcfg : Prop :=
  ∀ (s : State) (w : Word32), Config.Legal s.cfg →
    ReadsAs s 0x000 0xECC10100 ∧ WriteIgnored s 0x000 w ∧ WriteIgnored s 0x004 w ∧
    ∃ h : Word32, ReadsAs s 0x004 h ∧ h.toNat = s.cfg.width + 16 * 2 ^ 16 + 8 * 2 ^ 24

/-- R36: the fields of STATUS, its reserved bits at 0, and its write-1-to-clear, idle or busy. -/
def Obligations.StatusRegister : Prop :=
  ∀ s : State, Config.Legal s.cfg →
    (∃ r : Word32, ReadsAs s 0x00C r ∧
      r.toNat = s.busy.toNat + 2 * s.done.toNat + 4 * s.busywr.toNat + 8 * s.curveOk.toNat + 2 ^ 8 * s.err.toNat
        + 2 ^ 16 * s.errInfo.toNat) ∧
    ∀ w : Word32, s.busAccess (hostWrite s.cfg 0x00C w) =
      { s with done := s.done && !w.getLsbD 1, busywr := s.busywr && !w.getLsbD 2, resp := some .writeDone }

/-- R35, R371: CTRL reads IE in bit 1 and 0 elsewhere; a write with bit 0 = 0 sets IE only; one with bit 0 = 1 is the soft reset, idle or busy, and leaves every register at its reset value. -/
def Obligations.CtrlRegister : Prop :=
  ∀ s : State, Config.Legal s.cfg →
    (∃ r : Word32, ReadsAs s 0x008 r ∧ r.toNat = 2 * s.ie.toNat) ∧
    ∀ w : Word32,
      (w.getLsbD 0 = false →
        s.busAccess (hostWrite s.cfg 0x008 w) = { s with ie := w.getLsbD 1, resp := some .writeDone }) ∧
      (w.getLsbD 0 = true →
        s.busAccess (hostWrite s.cfg 0x008 w) =
          { State.resetFor s.cfg with agenda := s.agenda, resp := some .writeDone })

/-- R372: after a power-on reset or a soft reset the engine is idle with IRQ = 0, and every word of the window reads 0 but ID and HWCFG. -/
def Obligations.ResetErasesEverything : Prop :=
  ∀ (s t : State), Config.Legal s.cfg →
    (t = s.powerOn ∨ ∃ w : Word32, w.getLsbD 0 = true ∧ t = s.busAccess (hostWrite s.cfg 0x008 w)) →
      t.cfg = s.cfg ∧ t.busy = false ∧ t.irq = false ∧ t.curve = ⟨0, 0, 0, 0, 0, 0, 0⟩ ∧
      (∀ i, t.getV i = 0) ∧ (∀ i, t.getPt i = ⟨.inf, 0, 0, 0⟩) ∧ (∀ j, t.obByte j = 0) ∧
      ∀ off, off < 0x2000 → off % 4 = 0 → off ≠ 0x000 → off ≠ 0x004 → ReadsAs t off 0

/-- R38: PTF reads the eight forms and 0 above them; a write while idle sets the eight forms and nothing else. -/
def Obligations.PtfRegister : Prop :=
  ∀ s : State, Config.Legal s.cfg → s.busy = false →
    (∃ r : Word32, ReadsAs s 0x018 r ∧ (∀ i : Fin 8, r.extractLsb' (2 * i.val) 2 = (s.getPt i).f.code) ∧
      r.extractLsb' 16 16 = 0) ∧
    ∀ w : Word32, ∃ pt, s.busAccess (hostWrite s.cfg 0x018 w) = { s with pt := pt, resp := some .writeDone } ∧
      ∀ i : Fin 8, (pt.get i).f.code = w.extractLsb' (2 * i.val) 2 ∧ (pt.get i).x = (s.getPt i).x ∧
        (pt.get i).y = (s.getPt i).y ∧ (pt.get i).z = (s.getPt i).z

/-- R37: while idle CURVECFG reads WEAK and PSIZE, the byte length of P, and a write sets WEAK and clears CURVE_OK. -/
def Obligations.CurvecfgRegister : Prop :=
  ∀ s : State, Config.Legal s.cfg → s.WidthOk → s.busy = false →
    (∃ r : Word32, ReadsAs s 0x01C r ∧ r.toNat = s.weak.toNat + 2 ^ 16 * s.psize) ∧
    s.psize ≤ 128 ∧ s.curve.p < 256 ^ s.psize ∧ (s.curve.p ≠ 0 → 256 ^ (s.psize - 1) ≤ s.curve.p) ∧
    (s.curve.p = 0 → s.psize = 0) ∧
    ∀ w : Word32, s.busAccess (hostWrite s.cfg 0x01C w) =
      { s with weak := w.getLsbD 0, curveOk := false, resp := some .writeDone }

/-- R39, R375: an idle engine accepts any word written to CMD, with no decode and no check; a busy one drops it and sets BUSYWR; a read returns CMD_LAST at all times. -/
def Obligations.CommandAcceptance : Prop :=
  ∀ (s : State) (w : Word32), Config.Legal s.cfg →
    ReadsAs s 0x010 s.cmdLast ∧
    (s.busy = false → s.busAccess (hostWrite s.cfg 0x010 w) =
      { s with cmdLast := w, busy := true, done := false, err := 0, errInfo := 0, resp := some .writeDone }) ∧
    (s.busy = true → s.busAccess (hostWrite s.cfg 0x010 w) = { s with busywr := true, resp := some .writeDone })

/-- R83: while idle, word q of a W-bit register reads bits [32q+31 : 32q], a write replaces exactly those bits and no other register, and the words at NW and above read 0 and ignore writes. -/
def Obligations.BigRegisterWords : Prop :=
  ∀ (s : State) (k : Slot) (q : Nat) (w : Word32), Config.Legal s.cfg → s.WidthOk → s.busy = false → q < 32 →
    (q < s.cfg.nw → ReadsAs s (k.offset + 4 * q) (wordOf (s.slot k) q)) ∧
    (s.cfg.nw ≤ q → ReadsAs s (k.offset + 4 * q) 0 ∧ WriteIgnored s (k.offset + 4 * q) w) ∧
    (q < s.cfg.nw →
      let t := s.busAccess (hostWrite s.cfg (k.offset + 4 * q) w)
      t.slot k < 2 ^ s.cfg.width ∧ (∀ j, wordOf (t.slot k) j = if j = q then w else wordOf (s.slot k) j) ∧
      (∀ k', k' ≠ k → t.slot k' = s.slot k') ∧ (∀ i, (t.getPt i).f = (s.getPt i).f) ∧
      t = { s with v := t.v, pt := t.pt, curve := t.curve, curveOk := t.curveOk, resp := some .writeDone } ∧
      t.curveOk = (match k with | .curve _ => false | .v _ => s.curveOk | .pt _ _ => s.curveOk))

/-- R83, R135: the NW word writes of a W-bit value, made in any order while idle, leave the register at that value and everything else as it was, but that writes to the curve block clear CURVE_OK; then the NW reads, assembled least significant word first, give the value back and change nothing. -/
def Obligations.BigRegisterLoad : Prop :=
  ∀ (s : State) (k : Slot) (x : Nat) (order : List Nat), Config.Legal s.cfg → s.WidthOk → s.busy = false →
    x < 2 ^ s.cfg.width → order.Perm (List.range s.cfg.nw) →
      let t := s.busAccesses (order.map (hostWriteWord s.cfg k.offset x))
      t.slot k = x ∧ (∀ k', k' ≠ k → t.slot k' = s.slot k') ∧ (∀ i, (t.getPt i).f = (s.getPt i).f) ∧
      t = { s with v := t.v, pt := t.pt, curve := t.curve, curveOk := t.curveOk, resp := some .writeDone } ∧
      t.curveOk = (match k with | .curve _ => false | .v _ => s.curveOk | .pt _ _ => s.curveOk) ∧
      assembleWords (t.busAnswers (hostReadBig s.cfg k.offset)) = x ∧
      t.busAccesses (hostReadBig s.cfg k.offset) = { t with resp := some (.readData (wordOf x (s.cfg.nw - 1))) }

/-- R84 and R43 (that OB keeps its list form, `ObOk`, is the model's, log entry 8): while idle, OBLEN is 16 bits, and the word at 0x1C00 + 4q carries bytes OB[4q] to OB[4q+3] in its lanes, lowest first, for the bytes below OBSIZE only. -/
def Obligations.OctetBufferWords : Prop :=
  ∀ (s : State) (q : Nat) (w : Word32), Config.Legal s.cfg → s.ObOk → s.busy = false → q < 128 →
    (∃ r : Word32, ReadsAs s 0x014 r ∧ r.toNat = s.oblen.toNat) ∧
    s.busAccess (hostWrite s.cfg 0x014 w) = { s with oblen := w.extractLsb' 0 16, resp := some .writeDone } ∧
    (∃ r : Word32, ReadsAs s (0x1C00 + 4 * q) r ∧ ∀ t, t < 4 → r.extractLsb' (8 * t) 8 = s.obByte (4 * q + t)) ∧
    (∀ j, s.cfg.obSize ≤ j → s.obByte j = 0) ∧
    ∃ ob, s.busAccess (hostWrite s.cfg (0x1C00 + 4 * q) w) = { s with ob := ob, resp := some .writeDone } ∧
      State.ObOk { s with ob := ob } ∧
      ∀ j, State.obByte { s with ob := ob } j =
        if j < s.cfg.obSize ∧ j / 4 = q then w.extractLsb' (8 * (j % 4)) 8 else s.obByte j

/-- R81: an access that is not 32 bits wide, or not at a multiple of 4, is answered with a bus error and changes no other state. -/
def Obligations.IllegalAccess : Prop :=
  ∀ (s : State) (a : Access), Config.routes s.cfg a.addr = true → a.size ≠ .b32 ∨ windowOffset a.addr % 4 ≠ 0 →
    s.busAccess a = { s with resp := some .busError }

/-- R85: reserved offsets read 0 and ignore writes, at all times for 0x020–0x3FF and while idle for the others. -/
def Obligations.ReservedSpace : Prop :=
  ∀ (s : State) (off : Nat) (w : Word32), Config.Legal s.cfg → off % 4 = 0 →
    ((0x020 ≤ off ∧ off < 0x400) ∨
      (s.busy = false ∧ ((0x780 ≤ off ∧ off < 0x800) ∨ (0x1E00 ≤ off ∧ off < 0x2000)))) →
      ReadsAs s off 0 ∧ WriteIgnored s off w

/-- R87: while busy, the hidden offsets read 0, a write to one of them or to CMD is dropped and sets BUSYWR, and every other access is as when idle. -/
def Obligations.BusyRule : Prop :=
  ∀ (s : State) (off : Nat) (w : Word32), Config.Legal s.cfg → s.busy = true → off < 0x2000 → off % 4 = 0 →
    ((0x014 ≤ off ∧ off < 0x020) ∨ 0x400 ≤ off →
      ReadsAs s off 0 ∧ s.busAccess (hostWrite s.cfg off w) = { s with busywr := true, resp := some .writeDone }) ∧
    (off = 0x010 →
      ReadsAs s off s.cmdLast ∧ s.busAccess (hostWrite s.cfg off w) = { s with busywr := true, resp := some .writeDone }) ∧
    (0x020 ≤ off → off < 0x400 → ReadsAs s off 0 ∧ WriteIgnored s off w) ∧
    (off < 0x010 →
      ReadsAs s off (s.readTarget (targetOf off)) ∧
      s.busAccess (hostWrite s.cfg off w) = { s.writeTarget (targetOf off) w with resp := some .writeDone })

/-- R48: what clears CURVE_OK, and that only a CCHK that completes without error sets it. -/
def Obligations.CurveOkRule : Prop :=
  (∀ (s : State) (r : CurveReg) (q : Nat) (w : Word32), Config.Legal s.cfg → q < s.cfg.nw →
    (s.busAccess (hostWrite s.cfg (slotCurve r + 4 * q) w)).curveOk = (if s.busy = true then s.curveOk else false)) ∧
  (∀ (s : State) (w : Word32), Config.Legal s.cfg →
    (s.busAccess (hostWrite s.cfg 0x01C w)).curveOk = (if s.busy = true then s.curveOk else false)) ∧
  (∀ (s : State) (w : Word32), Config.Legal s.cfg → w.getLsbD 0 = true →
    (s.busAccess (hostWrite s.cfg 0x008 w)).curveOk = false) ∧
  (∀ s : State, s.powerOn.curveOk = false) ∧
  (∀ s t : State, exec .cchk s = .next t → t.err ≠ 0 → t.curveOk = false) ∧
  (∀ s t : State, step s = .next t → s.curveOk = false → t.curveOk = true →
    s.busy = true ∧ decode s.cmdLast = .ok .cchk ∧ t.busy = false ∧ t.err = 0)

/-- R45, R350: IRQ is DONE AND IE, presented on the platform's line with the platform's priority; a completion, success or error, raises it when IE is 1 and is its one source, as no bus access sets DONE; a W1C of DONE, an acceptance or clearing IE drops it; it resets to 0. -/
def Obligations.InterruptOutput : Prop :=
  ∀ s : State, Config.Legal s.cfg →
    s.irq = (s.done && s.ie) ∧ (State.resetFor s.cfg).irq = false ∧
    s.irqRequest = (if s.done = true ∧ s.ie = true then some (s.cfg.irqLine, s.cfg.irqPriority) else none) ∧
    (∀ (i : Instr) (t : State), exec i s = .next t → t.irq = s.ie) ∧
    (∀ t : State, engineStep s = .next t → t.irq = s.ie) ∧
    (∀ a : Access, (s.busAccess a).done = true → s.done = true) ∧ s.powerOn.irq = false ∧
    (∀ w : Word32, w.getLsbD 1 = true → (s.busAccess (hostWrite s.cfg 0x00C w)).irq = false) ∧
    (∀ w : Word32, s.busy = false → (s.busAccess (hostWrite s.cfg 0x010 w)).irq = false) ∧
    (∀ w : Word32, w.getLsbD 1 = false → (s.busAccess (hostWrite s.cfg 0x008 w)).irq = false)

/-! Whole-machine rules. -/

/-- R44, R376, R377: the host accesses made while a command is in flight, none of them a soft reset, change neither its operands nor its outcome: the completion writes what it would have written at once. -/
def Obligations.LatencyIndependence : Prop :=
  ∀ (s : State) (as : List Access), Config.Legal s.cfg → s.busy = true → (∀ a ∈ as, ¬ SoftReset s.cfg a) →
    let s' := s.busAccesses as
    s'.busy = true ∧ SameOperands s s' ∧
    ∃ t t', engineStep s = .next t ∧ engineStep s' = .next t' ∧ SameOperands t t' ∧ t'.err = t.err ∧
      t'.errInfo = t.errInfo ∧ t'.busy = false ∧ t'.done = true ∧ t'.ie = s'.ie

/-- The state after reset meets the invariant, under every legal configuration. -/
def Obligations.ResetMeetsInv : Prop :=
  State.reset.Inv ∧ ∀ c : Config, Config.Legal c → (State.resetFor c).Inv

/-- Every step keeps the invariant: registers stay below 2^W, OB stays canonical and inside OBSIZE, STATUS stays legal, and CURVE_OK = 1 only over a curve block CCHK accepts (R10, R36, R43, R48). -/
def Obligations.StepKeepsInv : Prop :=
  ∀ s t : State, s.Inv → step s = .next t → t.Inv
end

