-- ==== Sys2Proof/Laws/State.lean ====
section
/-! SUPPORT. One lemma for each field of State under each update, so that no proof unfolds a record update; the register accessors under each update. -/

namespace Sys2Proof.Laws

open Sys2Proof.Machine

/-! The fields that `setV` leaves alone. -/

@[simp] theorem setV_cfg (s : State) (i : Fin 16) (x : Nat) : (s.setV i x).cfg = s.cfg := rfl
@[simp] theorem setV_ie (s : State) (i : Fin 16) (x : Nat) : (s.setV i x).ie = s.ie := rfl
@[simp] theorem setV_busy (s : State) (i : Fin 16) (x : Nat) : (s.setV i x).busy = s.busy := rfl
@[simp] theorem setV_done (s : State) (i : Fin 16) (x : Nat) : (s.setV i x).done = s.done := rfl
@[simp] theorem setV_busywr (s : State) (i : Fin 16) (x : Nat) : (s.setV i x).busywr = s.busywr := rfl
@[simp] theorem setV_curveOk (s : State) (i : Fin 16) (x : Nat) : (s.setV i x).curveOk = s.curveOk := rfl
@[simp] theorem setV_err (s : State) (i : Fin 16) (x : Nat) : (s.setV i x).err = s.err := rfl
@[simp] theorem setV_errInfo (s : State) (i : Fin 16) (x : Nat) : (s.setV i x).errInfo = s.errInfo := rfl
@[simp] theorem setV_cmdLast (s : State) (i : Fin 16) (x : Nat) : (s.setV i x).cmdLast = s.cmdLast := rfl
@[simp] theorem setV_oblen (s : State) (i : Fin 16) (x : Nat) : (s.setV i x).oblen = s.oblen := rfl
@[simp] theorem setV_weak (s : State) (i : Fin 16) (x : Nat) : (s.setV i x).weak = s.weak := rfl
@[simp] theorem setV_curve (s : State) (i : Fin 16) (x : Nat) : (s.setV i x).curve = s.curve := rfl
@[simp] theorem setV_pt (s : State) (i : Fin 16) (x : Nat) : (s.setV i x).pt = s.pt := rfl
@[simp] theorem setV_ob (s : State) (i : Fin 16) (x : Nat) : (s.setV i x).ob = s.ob := rfl
@[simp] theorem setV_agenda (s : State) (i : Fin 16) (x : Nat) : (s.setV i x).agenda = s.agenda := rfl
@[simp] theorem setV_resp (s : State) (i : Fin 16) (x : Nat) : (s.setV i x).resp = s.resp := rfl

/-! The fields that `setPt` leaves alone. -/

@[simp] theorem setPt_cfg (s : State) (i : Fin 8) (q : PtReg) : (s.setPt i q).cfg = s.cfg := rfl
@[simp] theorem setPt_ie (s : State) (i : Fin 8) (q : PtReg) : (s.setPt i q).ie = s.ie := rfl
@[simp] theorem setPt_busy (s : State) (i : Fin 8) (q : PtReg) : (s.setPt i q).busy = s.busy := rfl
@[simp] theorem setPt_done (s : State) (i : Fin 8) (q : PtReg) : (s.setPt i q).done = s.done := rfl
@[simp] theorem setPt_busywr (s : State) (i : Fin 8) (q : PtReg) : (s.setPt i q).busywr = s.busywr := rfl
@[simp] theorem setPt_curveOk (s : State) (i : Fin 8) (q : PtReg) : (s.setPt i q).curveOk = s.curveOk := rfl
@[simp] theorem setPt_err (s : State) (i : Fin 8) (q : PtReg) : (s.setPt i q).err = s.err := rfl
@[simp] theorem setPt_errInfo (s : State) (i : Fin 8) (q : PtReg) : (s.setPt i q).errInfo = s.errInfo := rfl
@[simp] theorem setPt_cmdLast (s : State) (i : Fin 8) (q : PtReg) : (s.setPt i q).cmdLast = s.cmdLast := rfl
@[simp] theorem setPt_oblen (s : State) (i : Fin 8) (q : PtReg) : (s.setPt i q).oblen = s.oblen := rfl
@[simp] theorem setPt_weak (s : State) (i : Fin 8) (q : PtReg) : (s.setPt i q).weak = s.weak := rfl
@[simp] theorem setPt_curve (s : State) (i : Fin 8) (q : PtReg) : (s.setPt i q).curve = s.curve := rfl
@[simp] theorem setPt_v (s : State) (i : Fin 8) (q : PtReg) : (s.setPt i q).v = s.v := rfl
@[simp] theorem setPt_ob (s : State) (i : Fin 8) (q : PtReg) : (s.setPt i q).ob = s.ob := rfl
@[simp] theorem setPt_agenda (s : State) (i : Fin 8) (q : PtReg) : (s.setPt i q).agenda = s.agenda := rfl
@[simp] theorem setPt_resp (s : State) (i : Fin 8) (q : PtReg) : (s.setPt i q).resp = s.resp := rfl

/-! The fields that `finish` leaves alone. -/

@[simp] theorem finish_cfg (s : State) (e : BitVec 4) (n : Byte) : (s.finish e n).cfg = s.cfg := rfl
@[simp] theorem finish_ie (s : State) (e : BitVec 4) (n : Byte) : (s.finish e n).ie = s.ie := rfl
@[simp] theorem finish_busywr (s : State) (e : BitVec 4) (n : Byte) : (s.finish e n).busywr = s.busywr := rfl
@[simp] theorem finish_curveOk (s : State) (e : BitVec 4) (n : Byte) : (s.finish e n).curveOk = s.curveOk := rfl
@[simp] theorem finish_cmdLast (s : State) (e : BitVec 4) (n : Byte) : (s.finish e n).cmdLast = s.cmdLast := rfl
@[simp] theorem finish_oblen (s : State) (e : BitVec 4) (n : Byte) : (s.finish e n).oblen = s.oblen := rfl
@[simp] theorem finish_weak (s : State) (e : BitVec 4) (n : Byte) : (s.finish e n).weak = s.weak := rfl
@[simp] theorem finish_curve (s : State) (e : BitVec 4) (n : Byte) : (s.finish e n).curve = s.curve := rfl
@[simp] theorem finish_v (s : State) (e : BitVec 4) (n : Byte) : (s.finish e n).v = s.v := rfl
@[simp] theorem finish_pt (s : State) (e : BitVec 4) (n : Byte) : (s.finish e n).pt = s.pt := rfl
@[simp] theorem finish_ob (s : State) (e : BitVec 4) (n : Byte) : (s.finish e n).ob = s.ob := rfl
@[simp] theorem finish_agenda (s : State) (e : BitVec 4) (n : Byte) : (s.finish e n).agenda = s.agenda := rfl
@[simp] theorem finish_resp (s : State) (e : BitVec 4) (n : Byte) : (s.finish e n).resp = s.resp := rfl

/-! The fields that `fail` leaves alone. -/

@[simp] theorem fail_cfg (s : State) (e : CmdError) : (s.fail e).cfg = s.cfg := rfl
@[simp] theorem fail_ie (s : State) (e : CmdError) : (s.fail e).ie = s.ie := rfl
@[simp] theorem fail_busywr (s : State) (e : CmdError) : (s.fail e).busywr = s.busywr := rfl
@[simp] theorem fail_curveOk (s : State) (e : CmdError) : (s.fail e).curveOk = s.curveOk := rfl
@[simp] theorem fail_cmdLast (s : State) (e : CmdError) : (s.fail e).cmdLast = s.cmdLast := rfl
@[simp] theorem fail_oblen (s : State) (e : CmdError) : (s.fail e).oblen = s.oblen := rfl
@[simp] theorem fail_weak (s : State) (e : CmdError) : (s.fail e).weak = s.weak := rfl
@[simp] theorem fail_curve (s : State) (e : CmdError) : (s.fail e).curve = s.curve := rfl
@[simp] theorem fail_v (s : State) (e : CmdError) : (s.fail e).v = s.v := rfl
@[simp] theorem fail_pt (s : State) (e : CmdError) : (s.fail e).pt = s.pt := rfl
@[simp] theorem fail_ob (s : State) (e : CmdError) : (s.fail e).ob = s.ob := rfl
@[simp] theorem fail_agenda (s : State) (e : CmdError) : (s.fail e).agenda = s.agenda := rfl
@[simp] theorem fail_resp (s : State) (e : CmdError) : (s.fail e).resp = s.resp := rfl

/-! The fields that `accept` leaves alone. -/

@[simp] theorem accept_cfg (s : State) (w : Word32) : (s.accept w).cfg = s.cfg := rfl
@[simp] theorem accept_ie (s : State) (w : Word32) : (s.accept w).ie = s.ie := rfl
@[simp] theorem accept_busywr (s : State) (w : Word32) : (s.accept w).busywr = s.busywr := rfl
@[simp] theorem accept_curveOk (s : State) (w : Word32) : (s.accept w).curveOk = s.curveOk := rfl
@[simp] theorem accept_oblen (s : State) (w : Word32) : (s.accept w).oblen = s.oblen := rfl
@[simp] theorem accept_weak (s : State) (w : Word32) : (s.accept w).weak = s.weak := rfl
@[simp] theorem accept_curve (s : State) (w : Word32) : (s.accept w).curve = s.curve := rfl
@[simp] theorem accept_v (s : State) (w : Word32) : (s.accept w).v = s.v := rfl
@[simp] theorem accept_pt (s : State) (w : Word32) : (s.accept w).pt = s.pt := rfl
@[simp] theorem accept_ob (s : State) (w : Word32) : (s.accept w).ob = s.ob := rfl
@[simp] theorem accept_agenda (s : State) (w : Word32) : (s.accept w).agenda = s.agenda := rfl
@[simp] theorem accept_resp (s : State) (w : Word32) : (s.accept w).resp = s.resp := rfl

/-! The fields that `setObByte` leaves alone. -/

@[simp] theorem setObByte_cfg (s : State) (j : Nat) (b : Byte) : (s.setObByte j b).cfg = s.cfg := by unfold State.setObByte; split <;> rfl
@[simp] theorem setObByte_ie (s : State) (j : Nat) (b : Byte) : (s.setObByte j b).ie = s.ie := by unfold State.setObByte; split <;> rfl
@[simp] theorem setObByte_busy (s : State) (j : Nat) (b : Byte) : (s.setObByte j b).busy = s.busy := by unfold State.setObByte; split <;> rfl
@[simp] theorem setObByte_done (s : State) (j : Nat) (b : Byte) : (s.setObByte j b).done = s.done := by unfold State.setObByte; split <;> rfl
@[simp] theorem setObByte_busywr (s : State) (j : Nat) (b : Byte) : (s.setObByte j b).busywr = s.busywr := by unfold State.setObByte; split <;> rfl
@[simp] theorem setObByte_curveOk (s : State) (j : Nat) (b : Byte) : (s.setObByte j b).curveOk = s.curveOk := by unfold State.setObByte; split <;> rfl
@[simp] theorem setObByte_err (s : State) (j : Nat) (b : Byte) : (s.setObByte j b).err = s.err := by unfold State.setObByte; split <;> rfl
@[simp] theorem setObByte_errInfo (s : State) (j : Nat) (b : Byte) : (s.setObByte j b).errInfo = s.errInfo := by unfold State.setObByte; split <;> rfl
@[simp] theorem setObByte_cmdLast (s : State) (j : Nat) (b : Byte) : (s.setObByte j b).cmdLast = s.cmdLast := by unfold State.setObByte; split <;> rfl
@[simp] theorem setObByte_oblen (s : State) (j : Nat) (b : Byte) : (s.setObByte j b).oblen = s.oblen := by unfold State.setObByte; split <;> rfl
@[simp] theorem setObByte_weak (s : State) (j : Nat) (b : Byte) : (s.setObByte j b).weak = s.weak := by unfold State.setObByte; split <;> rfl
@[simp] theorem setObByte_curve (s : State) (j : Nat) (b : Byte) : (s.setObByte j b).curve = s.curve := by unfold State.setObByte; split <;> rfl
@[simp] theorem setObByte_v (s : State) (j : Nat) (b : Byte) : (s.setObByte j b).v = s.v := by unfold State.setObByte; split <;> rfl
@[simp] theorem setObByte_pt (s : State) (j : Nat) (b : Byte) : (s.setObByte j b).pt = s.pt := by unfold State.setObByte; split <;> rfl
@[simp] theorem setObByte_agenda (s : State) (j : Nat) (b : Byte) : (s.setObByte j b).agenda = s.agenda := by unfold State.setObByte; split <;> rfl
@[simp] theorem setObByte_resp (s : State) (j : Nat) (b : Byte) : (s.setObByte j b).resp = s.resp := by unfold State.setObByte; split <;> rfl

/-! The fields that `writeStatus` leaves alone. -/

@[simp] theorem writeStatus_cfg (s : State) (w : Word32) : (s.writeStatus w).cfg = s.cfg := rfl
@[simp] theorem writeStatus_ie (s : State) (w : Word32) : (s.writeStatus w).ie = s.ie := rfl
@[simp] theorem writeStatus_busy (s : State) (w : Word32) : (s.writeStatus w).busy = s.busy := rfl
@[simp] theorem writeStatus_curveOk (s : State) (w : Word32) : (s.writeStatus w).curveOk = s.curveOk := rfl
@[simp] theorem writeStatus_err (s : State) (w : Word32) : (s.writeStatus w).err = s.err := rfl
@[simp] theorem writeStatus_errInfo (s : State) (w : Word32) : (s.writeStatus w).errInfo = s.errInfo := rfl
@[simp] theorem writeStatus_cmdLast (s : State) (w : Word32) : (s.writeStatus w).cmdLast = s.cmdLast := rfl
@[simp] theorem writeStatus_oblen (s : State) (w : Word32) : (s.writeStatus w).oblen = s.oblen := rfl
@[simp] theorem writeStatus_weak (s : State) (w : Word32) : (s.writeStatus w).weak = s.weak := rfl
@[simp] theorem writeStatus_curve (s : State) (w : Word32) : (s.writeStatus w).curve = s.curve := rfl
@[simp] theorem writeStatus_v (s : State) (w : Word32) : (s.writeStatus w).v = s.v := rfl
@[simp] theorem writeStatus_pt (s : State) (w : Word32) : (s.writeStatus w).pt = s.pt := rfl
@[simp] theorem writeStatus_ob (s : State) (w : Word32) : (s.writeStatus w).ob = s.ob := rfl
@[simp] theorem writeStatus_agenda (s : State) (w : Word32) : (s.writeStatus w).agenda = s.agenda := rfl
@[simp] theorem writeStatus_resp (s : State) (w : Word32) : (s.writeStatus w).resp = s.resp := rfl

/-! The fields that `writeCurvecfg` leaves alone. -/

@[simp] theorem writeCurvecfg_cfg (s : State) (w : Word32) : (s.writeCurvecfg w).cfg = s.cfg := rfl
@[simp] theorem writeCurvecfg_ie (s : State) (w : Word32) : (s.writeCurvecfg w).ie = s.ie := rfl
@[simp] theorem writeCurvecfg_busy (s : State) (w : Word32) : (s.writeCurvecfg w).busy = s.busy := rfl
@[simp] theorem writeCurvecfg_done (s : State) (w : Word32) : (s.writeCurvecfg w).done = s.done := rfl
@[simp] theorem writeCurvecfg_busywr (s : State) (w : Word32) : (s.writeCurvecfg w).busywr = s.busywr := rfl
@[simp] theorem writeCurvecfg_err (s : State) (w : Word32) : (s.writeCurvecfg w).err = s.err := rfl
@[simp] theorem writeCurvecfg_errInfo (s : State) (w : Word32) : (s.writeCurvecfg w).errInfo = s.errInfo := rfl
@[simp] theorem writeCurvecfg_cmdLast (s : State) (w : Word32) : (s.writeCurvecfg w).cmdLast = s.cmdLast := rfl
@[simp] theorem writeCurvecfg_oblen (s : State) (w : Word32) : (s.writeCurvecfg w).oblen = s.oblen := rfl
@[simp] theorem writeCurvecfg_curve (s : State) (w : Word32) : (s.writeCurvecfg w).curve = s.curve := rfl
@[simp] theorem writeCurvecfg_v (s : State) (w : Word32) : (s.writeCurvecfg w).v = s.v := rfl
@[simp] theorem writeCurvecfg_pt (s : State) (w : Word32) : (s.writeCurvecfg w).pt = s.pt := rfl
@[simp] theorem writeCurvecfg_ob (s : State) (w : Word32) : (s.writeCurvecfg w).ob = s.ob := rfl
@[simp] theorem writeCurvecfg_agenda (s : State) (w : Word32) : (s.writeCurvecfg w).agenda = s.agenda := rfl
@[simp] theorem writeCurvecfg_resp (s : State) (w : Word32) : (s.writeCurvecfg w).resp = s.resp := rfl

/-! The fields that `writeObWord` leaves alone. -/

@[simp] theorem writeObWord_cfg (s : State) (q : Nat) (w : Word32) : (s.writeObWord q w).cfg = s.cfg := by simp [State.writeObWord]
@[simp] theorem writeObWord_ie (s : State) (q : Nat) (w : Word32) : (s.writeObWord q w).ie = s.ie := by simp [State.writeObWord]
@[simp] theorem writeObWord_busy (s : State) (q : Nat) (w : Word32) : (s.writeObWord q w).busy = s.busy := by simp [State.writeObWord]
@[simp] theorem writeObWord_done (s : State) (q : Nat) (w : Word32) : (s.writeObWord q w).done = s.done := by simp [State.writeObWord]
@[simp] theorem writeObWord_busywr (s : State) (q : Nat) (w : Word32) : (s.writeObWord q w).busywr = s.busywr := by simp [State.writeObWord]
@[simp] theorem writeObWord_curveOk (s : State) (q : Nat) (w : Word32) : (s.writeObWord q w).curveOk = s.curveOk := by simp [State.writeObWord]
@[simp] theorem writeObWord_err (s : State) (q : Nat) (w : Word32) : (s.writeObWord q w).err = s.err := by simp [State.writeObWord]
@[simp] theorem writeObWord_errInfo (s : State) (q : Nat) (w : Word32) : (s.writeObWord q w).errInfo = s.errInfo := by simp [State.writeObWord]
@[simp] theorem writeObWord_cmdLast (s : State) (q : Nat) (w : Word32) : (s.writeObWord q w).cmdLast = s.cmdLast := by simp [State.writeObWord]
@[simp] theorem writeObWord_oblen (s : State) (q : Nat) (w : Word32) : (s.writeObWord q w).oblen = s.oblen := by simp [State.writeObWord]
@[simp] theorem writeObWord_weak (s : State) (q : Nat) (w : Word32) : (s.writeObWord q w).weak = s.weak := by simp [State.writeObWord]
@[simp] theorem writeObWord_curve (s : State) (q : Nat) (w : Word32) : (s.writeObWord q w).curve = s.curve := by simp [State.writeObWord]
@[simp] theorem writeObWord_v (s : State) (q : Nat) (w : Word32) : (s.writeObWord q w).v = s.v := by simp [State.writeObWord]
@[simp] theorem writeObWord_pt (s : State) (q : Nat) (w : Word32) : (s.writeObWord q w).pt = s.pt := by simp [State.writeObWord]
@[simp] theorem writeObWord_agenda (s : State) (q : Nat) (w : Word32) : (s.writeObWord q w).agenda = s.agenda := by simp [State.writeObWord]
@[simp] theorem writeObWord_resp (s : State) (q : Nat) (w : Word32) : (s.writeObWord q w).resp = s.resp := by simp [State.writeObWord]

/-! The fields that `writeCurve` leaves alone. -/

@[simp] theorem writeCurve_cfg (s : State) (r : CurveReg) (q : Nat) (w : Word32) : (s.writeCurve r q w).cfg = s.cfg := by unfold State.writeCurve; split <;> rfl
@[simp] theorem writeCurve_ie (s : State) (r : CurveReg) (q : Nat) (w : Word32) : (s.writeCurve r q w).ie = s.ie := by unfold State.writeCurve; split <;> rfl
@[simp] theorem writeCurve_busy (s : State) (r : CurveReg) (q : Nat) (w : Word32) : (s.writeCurve r q w).busy = s.busy := by unfold State.writeCurve; split <;> rfl
@[simp] theorem writeCurve_done (s : State) (r : CurveReg) (q : Nat) (w : Word32) : (s.writeCurve r q w).done = s.done := by unfold State.writeCurve; split <;> rfl
@[simp] theorem writeCurve_busywr (s : State) (r : CurveReg) (q : Nat) (w : Word32) : (s.writeCurve r q w).busywr = s.busywr := by unfold State.writeCurve; split <;> rfl
@[simp] theorem writeCurve_err (s : State) (r : CurveReg) (q : Nat) (w : Word32) : (s.writeCurve r q w).err = s.err := by unfold State.writeCurve; split <;> rfl
@[simp] theorem writeCurve_errInfo (s : State) (r : CurveReg) (q : Nat) (w : Word32) : (s.writeCurve r q w).errInfo = s.errInfo := by unfold State.writeCurve; split <;> rfl
@[simp] theorem writeCurve_cmdLast (s : State) (r : CurveReg) (q : Nat) (w : Word32) : (s.writeCurve r q w).cmdLast = s.cmdLast := by unfold State.writeCurve; split <;> rfl
@[simp] theorem writeCurve_oblen (s : State) (r : CurveReg) (q : Nat) (w : Word32) : (s.writeCurve r q w).oblen = s.oblen := by unfold State.writeCurve; split <;> rfl
@[simp] theorem writeCurve_weak (s : State) (r : CurveReg) (q : Nat) (w : Word32) : (s.writeCurve r q w).weak = s.weak := by unfold State.writeCurve; split <;> rfl
@[simp] theorem writeCurve_v (s : State) (r : CurveReg) (q : Nat) (w : Word32) : (s.writeCurve r q w).v = s.v := by unfold State.writeCurve; split <;> rfl
@[simp] theorem writeCurve_pt (s : State) (r : CurveReg) (q : Nat) (w : Word32) : (s.writeCurve r q w).pt = s.pt := by unfold State.writeCurve; split <;> rfl
@[simp] theorem writeCurve_ob (s : State) (r : CurveReg) (q : Nat) (w : Word32) : (s.writeCurve r q w).ob = s.ob := by unfold State.writeCurve; split <;> rfl
@[simp] theorem writeCurve_agenda (s : State) (r : CurveReg) (q : Nat) (w : Word32) : (s.writeCurve r q w).agenda = s.agenda := by unfold State.writeCurve; split <;> rfl
@[simp] theorem writeCurve_resp (s : State) (r : CurveReg) (q : Nat) (w : Word32) : (s.writeCurve r q w).resp = s.resp := by unfold State.writeCurve; split <;> rfl

/-! What the updates write. -/

@[simp] theorem finish_busy (s : State) (e : BitVec 4) (n : Byte) : (s.finish e n).busy = false := rfl
@[simp] theorem finish_done (s : State) (e : BitVec 4) (n : Byte) : (s.finish e n).done = true := rfl
@[simp] theorem finish_err (s : State) (e : BitVec 4) (n : Byte) : (s.finish e n).err = e := rfl
@[simp] theorem finish_errInfo (s : State) (e : BitVec 4) (n : Byte) : (s.finish e n).errInfo = n := rfl
@[simp] theorem fail_busy (s : State) (e : CmdError) : (s.fail e).busy = false := rfl
@[simp] theorem fail_done (s : State) (e : CmdError) : (s.fail e).done = true := rfl
@[simp] theorem fail_err (s : State) (e : CmdError) : (s.fail e).err = e.cls.code := rfl
@[simp] theorem fail_errInfo (s : State) (e : CmdError) : (s.fail e).errInfo = e.info := rfl
@[simp] theorem accept_busy (s : State) (w : Word32) : (s.accept w).busy = true := rfl
@[simp] theorem accept_done (s : State) (w : Word32) : (s.accept w).done = false := rfl
@[simp] theorem accept_err (s : State) (w : Word32) : (s.accept w).err = 0 := rfl
@[simp] theorem accept_errInfo (s : State) (w : Word32) : (s.accept w).errInfo = 0 := rfl
@[simp] theorem accept_cmdLast (s : State) (w : Word32) : (s.accept w).cmdLast = w := rfl
@[simp] theorem writeCurvecfg_weak (s : State) (w : Word32) : (s.writeCurvecfg w).weak = w.getLsbD 0 := rfl
@[simp] theorem writeCurvecfg_curveOk (s : State) (w : Word32) : (s.writeCurvecfg w).curveOk = false := rfl

/-! The register accessors under the register writes. -/

@[simp] theorem getV_setV_same (s : State) (i : Fin 16) (x : Nat) : (s.setV i x).getV i = x := by
  simp [State.getV, State.setV, Vector.get_eq_getElem]

theorem getV_setV_ne (s : State) (i j : Fin 16) (x : Nat) (h : j ≠ i) : (s.setV i x).getV j = s.getV j := by
  have h' : i.val ≠ j.val := fun e => h (Fin.ext e.symm)
  simp [State.getV, State.setV, Vector.get_eq_getElem, h']

@[simp] theorem getPt_setPt_same (s : State) (i : Fin 8) (q : PtReg) : (s.setPt i q).getPt i = q := by
  simp [State.getPt, State.setPt, Vector.get_eq_getElem]

theorem getPt_setPt_ne (s : State) (i j : Fin 8) (q : PtReg) (h : j ≠ i) : (s.setPt i q).getPt j = s.getPt j := by
  have h' : i.val ≠ j.val := fun e => h (Fin.ext e.symm)
  simp [State.getPt, State.setPt, Vector.get_eq_getElem, h']

/-! Accessors depend on their own field alone. -/

theorem getV_of_v (s t : State) (h : t.v = s.v) (i : Fin 16) : t.getV i = s.getV i := by
  simp [State.getV, h]

theorem getPt_of_pt (s t : State) (h : t.pt = s.pt) (i : Fin 8) : t.getPt i = s.getPt i := by
  simp [State.getPt, h]

theorem obByte_of_ob (s t : State) (hc : t.cfg = s.cfg) (h : t.ob = s.ob) (j : Nat) : t.obByte j = s.obByte j := by
  simp [State.obByte, h, hc]

end Sys2Proof.Laws
end

