-- ==== Sys2Proof/Laws/Arith.lean ====
section
/-! SUPPORT. The arithmetic helpers against the mathematics they stand for: `red`, `bitlen`, `pow_mod` and `inv_mod` (40_modular.md R165, R166). -/

namespace Sys2Proof.Laws

open Sys2Proof.Machine

theorem red_cast (m : Nat) (e : Int) (h : 0 < m) : ((red m e : Nat) : Int) = e % m := by
  have : 0 ≤ e % (m : Int) := Int.emod_nonneg _ (by omega)
  simp [red, this]

theorem red_lt (m : Nat) (e : Int) (h : 0 < m) : red m e < m := by
  have h1 := red_cast m e h
  have h2 := Int.emod_lt_of_pos e (by omega : (0 : Int) < m)
  omega

theorem red_natCast (m x : Nat) : red m (x : Int) = x % m := by
  simp only [red, ← Int.natCast_mod, Int.toNat_natCast]

/-- In the ring of residues `red` is the integer itself. -/
theorem red_zmod (m : Nat) (e : Int) (h : 0 < m) : ((red m e : Nat) : ZMod m) = (e : ZMod m) := by
  have h1 : ((red m e : Nat) : ZMod m) = (((red m e : Nat) : Int) : ZMod m) := by simp
  rw [h1, red_cast m e h, ZMod.intCast_mod]

theorem lt_two_pow_bitlen (x : Nat) : x < 2 ^ bitlen x := by
  unfold bitlen
  split
  · rename_i h
    simp [h]
  · exact Nat.lt_log2_self

theorem bitlen_le (x w : Nat) (h : x < 2 ^ w) : bitlen x ≤ w := by
  unfold bitlen
  split
  · omega
  · rename_i hx
    exact Nat.succ_le_of_lt ((Nat.log2_lt hx).2 h)

theorem powLoop_mod (b e m i r : Nat) : powLoop b e m i r % m = (r ^ 2 ^ i * b ^ (e % 2 ^ i)) % m := by
  induction i generalizing r with
  | zero => simp [powLoop, Nat.mod_one]
  | succ i ih =>
    have hr : r ^ 2 ^ (i + 1) = (r * r) ^ 2 ^ i := by rw [← pow_two, ← pow_mul, ← pow_succ']
    simp only [powLoop]
    rw [ih, Nat.mod_pow_succ, ← Nat.toNat_testBit, hr]
    cases e.testBit i with
    | false =>
      simp only [Bool.toNat_false, Nat.mul_zero, Nat.add_zero, Bool.false_eq_true, if_false]
      exact Nat.ModEq.mul_right _ ((Nat.mod_modEq _ _).pow _)
    | true =>
      simp only [Bool.toNat_true, Nat.mul_one, if_true]
      rw [pow_add, mul_comm (b ^ (e % 2 ^ i)), ← mul_assoc, ← mul_pow]
      exact Nat.ModEq.mul_right _ ((((Nat.mod_modEq _ _).trans ((Nat.mod_modEq _ _).mul_right _))).pow _)

theorem powLoop_lt (b e m i r : Nat) (hr : r < m) : powLoop b e m i r < m := by
  induction i generalizing r with
  | zero => exact hr
  | succ i ih =>
    simp only [powLoop]
    refine ih _ ?_
    split <;> exact Nat.mod_lt _ (by omega)

/-- `pow_mod` is the power, reduced (40_modular.md R165). -/
theorem powMod_eq (a e m : Nat) (h : 2 ≤ m) : powMod a e m = a ^ e % m := by
  have h1 := powLoop_mod (a % m) e m (bitlen e) 1
  have h2 := powLoop_lt (a % m) e m (bitlen e) 1 (by omega)
  rw [Nat.mod_eq_of_lt h2, Nat.mod_eq_of_lt (lt_two_pow_bitlen e), one_pow, one_mul, ← Nat.pow_mod] at h1
  exact h1

theorem powMod_lt (a e m : Nat) (h : 2 ≤ m) : powMod a e m < m := powLoop_lt _ _ _ _ _ (by omega)

theorem powMod_zmod (a e m : Nat) (h : 2 ≤ m) : ((powMod a e m : Nat) : ZMod m) = (a : ZMod m) ^ e := by
  rw [powMod_eq a e m h, ZMod.natCast_mod, Nat.cast_pow]

/-- The Euclidean loop's end: a coefficient below m that inverts u, once gcd(r0, r1) = 1 and the coefficients are right. -/
theorem invLoop_spec (m u fuel r0 r1 t0 t1 : Nat) (hm : 0 < m) (hf : r1 < fuel) (hg : Nat.gcd r0 r1 = 1)
    (h0 : t0 < m) (h1 : t1 < m) (e0 : (m : Int) ∣ t0 * u - r0) (e1 : (m : Int) ∣ t1 * u - r1) :
    invLoop m fuel r0 r1 t0 t1 < m ∧ (m : Int) ∣ (invLoop m fuel r0 r1 t0 t1 : Nat) * u - 1 := by
  induction fuel generalizing r0 r1 t0 t1 with
  | zero => omega
  | succ fuel ih =>
    simp only [invLoop]
    split
    · rename_i hz
      subst hz
      rw [Nat.gcd_zero_right] at hg
      subst hg
      exact ⟨h0, by simpa using e0⟩
    · rename_i hz
      have hlt : r0 % r1 < r1 := Nat.mod_lt _ (by omega)
      refine ih _ _ _ _ (by omega) ?_ h1 (red_lt _ _ hm) e1 ?_
      · rw [Nat.gcd_comm, ← Nat.gcd_rec, Nat.gcd_comm]
        exact hg
      · have hd : (r0 : Int) = r1 * (r0 / r1 : Nat) + (r0 % r1 : Nat) := by exact_mod_cast (Nat.div_add_mod r0 r1).symm
        have hr : (m : Int) ∣ ((t0 : Int) - (r0 / r1 : Nat) * t1) - (red m ((t0 : Int) - (r0 / r1 : Nat) * t1) : Nat) := by
          rw [red_cast _ _ hm]
          exact Int.dvd_self_sub_emod
        have hs := dvd_sub e0 (dvd_mul_of_dvd_right e1 ((r0 / r1 : Nat) : Int))
        have := dvd_sub hs (dvd_mul_of_dvd_left hr (u : Int))
        have he : (t0 : Int) * u - r0 - (r0 / r1 : Nat) * (t1 * u - r1)
            - ((t0 : Int) - (r0 / r1 : Nat) * t1 - (red m ((t0 : Int) - (r0 / r1 : Nat) * t1) : Nat)) * u
            = (red m ((t0 : Int) - (r0 / r1 : Nat) * t1) : Nat) * u - (r0 % r1 : Nat) := by
          rw [show (t0 : Int) * u - r0 = t0 * u - (r1 * (r0 / r1 : Nat) + (r0 % r1 : Nat)) by rw [← hd]]
          ring
        rw [he] at this
        exact this

/-- `inv_mod`: the true inverse or DOMAIN(0x50) (40_modular.md R166). -/
theorem invMod_spec (a m : Nat) (hm : 2 ≤ m) :
    (Nat.gcd a m = 1 → ∃ x, invMod a m = .ok x ∧ 1 ≤ x ∧ x < m ∧ a * x % m = 1) ∧
    (Nat.gcd a m ≠ 1 → invMod a m = .error .noInverse) := by
  have hg : Nat.gcd (a % m) m = Nat.gcd a m := (Nat.gcd_rec m a).symm ▸ Nat.gcd_comm m a
  constructor
  · intro h
    have hu : a % m ≠ 0 := by
      intro h0
      rw [h0, Nat.gcd_zero_left] at hg
      omega
    have hlt := Nat.mod_lt a (by omega : 0 < m)
    obtain ⟨h1, h2⟩ := invLoop_spec m (a % m) m m (a % m) 0 1 (by omega) hlt (by rw [Nat.gcd_comm, hg, h])
      (by omega) (by omega) (by simp) (by simp)
    set x := invLoop m m m (a % m) 0 1 with hx
    have h3 : (a * x) % m = 1 := by
      have h4 : ((x : Int) * (a % m : Nat)) % m = 1 % m := ((Int.modEq_iff_dvd).2 h2).symm
      have h5 : (x * (a % m)) % m = 1 % m := by exact_mod_cast h4
      rw [Nat.mul_mod_mod, Nat.mul_comm, Nat.mod_eq_of_lt (by omega : 1 < m)] at h5
      exact h5
    refine ⟨x, by simp [invMod, hu, hg, h, hx], ?_, h1, h3⟩
    rcases Nat.eq_zero_or_pos x with h0 | h0
    · rw [h0] at h3
      simp at h3
    · exact h0
  · intro h
    simp only [invMod]
    split
    · rfl
    · rw [if_pos (by rw [hg]; exact h)]

/-- For a prime modulus the inverse is Fermat's power (R166). -/
theorem invMod_prime (a p : Nat) (hp : p.Prime) (h : ¬ p ∣ a) :
    ∃ x, invMod a p = .ok x ∧ x < p ∧ (x : ZMod p) = (a : ZMod p)⁻¹ ∧ (a : ZMod p) ≠ 0 := by
  have : Fact p.Prime := ⟨hp⟩
  have ha : (a : ZMod p) ≠ 0 := by rwa [Ne, ZMod.natCast_eq_zero_iff]
  obtain ⟨x, h1, -, h2, h3⟩ := (invMod_spec a p hp.two_le).1 ((Nat.Prime.coprime_iff_not_dvd hp).2 h).symm
  refine ⟨x, h1, h2, ?_, ha⟩
  have h4 : ((a * x : Nat) : ZMod p) = ((1 : Nat) : ZMod p) := by
    rw [ZMod.natCast_eq_natCast_iff', h3, Nat.mod_eq_of_lt hp.one_lt]
  push_cast at h4
  exact eq_inv_of_mul_eq_one_right h4

end Sys2Proof.Laws
end

