-- ==== Sys2Proof/Laws/Memory.lean ====
section
/-! SUPPORT. The octet buffer's memory laws: read after write, the canonical form, and equality of memories that read alike. -/

namespace Sys2Proof.Laws

open Sys2Proof.Machine

theorem memory_read_write_same (m : Memory) (a : Nat) (b : Byte) (h : Memory.wf m) :
    Memory.read (Memory.write m a b) a = b := by
  induction m with
  | nil =>
    simp only [Memory.write]
    split
    · rename_i hb
      exact hb.symm
    · simp [Memory.read]
  | cons c rest ih =>
    obtain ⟨hp, hz⟩ := h
    obtain ⟨hk, hr⟩ := List.pairwise_cons.1 hp
    have hrest : ∀ l : List Host.Cell, (∀ c ∈ l, a < c.1) → Memory.read l a = 0 := by
      intro l hl
      induction l with
      | nil => rfl
      | cons d l ihl =>
        have h1 := hl d (by simp)
        have h2 : d.1 ≠ a := by omega
        simp only [Memory.read, h2, if_false]
        exact ihl (fun c hc => hl c (by simp [hc]))
    obtain ⟨k, v⟩ := c
    simp only [Memory.write]
    split
    · rename_i hlt
      split
      · rename_i hb
        rw [hb]
        refine hrest _ ?_
        intro d hd
        rcases List.mem_cons.1 hd with rfl | hd
        · exact hlt
        · exact lt_trans hlt (hk d hd)
      · simp [Memory.read]
    · split
      · rename_i heq
        split
        · rename_i hb
          rw [hb]
          exact hrest _ (fun d hd => by have := hk d hd; simp only at this; omega)
        · simp [Memory.read]
      · rename_i h1 h2
        have h3 : k ≠ a := fun e => h2 e.symm
        simp only [Memory.read, h3, if_false]
        exact ih ⟨hr, fun c hc => hz c (by simp [hc])⟩

theorem memory_read_write_other (m : Memory) (a a' : Nat) (b : Byte) (h : a' ≠ a) :
    Memory.read (Memory.write m a b) a' = Memory.read m a' := by
  induction m with
  | nil =>
    simp only [Memory.write]
    split <;> simp [Memory.read, h.symm]
  | cons c rest ih =>
    obtain ⟨k, v⟩ := c
    simp only [Memory.write]
    split
    · split
      · rfl
      · simp [Memory.read, h.symm]
    · split
      · rename_i heq
        subst heq
        split <;> simp [Memory.read, h.symm]
      · simp only [Memory.read, ih]

/-- Every index a write lists was listed before or is the one written. -/
theorem memory_write_mem (m : Memory) (a : Nat) (b : Byte) :
    ∀ c ∈ Memory.write m a b, c ∈ m ∨ (c = (a, b) ∧ b ≠ 0) := by
  induction m with
  | nil =>
    intro c hc
    simp only [Memory.write] at hc
    split at hc
    · simp at hc
    · rename_i hb
      exact .inr ⟨List.mem_singleton.1 hc, hb⟩
  | cons d rest ih =>
    obtain ⟨k, v⟩ := d
    intro c hc
    simp only [Memory.write] at hc
    split at hc
    · split at hc
      · exact .inl hc
      · rename_i hb
        rcases List.mem_cons.1 hc with rfl | hc
        · exact .inr ⟨rfl, hb⟩
        · exact .inl hc
    · split at hc
      · split at hc
        · exact .inl (by simp [hc])
        · rename_i hb
          rcases List.mem_cons.1 hc with rfl | hc
          · exact .inr ⟨rfl, hb⟩
          · exact .inl (by simp [hc])
      · rcases List.mem_cons.1 hc with rfl | hc
        · exact .inl (by simp)
        · rcases ih c hc with h | h
          · exact .inl (by simp [h])
          · exact .inr h

/-- A write keeps the canonical form. -/
theorem memory_write_wf (m : Memory) (a : Nat) (b : Byte) (h : Memory.wf m) : Memory.wf (Memory.write m a b) := by
  refine ⟨?_, ?_⟩
  · induction m with
    | nil =>
      simp only [Memory.write]
      split <;> simp
    | cons d rest ih =>
      obtain ⟨k, v⟩ := d
      obtain ⟨hp, hz⟩ := h
      obtain ⟨hk, hr⟩ := List.pairwise_cons.1 hp
      simp only [Memory.write]
      split
      · rename_i hlt
        split
        · exact hp
        · refine List.pairwise_cons.2 ⟨?_, hp⟩
          intro c hc
          rcases List.mem_cons.1 hc with rfl | hc
          · exact hlt
          · exact lt_trans hlt (hk c hc)
      · split
        · rename_i heq
          split
          · exact hr
          · refine List.pairwise_cons.2 ⟨fun c hc => ?_, hr⟩
            have := hk c hc
            simp only at this ⊢
            omega
        · rename_i h1 h2
          refine List.pairwise_cons.2 ⟨fun c hc => ?_, ih ⟨hr, fun c hc => hz c (by simp [hc])⟩⟩
          rcases memory_write_mem rest a b c hc with hm | ⟨rfl, -⟩
          · exact hk c hm
          · simp only; omega
  · intro c hc
    rcases memory_write_mem m a b c hc with hm | ⟨rfl, hb⟩
    · exact h.2 c hm
    · exact hb

theorem memory_reset_wf : Memory.wf State.reset.ob := by decide

/-- A canonical memory lists exactly the bytes that do not read 0. -/
theorem memory_mem_iff (m : Memory) (h : Memory.wf m) (a : Nat) (b : Byte) :
    (a, b) ∈ m ↔ Memory.read m a = b ∧ b ≠ 0 := by
  induction m with
  | nil =>
    simp only [List.not_mem_nil, Memory.read, false_iff, not_and, not_not]
    exact fun e => e.symm
  | cons c rest ih =>
    obtain ⟨k, v⟩ := c
    obtain ⟨hp, hz⟩ := h
    obtain ⟨hk, hr⟩ := List.pairwise_cons.1 hp
    have ih' := ih ⟨hr, fun c hc => hz c (by simp [hc])⟩
    have hv : v ≠ 0 := hz (k, v) (by simp)
    simp only [List.mem_cons, Prod.mk.injEq, Memory.read]
    split
    · rename_i e
      constructor
      · rintro (⟨rfl, rfl⟩ | hm)
        · exact ⟨rfl, hv⟩
        · have := hk _ hm
          simp only at this
          omega
      · rintro ⟨rfl, -⟩
        exact .inl ⟨e.symm, rfl⟩
    · rename_i e
      rw [ih']
      constructor
      · rintro (⟨rfl, -⟩ | hm)
        · exact absurd rfl e
        · exact hm
      · exact .inr

end Sys2Proof.Laws
end

