-- ==== Sys2Proof/Laws/Completion.lean ====
section
/-! SUPPORT. How a command ends: the checks of 00_scope.md R13, and the frame of an error, of a V, a PT and an octet-buffer write (60_exceptions.md R345). -/

namespace Sys2Proof.Laws
open Sys2Proof.Machine

@[simp] theorem require_pos {c : Prop} [Decidable c] (e : CmdError) (h : c) : require c e = .ok () := if_pos h

@[simp] theorem require_neg {c : Prop} [Decidable c] (e : CmdError) (h : ¬ c) : require c e = .error e := if_neg h

theorem require_eq_ok {c : Prop} [Decidable c] {e : CmdError} {u : Unit} : require c e = .ok u ↔ c := by
  unfold require; split <;> simp_all

theorem require_eq_error {c : Prop} [Decidable c] {e f : CmdError} : require c e = .error f ↔ ¬ c ∧ e = f := by
  unfold require; split <;> simp_all

@[simp] theorem bind_ok {α β : Type} (a : α) (k : α → Except CmdError β) : ((Except.ok a : Except CmdError α) >>= k) = k a := rfl

@[simp] theorem bind_error {α β : Type} (e : CmdError) (k : α → Except CmdError β) :
    ((Except.error e : Except CmdError α) >>= k) = .error e := rfl

theorem bind_eq_ok {α β : Type} {x : Except CmdError α} {k : α → Except CmdError β} {b : β} :
    (x >>= k) = .ok b ↔ ∃ a, x = .ok a ∧ k a = .ok b := by
  cases x <;> simp

theorem bind_eq_error {α β : Type} {x : Except CmdError α} {k : α → Except CmdError β} {e : CmdError} :
    (x >>= k) = .error e ↔ x = .error e ∨ ∃ a, x = .ok a ∧ k a = .error e := by
  cases x <;> simp

@[simp] theorem pure_ok {α : Type} (a : α) : (pure a : Except CmdError α) = .ok a := rfl

/-! How a command ends, from what its checks and its computation gave. -/

theorem failsWith_of {i : Instr} {s : State} {e : CmdError} (h : exec i s = complete s (.error e)) :
    FailsWith i s e.cls.code e.info :=
  ⟨s.fail e, h, ⟨rfl, rfl, rfl, rfl⟩, ⟨rfl, rfl, rfl, rfl, rfl, rfl, rfl, rfl⟩, rfl, fun _ _ => rfl, fun _ _ => rfl, rfl,
    fun _ => rfl⟩

theorem writesV_of {i : Instr} {s : State} {d : Fin 16} {x : Nat} (h : exec i s = complete s (.ok (.setV d x))) :
    WritesV i s d x :=
  ⟨s.succeed (.setV d x), h, ⟨rfl, rfl, rfl, rfl⟩, getV_setV_same s d x, ⟨rfl, rfl, rfl, rfl, rfl, rfl, rfl, rfl⟩, rfl,
    fun j hj => getV_setV_ne s d j x (by simpa using hj), fun _ _ => rfl, rfl, fun _ => rfl⟩

theorem writesPt_of {i : Instr} {s : State} {d : Fin 8} {q : PtReg} (h : exec i s = complete s (.ok (.setPt d q))) :
    WritesPt i s d q :=
  ⟨s.succeed (.setPt d q), h, ⟨rfl, rfl, rfl, rfl⟩, getPt_setPt_same s d q, ⟨rfl, rfl, rfl, rfl, rfl, rfl, rfl, rfl⟩, rfl,
    fun _ _ => rfl, fun j hj => getPt_setPt_ne s d j q (by simpa using hj), rfl, fun _ => rfl⟩

theorem setObByte_obByte (s : State) (h : Memory.wf s.ob) (j k : Nat) (b : Byte) :
    (s.setObByte j b).obByte k = if k = j ∧ j < s.cfg.obSize then b else s.obByte k := by
  unfold State.setObByte
  split
  · rename_i hj
    by_cases hk : k = j
    · subst hk
      simp [State.obByte, hj, memory_read_write_same _ _ _ h]
    · simp [State.obByte, hk, memory_read_write_other _ _ _ _ hk]
  · rename_i hj
    simp [hj]

theorem setObByte_wf (s : State) (h : Memory.wf s.ob) (j : Nat) (b : Byte) : Memory.wf (s.setObByte j b).ob := by
  unfold State.setObByte
  split
  · exact memory_write_wf _ _ _ h
  · exact h

theorem setObByte_obOk (s : State) (h : s.ObOk) (j : Nat) (b : Byte) : (s.setObByte j b).ObOk := by
  refine ⟨setObByte_wf s h.form j b, ?_⟩
  intro c hc
  rw [setObByte_cfg]
  unfold State.setObByte at hc
  split at hc
  · rename_i hj
    rcases memory_write_mem _ _ _ c hc with h1 | ⟨rfl, -⟩
    · exact h.size c h1
    · exact hj
  · exact h.size c hc

/-- Filling the buffer from a string, the bytes below n done (R292). -/
theorem fill_loop (str : List Byte) (n : Nat) (s : State) (h : s.ObOk) (hn : n ≤ s.cfg.obSize) :
    let t := (List.range n).foldl (fun t j => t.setObByte j (str.getD j 0)) s
    t.ObOk ∧ t = { s with ob := t.ob } ∧ ∀ k, t.obByte k = if k < n then str.getD k 0 else s.obByte k := by
  induction n with
  | zero => exact ⟨h, rfl, by simp⟩
  | succ n ih =>
    obtain ⟨h1, h2, h3⟩ := ih (by omega)
    simp only [List.range_succ, List.foldl_append, List.foldl_cons, List.foldl_nil]
    generalize (List.range n).foldl (fun t j => t.setObByte j (str.getD j 0)) s = t at h1 h2 h3 ⊢
    refine ⟨setObByte_obOk t h1 _ _, ?_, ?_⟩
    · rw [h2]
      unfold State.setObByte
      split <;> rfl
    · intro k
      have hc : t.cfg = s.cfg := by rw [h2]
      rw [setObByte_obByte t h1.form, h3, hc]
      by_cases hk : k = n
      · subst hk
        simp [show k < s.cfg.obSize by omega]
      · simp only [hk, false_and, if_false]
        congr 1
        simp only [eq_iff_iff]
        omega

/-- ENC's write (R292): the string, then zeros, and the length. -/
theorem fillOb_spec (s : State) (str : List Byte) (h : s.ObOk) (hl : str.length ≤ s.cfg.obSize)
    (h16 : str.length < 2 ^ 16) :
    (s.fillOb str).ObOk ∧ s.fillOb str = { s with ob := (s.fillOb str).ob, oblen := (s.fillOb str).oblen } ∧
      (s.fillOb str).oblen.toNat = str.length ∧ ∀ k, (s.fillOb str).obByte k = str.getD k 0 := by
  obtain ⟨h1, h2, h3⟩ := fill_loop str s.cfg.obSize s h le_rfl
  unfold State.fillOb
  generalize (List.range s.cfg.obSize).foldl (fun t j => t.setObByte j (str.getD j 0)) s = t at h1 h2 h3 ⊢
  have hc : t.cfg = s.cfg := by rw [h2]
  refine ⟨⟨h1.form, h1.size⟩, ?_, ?_, ?_⟩
  · rw [h2]
  · simp only [BitVec.toNat_ofNat]
    omega
  · intro k
    have e : State.obByte { t with oblen := BitVec.ofNat 16 str.length } k = t.obByte k := rfl
    rw [e, h3]
    split
    · rfl
    · rename_i hk
      rw [List.getD_eq_default _ _ (by omega)]
      unfold State.obByte
      rw [if_neg hk]

theorem writesOb_of {i : Instr} {s : State} {str : List Byte} (ho : s.ObOk) (hl : str.length ≤ s.cfg.obSize)
    (h16 : str.length < 2 ^ 16) (h : exec i s = complete s (.ok (.setOb str))) : WritesOb i s str := by
  obtain ⟨-, h2, h3, h4⟩ := fillOb_spec s str ho hl h16
  refine ⟨s.succeed (.setOb str), h, ⟨rfl, rfl, rfl, rfl⟩, h3, h4, ?_, ?_, ?_, ?_⟩
  · simp only [State.succeed, State.apply]
    rw [h2]
    exact ⟨rfl, rfl, rfl, rfl, rfl, rfl, rfl, rfl⟩
  · simp only [State.succeed, State.apply]
    rw [h2]
    rfl
  · intro j _
    simp only [State.succeed, State.apply]
    rw [h2]
    rfl
  · intro j _
    simp only [State.succeed, State.apply]
    rw [h2]
    rfl

/-- ENC's write touches OB and OBLEN only. -/
theorem fillOb_frame (s : State) (str : List Byte) : ∃ ob n, s.fillOb str = { s with ob := ob, oblen := n } := by
  have : ∀ (l : List Nat) (t : State), ∃ ob, l.foldl (fun t j => t.setObByte j (str.getD j 0)) t = { t with ob := ob } := by
    intro l
    induction l with
    | nil => exact fun t => ⟨t.ob, rfl⟩
    | cons j l ih =>
      intro t
      obtain ⟨ob, h⟩ := ih (t.setObByte j (str.getD j 0))
      refine ⟨ob, ?_⟩
      rw [List.foldl_cons, h]
      unfold State.setObByte
      split <;> rfl
  obtain ⟨ob, h⟩ := this (List.range s.cfg.obSize) s
  exact ⟨ob, BitVec.ofNat 16 str.length, by rw [State.fillOb, h]⟩

end Sys2Proof.Laws
end

