-- ==== Sys2Proof/Laws/Operands.lean ====
section
/-! SUPPORT. Laws of the operand forms: the curve equation and the Jacobian equation as congruences, and what each prologue and operand check answers (40_modular.md R160, 41_curve_group.md R200, R201, R205). -/

namespace Sys2Proof.Laws
open Sys2Proof.Machine

/-- An exact difference is 0 modulo p exactly when its two sides agree modulo p. -/
theorem sub_emod_zero (l r p : Nat) : ((l : Int) - r) % p = 0 ↔ l % p = r % p := by
  rw [← Int.dvd_iff_emod_eq_zero, ← Int.modEq_iff_dvd, Int.ModEq]
  constructor
  · intro h
    exact_mod_cast h.symm
  · intro h
    exact_mod_cast h.symm

theorem onCurveAff_iff (c : CurveBlock) (x y : Nat) : onCurveAff c x y = true ↔ OnCurve c x y := by
  have e : ((y : Int) * y - ((x : Int) * x * x + c.a * x + c.b)) = ((y ^ 2 : Nat) : Int) - ((x ^ 3 + c.a * x + c.b : Nat) : Int) := by
    push_cast
    ring
  simp only [onCurveAff, OnCurve, Bool.and_eq_true, decide_eq_true_eq, e, sub_emod_zero, and_assoc]

theorem validJac_iff (c : CurveBlock) (t : JacPoint) : validJac c t = true ↔ OnCurveJac c t := by
  have e : ((t.y : Int) * t.y - ((t.x : Int) * t.x * t.x + c.a * t.x * t.z ^ 4 + c.b * t.z ^ 6))
      = ((t.y ^ 2 : Nat) : Int) - ((t.x ^ 3 + c.a * t.x * t.z ^ 4 + c.b * t.z ^ 6 : Nat) : Int) := by
    push_cast
    ring
  simp only [validJac, OnCurveJac, Bool.and_eq_true, Bool.or_eq_true, decide_eq_true_eq, e, sub_emod_zero, and_assoc,
    ne_eq]
  tauto

/-- A valid affine operand passes its form check and its value check (R200). -/
theorem affOperand_checks {s : State} {i : Fin 8} {q : AffPoint} (h : AffOperand s i q) (e f : CmdError) :
    formAff s i e = .ok () ∧ valAff s i f = .ok q := by
  rcases h with ⟨h1, rfl⟩ | ⟨h1, rfl, h2⟩
  · exact ⟨require_pos _ (.inl h1), if_pos h1⟩
  · refine ⟨require_pos _ (.inr h1), ?_⟩
    rw [valAff, if_neg (by simp [h1]), require_pos _ ((onCurveAff_iff _ _ _).2 h2)]
    rfl

/-- What the value check passes is a valid operand, once the form is affine (R200). -/
theorem affOperand_of_checks {s : State} {i : Fin 8} {q : AffPoint} {e : CmdError} (hf : AffForm s i)
    (h : valAff s i e = .ok q) : AffOperand s i q := by
  unfold valAff at h
  split at h
  · rename_i h1
    cases h
    exact .inl ⟨h1, rfl⟩
  · rename_i h1
    rw [bind_eq_ok] at h
    obtain ⟨u, h2, h3⟩ := h
    cases h3
    exact .inr ⟨hf.resolve_left h1, rfl, (onCurveAff_iff _ _ _).1 (require_eq_ok.1 h2)⟩

/-- An affine operand off the curve fails the value check (R200). -/
theorem valAff_off {s : State} {i : Fin 8} (e : CmdError) (h1 : (s.getPt i).f = .aff)
    (h2 : ¬ OnCurve s.curve (s.getPt i).x (s.getPt i).y) : valAff s i e = .error e := by
  rw [valAff, if_neg (by simp [h1]), require_neg _ (fun h => h2 ((onCurveAff_iff _ _ _).1 h))]
  rfl

/-- A valid Jacobian operand passes its form check and its value check (R201). -/
theorem jacOperand_checks {s : State} {i : Fin 8} {t : JacPoint} (h : JacOperand s i t) (e f : CmdError) :
    formJac s i e = .ok () ∧ valJac s i f = .ok t := by
  obtain ⟨h1, rfl, h2⟩ := h
  refine ⟨require_pos _ h1, ?_⟩
  unfold valJac PtReg.triple
  rw [require_pos _ ((validJac_iff _ _).2 h2)]
  rfl

theorem valJac_off {s : State} {i : Fin 8} (e : CmdError)
    (h : ¬ OnCurveJac s.curve ⟨(s.getPt i).x, (s.getPt i).y, (s.getPt i).z⟩) : valJac s i e = .error e := by
  unfold valJac PtReg.triple
  rw [require_neg _ (fun h2 => h ((validJac_iff _ _).1 h2))]
  rfl

theorem curvePrologue_ok {s : State} (h : s.curveOk = true) : curvePrologue s = .ok () := require_pos _ h

theorem curvePrologue_error {s : State} (h : s.curveOk = false) : curvePrologue s = .error .noCurve :=
  require_neg _ (by simp [h])

theorem modPrologue_ok {s : State} {m : ModSel} (h1 : s.modulus m % 2 = 1) (h2 : 3 ≤ s.modulus m) :
    modPrologue s m = .ok (s.modulus m) := by
  rw [modPrologue, require_pos _ (by omega)]
  rfl

theorem modPrologue_error {s : State} {m : ModSel} (h : s.modulus m % 2 = 0 ∨ s.modulus m < 3) :
    modPrologue s m = .error .badModulus := by
  rw [modPrologue, require_neg _ (not_not.2 h)]
  rfl

theorem affOperandA_ok {s : State} {a : Fin 8} {q : AffPoint} (hc : s.curveOk = true) (h : AffOperand s a q) :
    affOperandA s a = .ok q := by
  obtain ⟨h1, h2⟩ := affOperand_checks h .formA .pointA
  rw [affOperandA, curvePrologue_ok hc, bind_ok, h1, bind_ok, h2]

theorem jacOperandA_ok {s : State} {a : Fin 8} {t : JacPoint} (hc : s.curveOk = true) (h : JacOperand s a t) :
    jacOperandA s a = .ok t := by
  obtain ⟨h1, h2⟩ := jacOperand_checks h .formA .pointA
  rw [jacOperandA, curvePrologue_ok hc, bind_ok, h1, bind_ok, h2]

theorem affOperands_ok {s : State} {a b : Fin 8} {q r : AffPoint} (hc : s.curveOk = true) (ha : AffOperand s a q)
    (hb : AffOperand s b r) : affOperands s a b = .ok (q, r) := by
  obtain ⟨h1, h2⟩ := affOperand_checks ha .formA .pointA
  obtain ⟨h3, h4⟩ := affOperand_checks hb .formB .pointB
  rw [affOperands, curvePrologue_ok hc, bind_ok, h1, bind_ok, h3, bind_ok, h2, bind_ok, h4, bind_ok, pure_ok]

theorem jacOperands_ok {s : State} {a b : Fin 8} {t u : JacPoint} (hc : s.curveOk = true) (ha : JacOperand s a t)
    (hb : JacOperand s b u) : jacOperands s a b = .ok (t, u) := by
  obtain ⟨h1, h2⟩ := jacOperand_checks ha .formA .pointA
  obtain ⟨h3, h4⟩ := jacOperand_checks hb .formB .pointB
  rw [jacOperands, curvePrologue_ok hc, bind_ok, h1, bind_ok, h3, bind_ok, h2, bind_ok, h4, bind_ok, pure_ok]

theorem formAff_bad {s : State} {i : Fin 8} (e : CmdError) (h : ¬ AffForm s i) : formAff s i e = .error e :=
  require_neg _ h

theorem formAff_good {s : State} {i : Fin 8} (e : CmdError) (h : AffForm s i) : formAff s i e = .ok () :=
  require_pos _ h

theorem formJac_bad {s : State} {i : Fin 8} (e : CmdError) (h : (s.getPt i).f ≠ .jac) : formJac s i e = .error e :=
  require_neg _ h

theorem formJac_good {s : State} {i : Fin 8} (e : CmdError) (h : (s.getPt i).f = .jac) : formJac s i e = .ok () :=
  require_pos _ h

/-- The other candidate of R260, for a candidate r below p. -/
theorem red_neg (p r : Nat) (h : r < p) : red p ((p : Int) - r) = if r = 0 then 0 else p - r := by
  have e : ((p : Int) - r) = ((p - r : Nat) : Int) := by omega
  rw [e, red_natCast]
  split
  · subst r
    simp
  · exact Nat.mod_eq_of_lt (by omega)

theorem affOperandA_noCurve {s : State} {a : Fin 8} (h : s.curveOk = false) : affOperandA s a = .error .noCurve := by
  simp [affOperandA, curvePrologue_error h]

theorem jacOperandA_noCurve {s : State} {a : Fin 8} (h : s.curveOk = false) : jacOperandA s a = .error .noCurve := by
  simp [jacOperandA, curvePrologue_error h]

theorem affOperands_noCurve {s : State} {a b : Fin 8} (h : s.curveOk = false) : affOperands s a b = .error .noCurve := by
  simp [affOperands, curvePrologue_error h]

theorem jacOperands_noCurve {s : State} {a b : Fin 8} (h : s.curveOk = false) : jacOperands s a b = .error .noCurve := by
  simp [jacOperands, curvePrologue_error h]

theorem affOperandA_form {s : State} {a : Fin 8} (h : s.curveOk = true) (h2 : ¬ AffForm s a) : affOperandA s a = .error .formA := by
  simp [affOperandA, curvePrologue_ok h, formAff_bad _ h2]

theorem jacOperandA_form {s : State} {a : Fin 8} (h : s.curveOk = true) (h2 : (s.getPt a).f ≠ .jac) : jacOperandA s a = .error .formA := by
  simp [jacOperandA, curvePrologue_ok h, formJac_bad _ h2]

theorem affOperandA_off {s : State} {a : Fin 8} (h : s.curveOk = true) (h2 : OffCurve s a) : affOperandA s a = .error .pointA := by
  simp [affOperandA, curvePrologue_ok h, formAff_good _ (Or.inr h2.1), valAff_off _ h2.1 h2.2]

theorem jacOperandA_off {s : State} {a : Fin 8} (h : s.curveOk = true) (h2 : OffCurveJac s a) : jacOperandA s a = .error .pointA := by
  simp [jacOperandA, curvePrologue_ok h, formJac_good _ h2.1, valJac_off _ h2.2]

/-- A valid affine operand is on the curve. -/
theorem affOperand_on {s : State} {i : Fin 8} {q : AffPoint} (h : AffOperand s i q) : q.On s.curve := by
  rcases h with ⟨-, rfl⟩ | ⟨-, rfl, h⟩
  · trivial
  · exact h

/-- Two inverses agree modulo p. -/
theorem inverse_unique {z p zi x : Nat} (hp : 2 ≤ p) (h : z * zi % p = 1) (h2 : z * x % p = 1) : zi ≡ x [MOD p] := by
  have hg : Nat.gcd p z = 1 := by
    have : Nat.Coprime z p := Nat.coprime_of_mul_modEq_one zi (by rw [Nat.ModEq, h, Nat.mod_eq_of_lt (by omega)])
    exact this.symm
  exact Nat.ModEq.cancel_left_of_coprime hg (by rw [Nat.ModEq, h, h2])

/-- What has an inverse is coprime to p. -/
theorem gcd_of_inverse {z p zi : Nat} (hp : 2 ≤ p) (h : z * zi % p = 1) : Nat.gcd z p = 1 :=
  Nat.coprime_of_mul_modEq_one zi (by rw [Nat.ModEq, h, Nat.mod_eq_of_lt (by omega)])

theorem two_mul_not_dvd (p y : Nat) (h3 : 3 ≤ p) (hp : p.Prime) (hy : y < p) (h0 : y ≠ 0) : ¬ p ∣ red p (2 * (y : Int)) := by
  have : (2 * (y : Int)) = ((2 * y : Nat) : Int) := by push_cast; ring
  rw [this, red_natCast, Nat.dvd_mod_iff (dvd_refl p), hp.dvd_mul]
  rintro (h | h)
  · have := Nat.le_of_dvd (by norm_num) h; omega
  · have := Nat.le_of_dvd (by omega) h; omega

theorem red_sub_not_dvd (p x y : Nat) (hx : x < p) (hy : y < p) (h0 : x ≠ y) : ¬ p ∣ red p ((y : Int) - x) := by
  intro h
  have h1 := red_cast p ((y : Int) - x) (by omega)
  have h2 : ((red p ((y : Int) - x) : Nat) : Int) % p = 0 := by exact_mod_cast Nat.mod_eq_zero_of_dvd h
  rw [h1, Int.emod_emod_of_dvd _ (dvd_refl _)] at h2
  obtain ⟨k, hk⟩ := Int.dvd_of_emod_eq_zero h2
  have : k = 0 := by
    by_contra hne
    rcases lt_or_gt_of_ne hne with hk0 | hk0
    · nlinarith
    · nlinarith
  subst this
  omega

/-- Over an odd prime, aff_add never fails (41_curve_group.md R207). -/
theorem affAdd_prime (c : CurveBlock) (hp : c.p.Prime) (h3 : 3 ≤ c.p) (q1 q2 : AffPoint) (h1 : q1.On c) (h2 : q2.On c) : ∃ q, affAdd c q1 q2 = .ok q := by
  cases q1 with
  | inf => exact ⟨q2, rfl⟩
  | pt x1 y1 =>
  cases q2 with
  | inf => exact ⟨_, rfl⟩
  | pt x2 y2 =>
    obtain ⟨a1, a2, -⟩ := h1
    obtain ⟨b1, b2, -⟩ := h2
    simp only [affAdd]
    split
    · split
      · rename_i h
        obtain ⟨x, hx, -⟩ := invMod_prime _ _ hp (two_mul_not_dvd c.p y1 h3 hp a2 h.2)
        simp [hx]
      · simp
    · rename_i h
      obtain ⟨x, hx, -⟩ := invMod_prime _ _ hp (red_sub_not_dvd c.p x1 x2 a1 b1 h)
      simp [hx]

end Sys2Proof.Laws
end

