-- ==== Sys2Proof/Laws/Codec.lean ====
section
/-! SUPPORT. Laws of the SEC1 codec: big-endian strings (00_scope.md R14), PSIZE (10_state.md R37) and the strings of ENC in the octet buffer (43_codec.md R292). -/

namespace Sys2Proof.Laws
open Sys2Proof.Machine

@[simp] theorem beBytes_length (k x : Nat) : (beBytes k x).length = k := by simp [beBytes]

theorem beNat_append_one (bs : List Byte) (b : Byte) : beNat (bs ++ [b]) = beNat bs * 256 + b.toNat := by
  simp [beNat, List.foldl_append]

/-- Left padding is undone by reading big-endian (00_scope.md R14). -/
theorem beNat_beBytes (k x : Nat) : beNat (beBytes k x) = x % 256 ^ k := by
  induction k generalizing x with
  | zero => simp [beBytes, beNat, Nat.mod_one]
  | succ k ih =>
    have e : beBytes (k + 1) x = beBytes k (x / 256) ++ [BitVec.ofNat 8 x] := by
      simp only [beBytes, List.range_succ, List.map_append, List.map_cons, List.map_nil]
      congr 1
      · apply List.map_congr_left
        intro j hj
        rw [List.mem_range] at hj
        rw [Nat.div_div_eq_div_mul, ← pow_succ', show k + 1 - 1 - j = k - 1 - j + 1 by omega]
      · simp
    have e2 : (256 : Nat) ^ (k + 1) = 256 * 256 ^ k := by ring
    rw [e, beNat_append_one, ih, BitVec.toNat_ofNat, e2, Nat.mod_mul]
    norm_num
    ring

/-- PSIZE bytes hold every value below P (10_state.md R37). -/
theorem lt_pow_psize (s : State) : s.curve.p < 256 ^ s.psize := by
  have h := lt_two_pow_bitlen s.curve.p
  have : 2 ^ bitlen s.curve.p ≤ 2 ^ (8 * s.psize) := Nat.pow_le_pow_right (by norm_num) (by unfold State.psize; omega)
  rw [show (256 : Nat) = 2 ^ 8 by norm_num, ← pow_mul]
  omega

/-- The longest SEC1 string fits the octet buffer (43_codec.md R290). -/
theorem psize_fits {s : State} (h : Config.Legal s.cfg) (hw : s.WidthOk) : 1 + 2 * s.psize ≤ s.cfg.obSize := by
  have h1 := bitlen_le s.curve.p s.cfg.width (hw.curve .p)
  unfold State.psize Config.obSize
  obtain ⟨h2, -⟩ := h
  omega

theorem obSize_le {c : Config} (h : Config.Legal c) : c.obSize ≤ 257 := by
  unfold Config.obSize
  obtain ⟨-, -, h3, -⟩ := h
  omega

theorem encBytes_length (k : Nat) (sel : Sel) (x y : Nat) :
    (encBytes k sel x y).length = if sel.val = 1 then 1 + k else 1 + 2 * k := by
  unfold encBytes
  split <;> simp <;> omega

/-- A slice of a filled buffer is a slice of the string (R291, R292). -/
theorem obSlice_of_getD {t : State} {str : List Byte} (h : ∀ j, t.obByte j = str.getD j 0) (i n : Nat)
    (hn : i + n ≤ str.length) : t.obSlice i n = (str.drop i).take n := by
  apply List.ext_getElem
  · simp [State.obSlice]; omega
  · intro j h1 h2
    simp only [State.obSlice, List.length_map, List.length_range] at h1
    simp only [State.obSlice, List.getElem_map, List.getElem_range, h, List.getElem_take, List.getElem_drop]
    rw [List.getD_eq_getElem _ _ (by omega)]

end Sys2Proof.Laws
end

