-- ==== Sys2Proof/Laws/Raises.lean ====
section
/-! SUPPORT. What each check and helper can raise (60_exceptions.md R342): one lemma for each. -/

namespace Sys2Proof.Laws
open Sys2Proof.Machine

theorem modPrologue_raises {s : State} {m : ModSel} {e : CmdError} (h : modPrologue s m = .error e) : e = .badModulus := by
  unfold modPrologue at h
  rcases bind_eq_error.1 h with h | ⟨_, _, h⟩
  · exact (require_eq_error.1 h).2.symm
  · cases h

theorem curvePrologue_raises {s : State} {e : CmdError} (h : curvePrologue s = .error e) : e = .noCurve :=
  (require_eq_error.1 h).2.symm

theorem selectorCheck_raises {sel : Sel} {e : CmdError} (h : selectorCheck sel = .error e) : e = .selector :=
  (require_eq_error.1 h).2.symm

theorem formAff_raises {s : State} {i : Fin 8} {e f : CmdError} (h : formAff s i f = .error e) : e = f :=
  (require_eq_error.1 h).2.symm

theorem formJac_raises {s : State} {i : Fin 8} {e f : CmdError} (h : formJac s i f = .error e) : e = f :=
  (require_eq_error.1 h).2.symm

theorem valAff_raises {s : State} {i : Fin 8} {e f : CmdError} (h : valAff s i f = .error e) : e = f := by
  unfold valAff at h
  split at h
  · cases h
  · rcases bind_eq_error.1 h with h | ⟨_, _, h⟩
    · exact (require_eq_error.1 h).2.symm
    · cases h

theorem valJac_raises {s : State} {i : Fin 8} {e f : CmdError} (h : valJac s i f = .error e) : e = f := by
  unfold valJac at h
  rcases bind_eq_error.1 h with h | ⟨_, _, h⟩
  · exact (require_eq_error.1 h).2.symm
  · cases h

theorem affOperandA_raises {s : State} {a : Fin 8} {e : CmdError} (h : affOperandA s a = .error e) :
    e = .noCurve ∨ e = .formA ∨ e = .pointA := by
  unfold affOperandA at h
  rcases bind_eq_error.1 h with h | ⟨_, _, h⟩
  · exact .inl (curvePrologue_raises h)
  rcases bind_eq_error.1 h with h | ⟨_, _, h⟩
  · exact .inr (.inl (formAff_raises h))
  · exact .inr (.inr (valAff_raises h))

theorem jacOperandA_raises {s : State} {a : Fin 8} {e : CmdError} (h : jacOperandA s a = .error e) :
    e = .noCurve ∨ e = .formA ∨ e = .pointA := by
  unfold jacOperandA at h
  rcases bind_eq_error.1 h with h | ⟨_, _, h⟩
  · exact .inl (curvePrologue_raises h)
  rcases bind_eq_error.1 h with h | ⟨_, _, h⟩
  · exact .inr (.inl (formJac_raises h))
  · exact .inr (.inr (valJac_raises h))

theorem affOperands_raises {s : State} {a b : Fin 8} {e : CmdError} (h : affOperands s a b = .error e) :
    e = .noCurve ∨ e = .formA ∨ e = .formB ∨ e = .pointA ∨ e = .pointB := by
  unfold affOperands at h
  rcases bind_eq_error.1 h with h | ⟨_, _, h⟩
  · exact .inl (curvePrologue_raises h)
  rcases bind_eq_error.1 h with h | ⟨_, _, h⟩
  · exact .inr (.inl (formAff_raises h))
  rcases bind_eq_error.1 h with h | ⟨_, _, h⟩
  · exact .inr (.inr (.inl (formAff_raises h)))
  rcases bind_eq_error.1 h with h | ⟨_, _, h⟩
  · exact .inr (.inr (.inr (.inl (valAff_raises h))))
  rcases bind_eq_error.1 h with h | ⟨_, _, h⟩
  · exact .inr (.inr (.inr (.inr (valAff_raises h))))
  · cases h

theorem jacOperands_raises {s : State} {a b : Fin 8} {e : CmdError} (h : jacOperands s a b = .error e) :
    e = .noCurve ∨ e = .formA ∨ e = .formB ∨ e = .pointA ∨ e = .pointB := by
  unfold jacOperands at h
  rcases bind_eq_error.1 h with h | ⟨_, _, h⟩
  · exact .inl (curvePrologue_raises h)
  rcases bind_eq_error.1 h with h | ⟨_, _, h⟩
  · exact .inr (.inl (formJac_raises h))
  rcases bind_eq_error.1 h with h | ⟨_, _, h⟩
  · exact .inr (.inr (.inl (formJac_raises h)))
  rcases bind_eq_error.1 h with h | ⟨_, _, h⟩
  · exact .inr (.inr (.inr (.inl (valJac_raises h))))
  rcases bind_eq_error.1 h with h | ⟨_, _, h⟩
  · exact .inr (.inr (.inr (.inr (valJac_raises h))))
  · cases h

theorem invMod_raises {x m : Nat} {e : CmdError} (h : invMod x m = .error e) : e = .noInverse := by
  simp only [invMod] at h
  split at h
  · cases h; rfl
  · split at h
    · cases h; rfl
    · cases h

theorem affAdd_raises {c : CurveBlock} {q r : AffPoint} {e : CmdError} (h : affAdd c q r = .error e) : e = .noInverse := by
  cases q <;> cases r <;> simp only [affAdd] at h
  · cases h
  · cases h
  · cases h
  · split at h
    · split at h
      · rcases bind_eq_error.1 h with h | ⟨_, _, h⟩
        · exact invMod_raises h
        · cases h
      · cases h
    · rcases bind_eq_error.1 h with h | ⟨_, _, h⟩
      · exact invMod_raises h
      · cases h

theorem affOf_raises {c : CurveBlock} {t : JacPoint} {e : CmdError} (h : affOf c t = .error e) : e = .noInverse := by
  unfold affOf at h
  split at h
  · cases h
  · rcases bind_eq_error.1 h with h | ⟨_, _, h⟩
    · exact invMod_raises h
    · cases h

theorem yRoots_raises {c : CurveBlock} {x : Nat} {e : CmdError} (h : yRoots c x = .error e) : e = .xRange ∨ e = .noY := by
  unfold yRoots at h
  split at h
  · cases h
    exact .inl rfl
  · split at h
    · cases h
      exact .inr rfl
    · cases h

theorem selectRoot_raises {r : Nat × Nat} {f : Nat → Bool} {e : CmdError} (h : selectRoot r f = .error e) : e = .noRoot := by
  unfold selectRoot at h
  split at h
  · cases h
  · split at h
    · cases h
    · cases h; rfl

theorem checkCurve_raises {c : CurveBlock} {w : Bool} {e : CmdError} (h : checkCurve c w = .error e) :
    e = .curveP ∨ e = .curveRange ∨ e = .singular ∨ e = .curveG ∨ e = .curveN ∨ e = .curveOrder := by
  unfold checkCurve at h
  rcases bind_eq_error.1 h with h | ⟨_, _, h⟩
  · exact .inl (require_eq_error.1 h).2.symm
  rcases bind_eq_error.1 h with h | ⟨_, _, h⟩
  · exact .inr (.inl (require_eq_error.1 h).2.symm)
  rcases bind_eq_error.1 h with h | ⟨_, _, h⟩
  · exact .inr (.inr (.inl (require_eq_error.1 h).2.symm))
  rcases bind_eq_error.1 h with h | ⟨_, _, h⟩
  · exact .inr (.inr (.inr (.inl (require_eq_error.1 h).2.symm)))
  rcases bind_eq_error.1 h with h | ⟨_, _, h⟩
  · exact .inr (.inr (.inr (.inr (.inl (require_eq_error.1 h).2.symm))))
  · exact .inr (.inr (.inr (.inr (.inr (require_eq_error.1 h).2.symm))))

theorem decPoint_raises {s : State} {e : CmdError} (h : decPoint s = .error e) :
    e = .octetLength ∨ e = .leadingByte ∨ e = .xRange ∨ e = .noY ∨ e = .noRoot ∨ e = .octetPoint := by
  unfold decPoint at h
  split at h
  · cases h; simp
  split at h
  · unfold decCompressed at h
    rcases bind_eq_error.1 h with h | ⟨_, _, h⟩
    · exact .inl (require_eq_error.1 h).2.symm
    rcases bind_eq_error.1 h with h | ⟨_, _, h⟩
    · rcases yRoots_raises h with rfl | rfl <;> simp
    rcases bind_eq_error.1 h with h | ⟨_, _, h⟩
    · rw [selectRoot_raises h]; simp
    · cases h
  split at h
  · unfold decUncompressed at h
    rcases bind_eq_error.1 h with h | ⟨_, _, h⟩
    · exact .inl (require_eq_error.1 h).2.symm
    rcases bind_eq_error.1 h with h | ⟨_, _, h⟩
    · rw [← (require_eq_error.1 h).2]; simp
    · cases h
  · cases h; simp

theorem encPoint_raises {s : State} {a : Fin 8} {sel : Sel} {e : CmdError} (h : encPoint s a sel = .error e) :
    e = .noCurve ∨ e = .formA ∨ e = .selector ∨ e = .encodeInf ∨ e = .pointA := by
  unfold encPoint at h
  rcases bind_eq_error.1 h with h | ⟨_, _, h⟩
  · exact .inl (curvePrologue_raises h)
  rcases bind_eq_error.1 h with h | ⟨_, _, h⟩
  · exact .inr (.inl (formAff_raises h))
  rcases bind_eq_error.1 h with h | ⟨_, _, h⟩
  · exact .inr (.inr (.inl (selectorCheck_raises h)))
  rcases bind_eq_error.1 h with h | ⟨_, _, h⟩
  · exact .inr (.inr (.inr (.inl (require_eq_error.1 h).2.symm)))
  rcases bind_eq_error.1 h with h | ⟨_, _, h⟩
  · exact .inr (.inr (.inr (.inr (require_eq_error.1 h).2.symm)))
  · cases h

end Sys2Proof.Laws
end

