-- ==== Sys2Proof/Laws/Sqrt.lean ====
section
/-! SUPPORT. `sqrt_mod` and `is_qr` (40_modular.md R167, R169): every root returned is a root, and for a prime modulus a root is found exactly when one exists. -/

namespace Sys2Proof.Laws

open Sys2Proof.Machine

/-- A loop that answers a root answers one below m. -/
theorem tonelliLoop_lt (m fuel c t r k x : Nat) (hr : r < m) (h : tonelliLoop m fuel c t r k = .ok x) : x < m := by
  induction fuel generalizing c t r k with
  | zero =>
    simp only [tonelliLoop] at h
    split at h
    · cases h
      exact hr
    · cases h
  | succ fuel ih =>
    simp only [tonelliLoop] at h
    split at h
    · cases h
      exact hr
    · split at h
      · cases h
      · exact ih _ _ _ _ (Nat.mod_lt _ (by omega)) h

theorem sqrtCandidate_lt (a m x : Nat) (hm : 2 ≤ m) (h : sqrtCandidate a m = .ok x) : x < m := by
  simp only [sqrtCandidate] at h
  split at h
  · cases h
    exact powMod_lt _ _ _ hm
  · split at h
    · cases h
    · exact tonelliLoop_lt _ _ _ _ _ _ _ (powMod_lt _ _ _ hm) h

/-- Every root `sqrt_mod` returns is a root in [0, m), for every modulus (40_modular.md R167: the final check). -/
theorem sqrtMod_sound (a m r : Nat) (hm : 2 ≤ m) (h : sqrtMod a m = .ok r) : r < m ∧ r * r % m = a % m := by
  simp only [sqrtMod] at h
  split at h
  · rename_i h0
    cases h
    exact ⟨by omega, by simp [h0]⟩
  · cases hc : sqrtCandidate (a % m) m with
    | error e => rw [hc] at h; cases h
    | ok x =>
      rw [hc] at h
      simp only [bind, Except.bind] at h
      split at h
      · cases h
      · rename_i hx
        cases h
        exact ⟨sqrtCandidate_lt _ _ _ hm hc, not_not.1 hx⟩

theorem tonelliLoop_error (m fuel c t r k : Nat) (e : CmdError) (h : tonelliLoop m fuel c t r k = .error e) :
    e = .noSqrt := by
  induction fuel generalizing c t r k with
  | zero =>
    simp only [tonelliLoop] at h
    split at h <;> cases h
    rfl
  | succ fuel ih =>
    simp only [tonelliLoop] at h
    split at h
    · cases h
    · split at h
      · cases h
        rfl
      · exact ih _ _ _ _ h

/-- `sqrt_mod` raises nothing but DOMAIN(0x51) (R167). -/
theorem sqrtMod_error (a m : Nat) (e : CmdError) (h : sqrtMod a m = .error e) : e = .noSqrt := by
  simp only [sqrtMod] at h
  split at h
  · cases h
  · cases hc : sqrtCandidate (a % m) m with
    | error e' =>
      rw [hc] at h
      cases h
      simp only [sqrtCandidate] at hc
      split at hc
      · cases hc
      · split at hc
        · cases hc
          rfl
        · exact tonelliLoop_error _ _ _ _ _ _ _ hc
    | ok x =>
      rw [hc] at h
      simp only [bind, Except.bind] at h
      split at h <;> cases h
      rfl

/-! For a prime modulus: Euler's criterion and the Tonelli–Shanks loop. -/

theorem natCast_eq_iff_of_lt {p x y : Nat} (hx : x < p) (hy : y < p) : (x : ZMod p) = y ↔ x = y := by
  rw [ZMod.natCast_eq_natCast_iff', Nat.mod_eq_of_lt hx, Nat.mod_eq_of_lt hy]

/-- `is_qr` is the Glossary's residue: a perfect square modulo the prime (R169). -/
theorem isQr_iff_isSquare (v p : Nat) (hp : p.Prime) (h3 : 3 ≤ p) : isQr v p = true ↔ IsSquare (v : ZMod p) := by
  have : Fact p.Prime := ⟨hp⟩
  have hodd : (p - 1) / 2 = p / 2 := by
    have := hp.eq_two_or_odd
    omega
  simp only [isQr]
  split
  · rename_i h0
    have : (v : ZMod p) = 0 := by rw [ZMod.natCast_eq_zero_iff]; exact Nat.dvd_of_mod_eq_zero h0
    simp [this]
  · rename_i h0
    have hv : (v : ZMod p) ≠ 0 := by rw [Ne, ZMod.natCast_eq_zero_iff]; exact fun hd => h0 (Nat.mod_eq_zero_of_dvd hd)
    rw [decide_eq_true_iff, ← natCast_eq_iff_of_lt (powMod_lt _ _ _ hp.two_le) hp.one_lt, powMod_zmod _ _ _ hp.two_le,
      ZMod.natCast_mod, hodd, Nat.cast_one]
    exact (ZMod.euler_criterion p hv).symm

theorem splitTwos_spec (fuel q s : Nat) (hq : 0 < q) (hf : q ≤ fuel) :
    (splitTwos fuel q s).1 % 2 = 1 ∧ (splitTwos fuel q s).1 * 2 ^ (splitTwos fuel q s).2 = q * 2 ^ s ∧
      s ≤ (splitTwos fuel q s).2 := by
  induction fuel generalizing q s with
  | zero => omega
  | succ fuel ih =>
    simp only [splitTwos]
    split
    · rename_i h
      obtain ⟨h1, h2, h3⟩ := ih (q / 2) (s + 1) (by omega) (by omega)
      refine ⟨h1, ?_, by omega⟩
      rw [h2, pow_succ']
      have hq2 : q = q / 2 * 2 := by omega
      calc q / 2 * (2 * 2 ^ s) = (q / 2 * 2) * 2 ^ s := by ring
        _ = q * 2 ^ s := by rw [← hq2]
    · rename_i h
      exact ⟨by omega, rfl, le_rfl⟩

theorem nonResidueFrom_spec (m fuel z x : Nat) (h : nonResidueFrom m fuel z = some x) :
    powMod x ((m - 1) / 2) m = m - 1 := by
  induction fuel generalizing z with
  | zero => cases h
  | succ fuel ih =>
    simp only [nonResidueFrom] at h
    split at h
    · exact ih _ h
    · rename_i hz
      cases h
      exact not_not.1 hz

theorem nonResidueFrom_none (m fuel z : Nat) (h : nonResidueFrom m fuel z = none) (x : Nat) (h1 : z ≤ x)
    (h2 : x < z + fuel) : powMod x ((m - 1) / 2) m ≠ m - 1 := by
  induction fuel generalizing z with
  | zero => omega
  | succ fuel ih =>
    simp only [nonResidueFrom] at h
    split at h
    · rename_i hz
      rcases Nat.lt_or_ge z x with hlt | hge
      · exact ih _ h hlt (by omega)
      · have : x = z := by omega
        rwa [this]
    · cases h

/-- The inner loop ends at the first i from its start on with u = 1, or at start + fuel. -/
theorem orderLoop_spec (p : Nat) (hp : p.Prime) (t : ZMod p) (fuel i u : Nat) (hu : u < p) (hi : (u : ZMod p) = t ^ 2 ^ i) :
    i ≤ orderLoop p fuel i u ∧ orderLoop p fuel i u ≤ i + fuel ∧
      (∀ j, i ≤ j → j < orderLoop p fuel i u → t ^ 2 ^ j ≠ 1) ∧
      (orderLoop p fuel i u < i + fuel → t ^ 2 ^ orderLoop p fuel i u = 1) := by
  have h2 := hp.two_le
  induction fuel generalizing i u with
  | zero =>
    refine ⟨le_rfl, le_rfl, fun j h1 h2 => ?_, fun h => ?_⟩ <;> simp only [orderLoop] at * <;> omega
  | succ fuel ih =>
    simp only [orderLoop]
    split
    · rename_i hne
      have hne' : t ^ 2 ^ i ≠ 1 := by
        rw [← hi, ← Nat.cast_one, Ne, natCast_eq_iff_of_lt hu hp.one_lt]
        exact hne
      obtain ⟨a1, a2, a3, a4⟩ := ih (i + 1) (u * u % p) (Nat.mod_lt _ (by omega)) (by
        rw [ZMod.natCast_mod, Nat.cast_mul, hi, ← pow_add, pow_succ, mul_two])
      refine ⟨by omega, by omega, fun j h1 hj => ?_, fun h => a4 (by omega)⟩
      rcases Nat.eq_or_lt_of_le h1 with rfl | hlt
      · exact hne'
      · exact a3 j hlt hj
    · rename_i heq
      refine ⟨le_rfl, by omega, fun j h1 hj => by omega, fun _ => ?_⟩
      rw [← hi, not_not.1 heq, Nat.cast_one]

/-- The Tonelli–Shanks loop finds a root: with c of order 2^k, t of order dividing 2^(k-1) and r² = t·a. -/
theorem tonelliLoop_complete (p : Nat) (hp : p.Prime) (a : ZMod p) (fuel c t r k : Nat) (hk : 1 ≤ k) (hf : k ≤ fuel)
    (htp : t < p) (hc : (c : ZMod p) ^ 2 ^ (k - 1) = -1) (ht : (t : ZMod p) ^ 2 ^ (k - 1) = 1)
    (hr : (r : ZMod p) ^ 2 = t * a) : ∃ x, tonelliLoop p fuel c t r k = .ok x ∧ (x : ZMod p) ^ 2 = a := by
  have hfact : Fact p.Prime := ⟨hp⟩
  induction fuel generalizing c t r k with
  | zero => omega
  | succ fuel ih =>
    simp only [tonelliLoop]
    split
    · rename_i h1
      exact ⟨r, rfl, by rw [hr, h1, Nat.cast_one, one_mul]⟩
    · rename_i h1
      have h1' : (t : ZMod p) ≠ 1 := by
        rw [← Nat.cast_one, Ne, natCast_eq_iff_of_lt htp hp.one_lt]
        exact h1
      have hk2 : 2 ≤ k := by
        rcases Nat.lt_or_ge k 2 with hlt | hge
        · have : k = 1 := by omega
          rw [this] at ht
          simp at ht
          exact absurd ht h1'
        · exact hge
      obtain ⟨b1, b2, b3, b4⟩ := orderLoop_spec p hp (t : ZMod p) (k - 1) 1 (t * t % p)
        (Nat.mod_lt _ hp.pos) (by rw [ZMod.natCast_mod, Nat.cast_mul, pow_one, pow_two])
      set i := orderLoop p (k - 1) 1 (t * t % p) with hidef
      have hik : i < k := by
        rcases Nat.lt_or_ge i k with hlt | hge
        · exact hlt
        · exact absurd ht (b3 (k - 1) (by omega) (by omega))
      have hti : (t : ZMod p) ^ 2 ^ i = 1 := b4 (by omega)
      have htm : (t : ZMod p) ^ 2 ^ (i - 1) = -1 := by
        have hsq : ((t : ZMod p) ^ 2 ^ (i - 1)) ^ 2 = 1 := by
          rw [← pow_mul, ← pow_succ, Nat.sub_add_cancel b1, hti]
        rw [pow_two] at hsq
        rcases mul_self_eq_one_iff.1 hsq with h | h
        · exfalso
          rcases Nat.eq_or_lt_of_le b1 with he | hlt
          · rw [← he] at h
            simp at h
            exact h1' h
          · exact b3 (i - 1) (by omega) (by omega) h
        · exact h
      rw [if_neg (by omega)]
      set b := powMod c (2 ^ (k - i - 1)) p with hb
      have hbz : (b : ZMod p) = (c : ZMod p) ^ 2 ^ (k - i - 1) := powMod_zmod _ _ _ hp.two_le
      have hc' : ((b * b % p : Nat) : ZMod p) = (c : ZMod p) ^ 2 ^ (k - i) := by
        rw [ZMod.natCast_mod, Nat.cast_mul, hbz, ← pow_two, ← pow_mul, ← pow_succ]
        congr 2
        omega
      have hci : ((b * b % p : Nat) : ZMod p) ^ 2 ^ (i - 1) = -1 := by
        rw [hc', ← pow_mul, ← pow_add, ← hc]
        congr 2
        omega
      refine ih (b * b % p) (t * (b * b % p) % p) (r * b % p) i b1 (by omega) (Nat.mod_lt _ hp.pos) hci ?_ ?_
      · rw [ZMod.natCast_mod, Nat.cast_mul, mul_pow, htm, hci]
        ring
      · rw [ZMod.natCast_mod, ZMod.natCast_mod, Nat.cast_mul, Nat.cast_mul, ZMod.natCast_mod, Nat.cast_mul, mul_pow, hr]
        ring

/-- The root candidate is a root when one exists, for a prime modulus. -/
theorem sqrtCandidate_complete (a p : Nat) (hp : p.Prime) (h3 : 3 ≤ p) (ha : (a : ZMod p) ≠ 0)
    (hs : IsSquare (a : ZMod p)) : ∃ x, sqrtCandidate a p = .ok x ∧ (x : ZMod p) ^ 2 = a := by
  have hfact : Fact p.Prime := ⟨hp⟩
  have hodd := hp.eq_two_or_odd
  have he := (ZMod.euler_criterion p ha).1 hs
  simp only [sqrtCandidate]
  split
  · rename_i h4
    refine ⟨_, rfl, ?_⟩
    rw [powMod_zmod _ _ _ hp.two_le, ← pow_mul]
    have : (p + 1) / 4 * 2 = p / 2 + 1 := by omega
    rw [this, pow_succ, he, one_mul]
  · obtain ⟨q1, q2, q3⟩ := splitTwos_spec p (p - 1) 0 (by omega) (by omega)
    set qs := splitTwos p (p - 1) 0 with hqs
    rw [pow_zero, mul_one] at q2
    have hs1 : 1 ≤ qs.2 := by
      rcases Nat.eq_zero_or_pos qs.2 with h0 | h0
      · rw [h0] at q2
        omega
      · exact h0
    have hhalf : qs.1 * 2 ^ (qs.2 - 1) = p / 2 := by
      have : qs.1 * 2 ^ (qs.2 - 1) * 2 = p - 1 := by
        rw [mul_assoc, ← pow_succ, Nat.sub_add_cancel hs1, q2]
      omega
    have hne2 : ringChar (ZMod p) ≠ 2 := by rw [ZMod.ringChar_zmod_n]; omega
    cases hz : nonResidueFrom p (p - 2) 2 with
    | none =>
      exfalso
      obtain ⟨y, hy⟩ := FiniteField.exists_nonsquare hne2
      have hy0 : y ≠ 0 := fun h => hy (h ▸ IsSquare.zero)
      have hv := ZMod.natCast_zmod_val y
      have h2 : 2 ≤ y.val := by
        rcases Nat.lt_or_ge y.val 2 with hlt | hge
        · exfalso
          have h01 : y.val = 0 ∨ y.val = 1 := by omega
          rcases h01 with h0 | h0 <;> rw [h0] at hv
          · exact hy0 (by rw [← hv]; simp)
          · exact hy (by rw [← hv]; simp)
        · exact hge
      refine nonResidueFrom_none _ _ _ hz y.val h2 (by have := ZMod.val_lt y; omega) ?_
      rw [← natCast_eq_iff_of_lt (powMod_lt _ _ _ hp.two_le) (by omega), powMod_zmod _ _ _ hp.two_le, hv]
      have h1 := ZMod.pow_div_two_eq_neg_one_or_one p hy0
      have h2 : y ^ (p / 2) ≠ 1 := fun h => hy ((ZMod.euler_criterion p hy0).2 h)
      have h3' : (p - 1) / 2 = p / 2 := by omega
      rw [h3', Nat.cast_pred hp.pos]
      rcases h1 with h | h
      · exact absurd h h2
      · rw [h]
        simp
    | some z =>
      have hzm := nonResidueFrom_spec _ _ _ _ hz
      have hzz : (z : ZMod p) ^ (p / 2) = -1 := by
        have h3' : (p - 1) / 2 = p / 2 := by omega
        rw [h3'] at hzm
        rw [← powMod_zmod _ _ _ hp.two_le, hzm, Nat.cast_pred hp.pos]
        simp
      refine tonelliLoop_complete p hp a qs.2 _ _ _ qs.2 hs1 le_rfl (powMod_lt _ _ _ hp.two_le) ?_ ?_ ?_
      · rw [powMod_zmod _ _ _ hp.two_le, ← pow_mul, hhalf, hzz]
      · rw [powMod_zmod _ _ _ hp.two_le, ← pow_mul, hhalf, he]
      · rw [powMod_zmod _ _ _ hp.two_le, powMod_zmod _ _ _ hp.two_le, ← pow_mul, ← pow_succ]
        congr 1
        omega

/-- For a prime modulus `sqrt_mod` finds a root exactly when one exists (R167, R169). -/
theorem sqrtMod_complete (a p : Nat) (hp : p.Prime) (h3 : 3 ≤ p) (hs : IsSquare (a : ZMod p)) :
    ∃ r, sqrtMod a p = .ok r := by
  simp only [sqrtMod]
  split
  · exact ⟨0, rfl⟩
  · rename_i h0
    have ha : ((a % p : Nat) : ZMod p) ≠ 0 := by
      rw [ZMod.natCast_mod, Ne, ZMod.natCast_eq_zero_iff]
      exact fun hd => h0 (Nat.mod_eq_zero_of_dvd hd)
    obtain ⟨x, hx, hx2⟩ := sqrtCandidate_complete (a % p) p hp h3 ha (by rwa [ZMod.natCast_mod])
    refine ⟨x, ?_⟩
    rw [hx]
    simp only [bind, Except.bind]
    rw [if_neg]
    rw [not_not, ← natCast_eq_iff_of_lt (Nat.mod_lt _ hp.pos) (Nat.mod_lt _ hp.pos), ZMod.natCast_mod, Nat.cast_mul, ← pow_two,
      hx2]

end Sys2Proof.Laws
end

