-- ==== Sys2Proof/Laws/Exec.lean ====
section
/-! SUPPORT. Everything a command can do, said once: it collects a write of its own destination, or raises one of its own errors (60_exceptions.md R340, R342, R345). -/

namespace Sys2Proof.Laws
open Sys2Proof.Machine

/-- The effect a command collects is a write of its own destination (R345). -/
def Fits (i : Instr) : Effect → Prop
  | .setV d _ => vDest i = [d]
  | .setPt d _ => ptDest i = [d]
  | .setOb _ => mnemonicOf i = "ENC"
  | .setCurveOk => False

/-- What a command other than CCHK can answer: its own destination's write, or an error of its own. -/
def Shaped (i : Instr) (s : State) (r : Except CmdError Effect) : Prop :=
  exec i s = complete s r ∧ (∀ e, r = .ok e → Fits i e) ∧ ∀ e, r = .error e → (e.cls.code, e.info) ∈ raisedBy i

theorem modBinary_shaped {s : State} {m : ModSel} {d a b : VField} {i : Instr} {f : Nat → Nat → Nat → Nat}
    (h : exec i s = modBinary s m d a b f) (hv : vDest i = [d]) (hr : raisedBy i = [(2, 0x11)]) : ∃ r, Shaped i s r := by
  refine ⟨_, h, ?_, ?_⟩
  · intro e he
    obtain ⟨_, _, he⟩ := bind_eq_ok.1 he
    cases he
    exact hv
  · intro e he
    rcases bind_eq_error.1 he with he | ⟨_, _, he⟩
    · rw [hr, modPrologue_raises he]; decide
    · cases he

theorem modUnary_shaped {s : State} {m : ModSel} {d a : VField} {i : Instr} {f : Nat → Nat → Except CmdError Nat}
    (h : exec i s = modUnary s m d a f) (hv : vDest i = [d]) (hr : (2, 0x11) ∈ raisedBy i)
    (hf : ∀ p x e, f p x = .error e → (e.cls.code, e.info) ∈ raisedBy i) : ∃ r, Shaped i s r := by
  refine ⟨_, h, ?_, ?_⟩
  · intro e he
    obtain ⟨_, _, he⟩ := bind_eq_ok.1 he
    obtain ⟨_, _, he⟩ := bind_eq_ok.1 he
    cases he
    exact hv
  · intro e he
    rcases bind_eq_error.1 he with he | ⟨_, _, he⟩
    · rw [modPrologue_raises he]; exact hr
    rcases bind_eq_error.1 he with he | ⟨_, _, he⟩
    · exact hf _ _ _ he
    · cases he

/-- A command whose operands are checked by `x`, and whose effect or later error `k` gives. -/
theorem shaped_of {α : Type} {i : Instr} {s : State} {x : Except CmdError α} {k : α → Except CmdError Effect}
    (h : exec i s = complete s (x >>= k)) (hx : ∀ e, x = .error e → (e.cls.code, e.info) ∈ raisedBy i)
    (hk : ∀ a e, x = .ok a → k a = .error e → (e.cls.code, e.info) ∈ raisedBy i) (ho : ∀ a e, k a = .ok e → Fits i e) :
    ∃ r, Shaped i s r := by
  refine ⟨_, h, ?_, ?_⟩
  · intro e he
    obtain ⟨a, _, he⟩ := bind_eq_ok.1 he
    exact ho a e he
  · intro e he
    rcases bind_eq_error.1 he with he | ⟨a, h1, he⟩
    · exact hx e he
    · exact hk a e h1 he

theorem oncrv_shaped (d : VField) (a : PtField) (s : State) : ∃ r, Shaped (.oncrv d a) s r := by
  refine shaped_of rfl ?_ ?_ ?_
  · intro e he
    rw [curvePrologue_raises he]; simp only [raisedBy]; decide
  · intro _ e _ he
    cases h : (s.getPt (ptIx a)).f <;> rw [h] at he <;> cases he <;> simp only [raisedBy] <;> decide
  · intro _ e he
    cases h : (s.getPt (ptIx a)).f <;> rw [h] at he <;> cases he <;> rfl

theorem padd_shaped (d a b : PtField) (s : State) : ∃ r, Shaped (.padd d a b) s r := by
  refine shaped_of rfl ?_ ?_ ?_
  · intro e he
    rcases affOperands_raises he with rfl | rfl | rfl | rfl | rfl <;> simp only [raisedBy] <;> decide
  · intro _ e _ he
    rcases bind_eq_error.1 he with he | ⟨_, _, he⟩
    · rw [affAdd_raises he]; simp only [raisedBy]; decide
    · cases he
  · intro _ e he
    obtain ⟨_, _, he⟩ := bind_eq_ok.1 he
    cases he; rfl

theorem pneg_shaped (d a : PtField) (s : State) : ∃ r, Shaped (.pneg d a) s r := by
  refine shaped_of rfl ?_ ?_ ?_
  · intro e he
    rcases affOperandA_raises he with rfl | rfl | rfl <;> simp only [raisedBy] <;> decide
  · intro _ e _ he; cases he
  · intro _ e he; cases he; rfl

theorem jadd_shaped (d a b : PtField) (s : State) : ∃ r, Shaped (.jadd d a b) s r := by
  refine shaped_of rfl ?_ ?_ ?_
  · intro e he
    rcases jacOperands_raises he with rfl | rfl | rfl | rfl | rfl <;> simp only [raisedBy] <;> decide
  · intro _ e _ he; cases he
  · intro _ e he; cases he; rfl

theorem jdbl_shaped (d a : PtField) (s : State) : ∃ r, Shaped (.jdbl d a) s r := by
  refine shaped_of rfl ?_ ?_ ?_
  · intro e he
    rcases jacOperandA_raises he with rfl | rfl | rfl <;> simp only [raisedBy] <;> decide
  · intro _ e _ he; cases he
  · intro _ e he; cases he; rfl

theorem j2a_shaped (d a : PtField) (s : State) : ∃ r, Shaped (.j2a d a) s r := by
  refine shaped_of rfl ?_ ?_ ?_
  · intro e he
    rcases jacOperandA_raises he with rfl | rfl | rfl <;> simp only [raisedBy] <;> decide
  · intro _ e _ he
    rcases bind_eq_error.1 he with he | ⟨_, _, he⟩
    · rw [affOf_raises he]; simp only [raisedBy]; decide
    · cases he
  · intro _ e he
    obtain ⟨_, _, he⟩ := bind_eq_ok.1 he
    cases he; rfl

theorem a2j_shaped (d a : PtField) (s : State) : ∃ r, Shaped (.a2j d a) s r := by
  refine shaped_of rfl ?_ ?_ ?_
  · intro e he
    rcases affOperandA_raises he with rfl | rfl | rfl <;> simp only [raisedBy] <;> decide
  · intro _ e _ he; cases he
  · intro _ e he; cases he; rfl

theorem j2x_shaped (d : VField) (a : PtField) (s : State) : ∃ r, Shaped (.j2x d a) s r := by
  refine shaped_of rfl ?_ ?_ ?_
  · intro e he
    rcases jacOperandA_raises he with rfl | rfl | rfl <;> simp only [raisedBy] <;> decide
  · intro _ e _ he
    rcases bind_eq_error.1 he with he | ⟨_, _, he⟩
    · rw [← (require_eq_error.1 he).2]; simp only [raisedBy]; decide
    rcases bind_eq_error.1 he with he | ⟨_, _, he⟩
    · rw [invMod_raises he]; simp only [raisedBy]; decide
    · cases he
  · intro _ e he
    obtain ⟨_, _, he⟩ := bind_eq_ok.1 he
    obtain ⟨_, _, he⟩ := bind_eq_ok.1 he
    cases he; rfl

theorem yodd_shaped (d a : VField) (sel : Sel) (s : State) : ∃ r, Shaped (.yodd d a sel) s r := by
  refine shaped_of rfl ?_ ?_ ?_
  · intro e he
    rw [curvePrologue_raises he]; simp only [raisedBy]; decide
  · intro _ e _ he
    rcases bind_eq_error.1 he with he | ⟨_, _, he⟩
    · rw [selectorCheck_raises he]; simp only [raisedBy]; decide
    rcases bind_eq_error.1 he with he | ⟨_, _, he⟩
    · rcases yRoots_raises he with rfl | rfl <;> simp only [raisedBy] <;> decide
    rcases bind_eq_error.1 he with he | ⟨_, _, he⟩
    · rw [selectRoot_raises he]; simp only [raisedBy]; decide
    · cases he
  · intro _ e he
    obtain ⟨_, _, he⟩ := bind_eq_ok.1 he
    obtain ⟨_, _, he⟩ := bind_eq_ok.1 he
    obtain ⟨_, _, he⟩ := bind_eq_ok.1 he
    cases he; rfl

theorem sqrtMod_lt {v p r : Nat} (hp : 1 ≤ p) (hr : sqrtMod v p = .ok r) : r < p := by
  by_cases h : 2 ≤ p
  · exact (sqrtMod_sound _ _ _ h hr).1
  · have e : p = 1 := by omega
    subst e
    simp only [sqrtMod, Nat.mod_one, if_true, Except.ok.injEq] at hr
    omega

/-- The two candidates of an x below p: a root below p and its negation (R260). -/
theorem yRoots_ok {c : CurveBlock} {x : Nat} {roots : Nat × Nat} (h : yRoots c x = .ok roots) :
    x < c.p ∧ roots.1 < c.p ∧ roots.2 = red c.p ((c.p : Int) - roots.1) ∧ roots.2 < c.p ∧
      roots.1 = red c.p ((c.p : Int) - roots.2) := by
  unfold yRoots at h
  split at h
  · cases h
  rename_i hx
  split at h
  · cases h
  · rename_i r hr
    cases h
    have hrp : r < c.p := sqrtMod_lt (by omega) hr
    have h2 := red_lt c.p ((c.p : Int) - r) (by omega)
    refine ⟨by omega, hrp, rfl, h2, ?_⟩
    simp only
    rw [red_neg _ _ h2, red_neg _ _ hrp]
    split <;> split <;> omega

/-- One candidate is the low one and one is the high one, so YLOW never fails to select (R264). -/
theorem lowPred_selects {c : CurveBlock} {x : Nat} {roots : Nat × Nat} (sel : Sel) (h : yRoots c x = .ok roots) :
    ∃ y, selectRoot roots (lowPred c sel) = .ok y := by
  obtain ⟨-, -, h1, -, h2⟩ := yRoots_ok h
  simp only [selectRoot, lowPred, ← h1, ← h2]
  by_cases hs : sel.val = 1 <;> simp only [hs, if_true, if_false, decide_eq_true_eq] <;> split
  · exact ⟨_, rfl⟩
  · rw [if_pos (by omega)]; exact ⟨_, rfl⟩
  · exact ⟨_, rfl⟩
  · rw [if_pos (by omega)]; exact ⟨_, rfl⟩

theorem ylow_shaped (d a : VField) (sel : Sel) (s : State) : ∃ r, Shaped (.ylow d a sel) s r := by
  refine shaped_of rfl ?_ ?_ ?_
  · intro e he
    rw [curvePrologue_raises he]; simp only [raisedBy]; decide
  · intro _ e _ he
    rcases bind_eq_error.1 he with he | ⟨_, _, he⟩
    · rw [selectorCheck_raises he]; simp only [raisedBy]; decide
    rcases bind_eq_error.1 he with he | ⟨_, hr, he⟩
    · rcases yRoots_raises he with rfl | rfl <;> simp only [raisedBy] <;> decide
    rcases bind_eq_error.1 he with he | ⟨_, _, he⟩
    · obtain ⟨y, hy⟩ := lowPred_selects sel hr
      rw [hy] at he
      cases he
    · cases he
  · intro _ e he
    obtain ⟨_, _, he⟩ := bind_eq_ok.1 he
    obtain ⟨_, _, he⟩ := bind_eq_ok.1 he
    obtain ⟨_, _, he⟩ := bind_eq_ok.1 he
    cases he; rfl

theorem yqr_shaped (d a : VField) (sel : Sel) (s : State) : ∃ r, Shaped (.yqr d a sel) s r := by
  refine shaped_of rfl ?_ ?_ ?_
  · intro e he
    rw [curvePrologue_raises he]; simp only [raisedBy]; decide
  · intro _ e _ he
    rcases bind_eq_error.1 he with he | ⟨_, _, he⟩
    · rw [selectorCheck_raises he]; simp only [raisedBy]; decide
    rcases bind_eq_error.1 he with he | ⟨_, _, he⟩
    · rw [← (require_eq_error.1 he).2]; simp only [raisedBy]; decide
    rcases bind_eq_error.1 he with he | ⟨_, _, he⟩
    · rcases yRoots_raises he with rfl | rfl <;> simp only [raisedBy] <;> decide
    rcases bind_eq_error.1 he with he | ⟨_, _, he⟩
    · rw [selectRoot_raises he]; simp only [raisedBy]; decide
    · cases he
  · intro _ e he
    obtain ⟨_, _, he⟩ := bind_eq_ok.1 he
    obtain ⟨_, _, he⟩ := bind_eq_ok.1 he
    obtain ⟨_, _, he⟩ := bind_eq_ok.1 he
    obtain ⟨_, _, he⟩ := bind_eq_ok.1 he
    cases he; rfl

theorem hsqy_shaped (d : VField) (a : PtField) (s : State) : ∃ r, Shaped (.hsqy d a) s r := by
  refine shaped_of rfl ?_ ?_ ?_
  · intro e he
    rcases affOperandA_raises he with rfl | rfl | rfl <;> simp only [raisedBy] <;> decide
  · intro _ e _ he; cases he
  · intro _ e he; cases he; rfl

theorem dec_shaped (d : PtField) (s : State) : ∃ r, Shaped (.dec d) s r := by
  refine shaped_of rfl ?_ ?_ ?_
  · intro e he
    rw [curvePrologue_raises he]; simp only [raisedBy]; decide
  · intro _ e _ he
    rcases bind_eq_error.1 he with he | ⟨_, _, he⟩
    · rcases decPoint_raises he with rfl | rfl | rfl | rfl | rfl | rfl <;> simp only [raisedBy] <;> decide
    · cases he
  · intro _ e he
    obtain ⟨_, _, he⟩ := bind_eq_ok.1 he
    cases he; rfl

theorem enc_shaped (a : PtField) (sel : Sel) (s : State) : ∃ r, Shaped (.enc a sel) s r := by
  refine shaped_of rfl ?_ ?_ ?_
  · intro e he
    rcases encPoint_raises he with rfl | rfl | rfl | rfl | rfl <;> simp only [raisedBy] <;> decide
  · intro _ e _ he; cases he
  · intro _ e he; cases he; rfl

theorem smul_shaped (d a : PtField) (b : VField) (s : State) : ∃ r, Shaped (.smul d a b) s r := by
  refine shaped_of rfl ?_ ?_ ?_
  · intro e he
    rcases affOperandA_raises he with rfl | rfl | rfl <;> simp only [raisedBy] <;> decide
  · intro _ e _ he
    rcases bind_eq_error.1 he with he | ⟨_, _, he⟩
    · unfold scalarMul at he
      split at he
      · cases he
      · rw [affOf_raises he]; simp only [raisedBy]; decide
    · cases he
  · intro _ e he
    obtain ⟨_, _, he⟩ := bind_eq_ok.1 he
    cases he; rfl

/-- Every command but CCHK ends in a completion of this shape (60_exceptions.md R340, R342, R345). -/
theorem exec_shaped (i : Instr) (s : State) (h : i ≠ .cchk) : ∃ r, Shaped i s r := by
  cases i with
  | madd m d a b => exact modBinary_shaped (m := m) (a := a) (b := b) (f := fun p x y => (x + y) % p) rfl rfl rfl
  | msub m d a b => exact modBinary_shaped (m := m) (a := a) (b := b) (f := fun p x y => red p ((x : Int) - y)) rfl rfl rfl
  | mmul m d a b => exact modBinary_shaped (m := m) (a := a) (b := b) (f := fun p x y => (x * y) % p) rfl rfl rfl
  | minv m d a =>
    refine modUnary_shaped (m := m) (a := a) (f := fun p x => invMod x p) rfl rfl (by simp only [raisedBy]; decide) ?_
    intro p x e he
    rw [invMod_raises he]; simp only [raisedBy]; decide
  | mexp m d a b => exact modBinary_shaped (m := m) (a := a) (b := b) (f := fun p x y => powMod x y p) rfl rfl rfl
  | msqrt m d a =>
    refine modUnary_shaped (m := m) (a := a) (f := fun p x => sqrtMod x p) rfl rfl (by simp only [raisedBy]; decide) ?_
    intro p x e he
    rw [sqrtMod_error _ _ _ he]; simp only [raisedBy]; decide
  | mred m d a =>
    refine modUnary_shaped (m := m) (a := a) (f := fun p x => .ok (x % p)) rfl rfl (by simp only [raisedBy]; decide) ?_
    intro p x e he
    cases he
  | cchk => exact absurd rfl h
  | oncrv d a => exact oncrv_shaped d a s
  | padd d a b => exact padd_shaped d a b s
  | pneg d a => exact pneg_shaped d a s
  | jadd d a b => exact jadd_shaped d a b s
  | jdbl d a => exact jdbl_shaped d a s
  | j2a d a => exact j2a_shaped d a s
  | a2j d a => exact a2j_shaped d a s
  | j2x d a => exact j2x_shaped d a s
  | yodd d a sel => exact yodd_shaped d a sel s
  | ylow d a sel => exact ylow_shaped d a sel s
  | yqr d a sel => exact yqr_shaped d a sel s
  | hsqy d a => exact hsqy_shaped d a s
  | dec d => exact dec_shaped d s
  | enc a sel => exact enc_shaped a sel s
  | smul d a b => exact smul_shaped d a b s

/-- CCHK's two endings (41_curve_group.md R202). -/
theorem exec_cchk (s : State) :
    (checkCurve s.curve s.weak = .ok () ∧ exec .cchk s = .next (s.succeed .setCurveOk)) ∨
    ∃ e, checkCurve s.curve s.weak = .error e ∧ exec .cchk s = .next (State.fail { s with curveOk := false } e) := by
  cases h : checkCurve s.curve s.weak with
  | ok u => exact .inl ⟨rfl, by simp [exec, execCchk, h, completeCheck]⟩
  | error e => exact .inr ⟨e, rfl, by simp [exec, execCchk, h, completeCheck]⟩

end Sys2Proof.Laws
end

