-- ==== Sys2Proof/Laws/Bounds.lean ====
section
/-! SUPPORT. Every value a command writes fits its register, and every string the octet buffer (00_scope.md R6, R10). -/

namespace Sys2Proof.Laws
open Sys2Proof.Machine

/-- The values of an effect fit their registers (00_scope.md R10) and the octet buffer (R6). -/
def Bounded (c : Config) : Effect → Prop
  | .setV _ x => x < 2 ^ c.width
  | .setPt _ q => ∀ k, q.get k < 2 ^ c.width
  | .setOb str => str.length ≤ c.obSize
  | .setCurveOk => True

/-- The coordinates of an affine value fit a bound. -/
def AffPoint.Below (n : Nat) : AffPoint → Prop
  | .inf => True
  | .pt x y => x < n ∧ y < n

theorem one_lt_width {c : Config} (h : Config.Legal c) : 1 < 2 ^ c.width :=
  Nat.one_lt_two_pow (by have := h.2.1; omega)

theorem boolNat_bounded {c : Config} (h : Config.Legal c) (b : Bool) : boolNat b < 2 ^ c.width := by
  have := one_lt_width h
  cases b <;> simp [boolNat]
  omega

theorem affReg_bounded {c : Config} (h : Config.Legal c) {q : AffPoint} (hq : AffPoint.Below (2 ^ c.width) q) (k : Coord) :
    (affReg q).get k < 2 ^ c.width := by
  have := one_lt_width h
  cases q with
  | inf => cases k <;> (show 0 < 2 ^ c.width; omega)
  | pt x y =>
    cases k
    · exact hq.1
    · exact hq.2
    · exact this

theorem jacReg_bounded {c : Config} (h : Config.Legal c) {t : JacPoint}
    (ht : t.x < 2 ^ c.width ∧ t.y < 2 ^ c.width ∧ t.z < 2 ^ c.width) (k : Coord) : (jacReg t).get k < 2 ^ c.width := by
  have := one_lt_width h
  unfold jacReg
  split
  · cases k <;> simp only [PtReg.get] <;> omega
  · cases k
    · exact ht.1
    · exact ht.2.1
    · exact ht.2.2

/-- A checked curve has an odd P of at least 3 (41_curve_group.md R202). -/
theorem checkCurve_p {c : CurveBlock} {weak : Bool} (h : checkCurve c weak = .ok ()) : 3 ≤ c.p ∧ c.p % 2 = 1 := by
  obtain ⟨_, h1, -⟩ := bind_eq_ok.1 h
  have := require_eq_ok.1 h1
  omega

theorem valAff_below {s : State} (hw : s.WidthOk) {i : Fin 8} {e : CmdError} {q : AffPoint} (h : valAff s i e = .ok q) :
    AffPoint.Below (2 ^ s.cfg.width) q := by
  unfold valAff at h
  split at h
  · cases h; trivial
  · obtain ⟨_, _, h⟩ := bind_eq_ok.1 h
    cases h
    exact ⟨hw.pt i .x, hw.pt i .y⟩

theorem valJac_below {s : State} (hw : s.WidthOk) {i : Fin 8} {e : CmdError} {t : JacPoint} (h : valJac s i e = .ok t) :
    t.x < 2 ^ s.cfg.width ∧ t.y < 2 ^ s.cfg.width ∧ t.z < 2 ^ s.cfg.width := by
  obtain ⟨_, _, h⟩ := bind_eq_ok.1 h
  cases h
  exact ⟨hw.pt i .x, hw.pt i .y, hw.pt i .z⟩

theorem affOperandA_below {s : State} (hw : s.WidthOk) {i : Fin 8} {q : AffPoint} (h : affOperandA s i = .ok q) :
    AffPoint.Below (2 ^ s.cfg.width) q := by
  obtain ⟨_, _, h⟩ := bind_eq_ok.1 h
  obtain ⟨_, _, h⟩ := bind_eq_ok.1 h
  exact valAff_below hw h

theorem jacOperandA_below {s : State} (hw : s.WidthOk) {i : Fin 8} {t : JacPoint} (h : jacOperandA s i = .ok t) :
    t.x < 2 ^ s.cfg.width ∧ t.y < 2 ^ s.cfg.width ∧ t.z < 2 ^ s.cfg.width := by
  obtain ⟨_, _, h⟩ := bind_eq_ok.1 h
  obtain ⟨_, _, h⟩ := bind_eq_ok.1 h
  exact valJac_below hw h

theorem affOperands_below {s : State} (hw : s.WidthOk) {i j : Fin 8} {q : AffPoint × AffPoint} (h : affOperands s i j = .ok q) :
    AffPoint.Below (2 ^ s.cfg.width) q.1 ∧ AffPoint.Below (2 ^ s.cfg.width) q.2 := by
  obtain ⟨_, _, h⟩ := bind_eq_ok.1 h
  obtain ⟨_, _, h⟩ := bind_eq_ok.1 h
  obtain ⟨_, _, h⟩ := bind_eq_ok.1 h
  obtain ⟨_, h1, h⟩ := bind_eq_ok.1 h
  obtain ⟨_, h2, h⟩ := bind_eq_ok.1 h
  cases h
  exact ⟨valAff_below hw h1, valAff_below hw h2⟩

theorem jacOperands_below {s : State} (hw : s.WidthOk) {i j : Fin 8} {q : JacPoint × JacPoint} (h : jacOperands s i j = .ok q) :
    (q.1.x < 2 ^ s.cfg.width ∧ q.1.y < 2 ^ s.cfg.width ∧ q.1.z < 2 ^ s.cfg.width) ∧
      q.2.x < 2 ^ s.cfg.width ∧ q.2.y < 2 ^ s.cfg.width ∧ q.2.z < 2 ^ s.cfg.width := by
  obtain ⟨_, _, h⟩ := bind_eq_ok.1 h
  obtain ⟨_, _, h⟩ := bind_eq_ok.1 h
  obtain ⟨_, _, h⟩ := bind_eq_ok.1 h
  obtain ⟨_, h1, h⟩ := bind_eq_ok.1 h
  obtain ⟨_, h2, h⟩ := bind_eq_ok.1 h
  cases h
  exact ⟨valJac_below hw h1, valJac_below hw h2⟩

theorem red_below {p n : Nat} (hp : 0 < p) (hn : p ≤ n) (e : Int) : red p e < n := lt_of_lt_of_le (red_lt p e hp) hn

theorem lineThird_below {c : CurveBlock} {n : Nat} (hp : 0 < c.p) (hn : c.p ≤ n) (l x1 y1 x2 : Nat) :
    AffPoint.Below n (lineThird c l x1 y1 x2) :=
  ⟨red_below hp hn _, red_below hp hn _⟩

theorem affAdd_below {c : CurveBlock} {n : Nat} (hp : 0 < c.p) (hn : c.p ≤ n) {q r u : AffPoint} (h1 : AffPoint.Below n q)
    (h2 : AffPoint.Below n r) (h : affAdd c q r = .ok u) : AffPoint.Below n u := by
  cases q with
  | inf => simp only [affAdd] at h; cases h; exact h2
  | pt x1 y1 =>
    cases r with
    | inf => simp only [affAdd] at h; cases h; exact h1
    | pt x2 y2 =>
      simp only [affAdd] at h
      split at h
      · split at h
        · obtain ⟨_, _, h⟩ := bind_eq_ok.1 h
          cases h
          exact lineThird_below hp hn _ _ _ _
        · cases h; trivial
      · obtain ⟨_, _, h⟩ := bind_eq_ok.1 h
        cases h
        exact lineThird_below hp hn _ _ _ _

theorem affOf_below {c : CurveBlock} {n : Nat} (hp : 0 < c.p) (hn : c.p ≤ n) {t : JacPoint} {u : AffPoint} (h : affOf c t = .ok u) :
    AffPoint.Below n u := by
  unfold affOf at h
  split at h
  · cases h; trivial
  · obtain ⟨_, _, h⟩ := bind_eq_ok.1 h
    cases h
    exact ⟨red_below hp hn _, red_below hp hn _⟩

theorem jdbl_below {c : CurveBlock} {n : Nat} (hp : 0 < c.p) (hn : c.p ≤ n) (h1 : 1 < n) (t : JacPoint) :
    (jdbl c t).x < n ∧ (jdbl c t).y < n ∧ (jdbl c t).z < n := by
  unfold jdbl
  split
  · simp only [JacPoint.infinity]; omega
  · simp only
    split
    · simp only [JacPoint.infinity]; omega
    · dsimp only
      exact ⟨red_below hp hn _, red_below hp hn _, red_below hp hn _⟩

theorem jadd_below {c : CurveBlock} {n : Nat} (hp : 0 < c.p) (hn : c.p ≤ n) (h1 : 1 < n) {t u : JacPoint}
    (ht : t.x < n ∧ t.y < n ∧ t.z < n) (hu : u.x < n ∧ u.y < n ∧ u.z < n) :
    (jadd c t u).x < n ∧ (jadd c t u).y < n ∧ (jadd c t u).z < n := by
  unfold jadd
  split
  · split
    · simp only [JacPoint.infinity]; omega
    · exact hu
  split
  · exact ht
  simp only
  split
  · split
    · exact jdbl_below hp hn h1 t
    · simp only [JacPoint.infinity]; omega
  · split
    · simp only [JacPoint.infinity]; omega
    · dsimp only
      exact ⟨red_below hp hn _, red_below hp hn _, red_below hp hn _⟩

theorem selectRoot_below {roots : Nat × Nat} {pred : Nat → Bool} {y n : Nat} (h1 : roots.1 < n) (h2 : roots.2 < n)
    (h : selectRoot roots pred = .ok y) : y < n := by
  unfold selectRoot at h
  split at h
  · cases h; exact h1
  split at h
  · cases h; exact h2
  · cases h

theorem invMod_lt {a m x : Nat} (hm : 2 ≤ m) (h : invMod a m = .ok x) : x < m := by
  by_cases hg : Nat.gcd a m = 1
  · obtain ⟨z, e1, -, e3, -⟩ := (invMod_spec a m hm).1 hg
    rw [e1] at h; cases h; exact e3
  · rw [(invMod_spec a m hm).2 hg] at h; cases h

theorem modulus_lt {s : State} (hw : s.WidthOk) (m : ModSel) : s.modulus m < 2 ^ s.cfg.width := by
  cases m
  · exact hw.curve .p
  · exact hw.curve .n

theorem modPrologue_bound {s : State} {m : ModSel} {p : Nat} (hw : s.WidthOk) (h : modPrologue s m = .ok p) :
    3 ≤ p ∧ p < 2 ^ s.cfg.width := by
  obtain ⟨_, h1, h⟩ := bind_eq_ok.1 h
  cases h
  have := require_eq_ok.1 h1
  exact ⟨by omega, modulus_lt hw m⟩

theorem modBinary_bounded {s : State} (hw : s.WidthOk) {i : Instr} {m : ModSel} {d a b : VField} {f : Nat → Nat → Nat → Nat}
    (h : exec i s = modBinary s m d a b f) (hf : ∀ p x y, 3 ≤ p → f p x y < p) :
    ∃ r, exec i s = complete s r ∧ ∀ e, r = .ok e → Bounded s.cfg e := by
  refine ⟨_, h, ?_⟩
  intro e he
  obtain ⟨p, h1, he⟩ := bind_eq_ok.1 he
  cases he
  obtain ⟨h3, h4⟩ := modPrologue_bound hw h1
  exact lt_trans (hf p _ _ h3) h4

theorem modUnary_bounded {s : State} (hw : s.WidthOk) {i : Instr} {m : ModSel} {d a : VField}
    {f : Nat → Nat → Except CmdError Nat} (h : exec i s = modUnary s m d a f)
    (hf : ∀ p x y, 3 ≤ p → f p x = .ok y → y < p) : ∃ r, exec i s = complete s r ∧ ∀ e, r = .ok e → Bounded s.cfg e := by
  refine ⟨_, h, ?_⟩
  intro e he
  obtain ⟨p, h1, he⟩ := bind_eq_ok.1 he
  obtain ⟨y, h2, he⟩ := bind_eq_ok.1 he
  cases he
  obtain ⟨h3, h4⟩ := modPrologue_bound hw h1
  exact lt_trans (hf p _ y h3 h2) h4

/-- A curve command: its prologue passed means a checked curve. -/
theorem curve_bound {s : State} (hw : s.WidthOk) (hs : s.CurveOkSound) {u : Unit} (h : curvePrologue s = .ok u) :
    3 ≤ s.curve.p ∧ s.curve.p ≤ 2 ^ s.cfg.width :=
  ⟨(checkCurve_p (hs (require_eq_ok.1 h))).1, le_of_lt (hw.curve .p)⟩

theorem decPoint_below {s : State} {q : AffPoint} (h : decPoint s = .ok q) : AffPoint.Below s.curve.p q := by
  unfold decPoint at h
  split at h
  · cases h
  split at h
  · obtain ⟨_, _, h⟩ := bind_eq_ok.1 h
    obtain ⟨roots, h1, h⟩ := bind_eq_ok.1 h
    obtain ⟨y, h2, h⟩ := bind_eq_ok.1 h
    cases h
    obtain ⟨h3, h4, -, h5, -⟩ := yRoots_ok h1
    exact ⟨h3, selectRoot_below h4 h5 h2⟩
  split at h
  · obtain ⟨_, _, h⟩ := bind_eq_ok.1 h
    obtain ⟨_, h1, h⟩ := bind_eq_ok.1 h
    cases h
    obtain ⟨h2, h3, -⟩ := (onCurveAff_iff _ _ _).1 (require_eq_ok.1 h1)
    exact ⟨h2, h3⟩
  · cases h

theorem AffPoint.Below.mono {n m : Nat} (h : n ≤ m) {q : AffPoint} (hq : AffPoint.Below n q) : AffPoint.Below m q := by
  cases q with
  | inf => trivial
  | pt x y => exact ⟨lt_of_lt_of_le hq.1 h, lt_of_lt_of_le hq.2 h⟩

/-- Every effect a command other than CCHK collects fits its destination. -/
theorem exec_bounded (i : Instr) (s : State) (hl : Config.Legal s.cfg) (hw : s.WidthOk) (hs : s.CurveOkSound) (hi : i ≠ .cchk) :
    ∃ r, exec i s = complete s r ∧ ∀ e, r = .ok e → Bounded s.cfg e := by
  have one := one_lt_width hl
  have curve {α : Type} {k : Unit → Except CmdError α} {e : α} (h : (curvePrologue s >>= k) = .ok e) :
      3 ≤ s.curve.p ∧ s.curve.p ≤ 2 ^ s.cfg.width := by
    obtain ⟨_, h, -⟩ := bind_eq_ok.1 h
    exact curve_bound hw hs h
  cases i with
  | madd m d a b => exact modBinary_bounded hw (m := m) (a := a) (b := b) (f := fun p x y => (x + y) % p) rfl (fun p _ _ h => Nat.mod_lt _ (by omega))
  | msub m d a b => exact modBinary_bounded hw (m := m) (a := a) (b := b) (f := fun p x y => red p ((x : Int) - y)) rfl (fun p _ _ h => red_lt _ _ (by omega))
  | mmul m d a b => exact modBinary_bounded hw (m := m) (a := a) (b := b) (f := fun p x y => (x * y) % p) rfl (fun p _ _ h => Nat.mod_lt _ (by omega))
  | minv m d a => exact modUnary_bounded hw (m := m) (a := a) (f := fun p x => invMod x p) rfl (fun p _ _ h he => invMod_lt (by omega) he)
  | mexp m d a b => exact modBinary_bounded hw (m := m) (a := a) (b := b) (f := fun p x y => powMod x y p) rfl (fun p _ _ h => powMod_lt _ _ _ (by omega))
  | msqrt m d a => exact modUnary_bounded hw (m := m) (a := a) (f := fun p x => sqrtMod x p) rfl (fun p _ _ h he => sqrtMod_lt (by omega) he)
  | mred m d a =>
    refine modUnary_bounded hw (m := m) (a := a) (f := fun p x => .ok (x % p)) rfl (fun p _ _ h he => ?_)
    cases he
    exact Nat.mod_lt _ (by omega)
  | cchk => exact absurd rfl hi
  | oncrv d a =>
    refine ⟨_, rfl, fun e he => ?_⟩
    obtain ⟨_, _, he⟩ := bind_eq_ok.1 he
    cases h : (s.getPt (ptIx a)).f <;> rw [h] at he <;> cases he
    · exact one
    · exact boolNat_bounded hl _
  | padd d a b =>
    refine ⟨_, rfl, fun e he => ?_⟩
    obtain ⟨ops, h1, he⟩ := bind_eq_ok.1 he
    obtain ⟨q, h2, he⟩ := bind_eq_ok.1 he
    cases he
    have hc := curve h1
    obtain ⟨h3, h4⟩ := affOperands_below hw h1
    exact affReg_bounded hl (affAdd_below (by omega) hc.2 h3 h4 h2)
  | pneg d a =>
    refine ⟨_, rfl, fun e he => ?_⟩
    obtain ⟨q, h1, he⟩ := bind_eq_ok.1 he
    cases he
    have hc := curve h1
    have h3 := affOperandA_below hw h1
    refine affReg_bounded hl ?_
    cases q with
    | inf => trivial
    | pt x y => exact ⟨h3.1, red_below (by omega) hc.2 _⟩
  | jadd d a b =>
    refine ⟨_, rfl, fun e he => ?_⟩
    obtain ⟨ops, h1, he⟩ := bind_eq_ok.1 he
    cases he
    have hc := curve h1
    obtain ⟨h3, h4⟩ := jacOperands_below hw h1
    exact jacReg_bounded hl (jadd_below (by omega) hc.2 one h3 h4)
  | jdbl d a =>
    refine ⟨_, rfl, fun e he => ?_⟩
    obtain ⟨t, h1, he⟩ := bind_eq_ok.1 he
    cases he
    have hc := curve h1
    exact jacReg_bounded hl (jdbl_below (by omega) hc.2 one t)
  | j2a d a =>
    refine ⟨_, rfl, fun e he => ?_⟩
    obtain ⟨t, h1, he⟩ := bind_eq_ok.1 he
    obtain ⟨q, h2, he⟩ := bind_eq_ok.1 he
    cases he
    have hc := curve h1
    exact affReg_bounded hl (affOf_below (by omega) hc.2 h2)
  | a2j d a =>
    refine ⟨_, rfl, fun e he => ?_⟩
    obtain ⟨q, h1, he⟩ := bind_eq_ok.1 he
    cases he
    have h3 := affOperandA_below hw h1
    refine jacReg_bounded hl ?_
    cases q with
    | inf => exact ⟨one, one, by show 0 < _; omega⟩
    | pt x y => exact ⟨h3.1, h3.2, one⟩
  | j2x d a =>
    refine ⟨_, rfl, fun e he => ?_⟩
    obtain ⟨t, h1, he⟩ := bind_eq_ok.1 he
    obtain ⟨_, _, he⟩ := bind_eq_ok.1 he
    obtain ⟨zi, _, he⟩ := bind_eq_ok.1 he
    cases he
    have hc := curve h1
    exact red_below (by omega) hc.2 _
  | yodd d a sel =>
    refine ⟨_, rfl, fun e he => ?_⟩
    have hc := curve he
    obtain ⟨_, _, he⟩ := bind_eq_ok.1 he
    obtain ⟨_, _, he⟩ := bind_eq_ok.1 he
    obtain ⟨roots, h1, he⟩ := bind_eq_ok.1 he
    obtain ⟨y, h2, he⟩ := bind_eq_ok.1 he
    cases he
    obtain ⟨-, h4, -, h5, -⟩ := yRoots_ok h1
    exact lt_of_lt_of_le (selectRoot_below h4 h5 h2) hc.2
  | ylow d a sel =>
    refine ⟨_, rfl, fun e he => ?_⟩
    have hc := curve he
    obtain ⟨_, _, he⟩ := bind_eq_ok.1 he
    obtain ⟨_, _, he⟩ := bind_eq_ok.1 he
    obtain ⟨roots, h1, he⟩ := bind_eq_ok.1 he
    obtain ⟨y, h2, he⟩ := bind_eq_ok.1 he
    cases he
    obtain ⟨-, h4, -, h5, -⟩ := yRoots_ok h1
    exact lt_of_lt_of_le (selectRoot_below h4 h5 h2) hc.2
  | yqr d a sel =>
    refine ⟨_, rfl, fun e he => ?_⟩
    have hc := curve he
    obtain ⟨_, _, he⟩ := bind_eq_ok.1 he
    obtain ⟨_, _, he⟩ := bind_eq_ok.1 he
    obtain ⟨_, _, he⟩ := bind_eq_ok.1 he
    obtain ⟨roots, h1, he⟩ := bind_eq_ok.1 he
    obtain ⟨y, h2, he⟩ := bind_eq_ok.1 he
    cases he
    obtain ⟨-, h4, -, h5, -⟩ := yRoots_ok h1
    exact lt_of_lt_of_le (selectRoot_below h4 h5 h2) hc.2
  | hsqy d a =>
    refine ⟨_, rfl, fun e he => ?_⟩
    obtain ⟨q, h1, he⟩ := bind_eq_ok.1 he
    cases he
    exact boolNat_bounded hl _
  | dec d =>
    refine ⟨_, rfl, fun e he => ?_⟩
    have hc := curve he
    obtain ⟨_, _, he⟩ := bind_eq_ok.1 he
    obtain ⟨q, h1, he⟩ := bind_eq_ok.1 he
    cases he
    exact affReg_bounded hl ((decPoint_below h1).mono hc.2)
  | enc a sel =>
    refine ⟨_, rfl, fun e he => ?_⟩
    obtain ⟨q, h1, he⟩ := bind_eq_ok.1 he
    cases he
    show (encBytes _ _ _ _).length ≤ _
    have := psize_fits hl hw
    rw [encBytes_length]
    split <;> omega
  | smul d a b =>
    refine ⟨_, rfl, fun e he => ?_⟩
    obtain ⟨q, h1, he⟩ := bind_eq_ok.1 he
    obtain ⟨r, h2, he⟩ := bind_eq_ok.1 he
    cases he
    have hc := curve h1
    refine affReg_bounded hl ?_
    unfold scalarMul at h2
    split at h2
    · cases h2; trivial
    · exact affOf_below (by omega) hc.2 h2
/-- Every error of a command is a row of 60_exceptions.md R342. -/
theorem cmdError_pairs (e : CmdError) : (e.cls.code, e.info) ∈ resultPairs := by
  cases e with
  | illegal w => cases w <;> decide
  | _ => decide

theorem setV_widthOk {s : State} (h : s.WidthOk) (d : Fin 16) (x : Nat) (hx : x < 2 ^ s.cfg.width) : (s.setV d x).WidthOk :=
  ⟨fun i => by
    by_cases hi : i = d
    · subst hi; rw [getV_setV_same]; exact hx
    · rw [getV_setV_ne _ _ _ _ hi]; exact h.v i, h.pt, h.curve⟩

theorem setPt_widthOk {s : State} (h : s.WidthOk) (d : Fin 8) (q : PtReg) (hx : ∀ k, q.get k < 2 ^ s.cfg.width) : (s.setPt d q).WidthOk :=
  ⟨h.v, fun i k => by
    by_cases hi : i = d
    · subst hi; rw [getPt_setPt_same]; exact hx k
    · rw [getPt_setPt_ne _ _ _ _ hi]; exact h.pt i k, h.curve⟩

end Sys2Proof.Laws
end

