-- ==== Sys2Proof/Laws/Bus.lean ====
section
/-! SUPPORT. Laws of the bus: a legal access at an offset, the address map slot by slot, the busy rule (20_memory.md R81, R82, R87) and the words of a big register (R83). -/

namespace Sys2Proof.Laws
open Sys2Proof.Machine

theorem routes_base {c : Config} {off : Nat} (h : off < 0x2000) : Config.routes c (c.base + off) = true := by
  simp [Config.routes]
  omega

theorem windowOffset_base {c : Config} (hl : Config.Legal c) {off : Nat} (h : off < 0x2000) :
    windowOffset (c.base + off) = off := by
  obtain ⟨-, -, -, hb⟩ := hl
  unfold windowOffset
  omega

/-- A legal read of the window (20_memory.md R81, R89). -/
theorem busAccess_hostRead (s : State) {off : Nat} (hl : Config.Legal s.cfg) (h : off < 0x2000) (h4 : off % 4 = 0) :
    s.busAccess (hostRead s.cfg off) = { s with resp := some (.readData (s.busRead off)) } := by
  simp [State.busAccess, hostRead, routes_base h, Access.legal, windowOffset_base hl h, h4]

/-- A legal write of the window (R81, R89). -/
theorem busAccess_hostWrite (s : State) {off : Nat} (w : Word32) (hl : Config.Legal s.cfg) (h : off < 0x2000)
    (h4 : off % 4 = 0) : s.busAccess (hostWrite s.cfg off w) = { s.busWrite off w with resp := some .writeDone } := by
  simp [State.busAccess, hostWrite, routes_base h, Access.legal, windowOffset_base hl h, h4]

theorem readsAs_iff (s : State) {off : Nat} (w : Word32) (hl : Config.Legal s.cfg) (h : off < 0x2000) (h4 : off % 4 = 0) :
    ReadsAs s off w ↔ s.busRead off = w := by
  rw [ReadsAs, busAccess_hostRead s hl h h4]
  constructor
  · intro e
    have := congrArg State.resp e
    simpa using this
  · rintro rfl
    rfl

theorem hidden_low {off : Nat} (h : off < 0x014) : hiddenWhenBusy off = false := by
  simp [hiddenWhenBusy]; omega

theorem hidden_control {off : Nat} (h1 : 0x014 ≤ off) (h2 : off < 0x020) : hiddenWhenBusy off = true := by
  simp [hiddenWhenBusy]; omega

theorem hidden_data {off : Nat} (h : 0x400 ≤ off) : hiddenWhenBusy off = true := by
  simp [hiddenWhenBusy]; omega

theorem hidden_reserved {off : Nat} (h1 : 0x020 ≤ off) (h2 : off < 0x400) : hiddenWhenBusy off = false := by
  simp [hiddenWhenBusy]; omega

/-- While idle a read gives its target (R82). -/
theorem busRead_idle (s : State) (off : Nat) (h : s.busy = false) : s.busRead off = s.readTarget (targetOf off) := by
  simp [State.busRead, h]

/-- While idle a write reaches its target (R82). -/
theorem busWrite_idle (s : State) (off : Nat) (w : Word32) (h : s.busy = false) :
    s.busWrite off w = s.writeTarget (targetOf off) w := by
  simp [State.busWrite, h]

theorem busRead_hidden (s : State) {off : Nat} (h : s.busy = true) (hh : hiddenWhenBusy off = true) : s.busRead off = 0 := by
  simp [State.busRead, h, hh]

theorem busRead_open (s : State) {off : Nat} (hh : hiddenWhenBusy off = false) :
    s.busRead off = s.readTarget (targetOf off) := by
  simp [State.busRead, hh]

theorem busWrite_hidden (s : State) {off : Nat} (w : Word32) (h : s.busy = true) (hh : hiddenWhenBusy off = true) :
    s.busWrite off w = { s with busywr := true } := by
  simp [State.busWrite, h, hh]

theorem busWrite_open (s : State) {off : Nat} (w : Word32) (hh : hiddenWhenBusy off = false) (hc : targetOf off ≠ .cmd) :
    s.busWrite off w = s.writeTarget (targetOf off) w := by
  simp [State.busWrite, hh, hc]

/-! The address map (R82), slot by slot. -/

theorem targetOf_reserved {off : Nat} (h : (0x020 ≤ off ∧ off < 0x400) ∨ (0x780 ≤ off ∧ off < 0x800) ∨ 0x1E00 ≤ off) :
    targetOf off = .reserved := by
  unfold targetOf
  rcases h with ⟨h1, h2⟩ | ⟨h1, h2⟩ | h1
  · rw [if_neg (by omega), if_pos (by omega)]
  · rw [if_neg (by omega), if_neg (by omega), if_neg (by omega), if_pos (by omega)]
  · rw [if_neg (by omega), if_neg (by omega), if_neg (by omega), if_neg (by omega), if_neg (by omega), if_neg (by omega),
      if_neg (by omega)]

theorem targetOf_curve (r : CurveReg) {q : Nat} (h : q < 32) : targetOf (slotCurve r + 4 * q) = .curve r q := by
  unfold targetOf
  have h1 : 0x400 ≤ slotCurve r ∧ slotCurve r ≤ 0x700 ∧ slotCurve r % 0x80 = 0 := by cases r <;> decide
  rw [if_neg (by omega), if_neg (by omega), if_pos (by omega)]
  congr 1
  · cases r <;> simp only [slotCurve] <;>
      first
        | rw [show (0x400 + 4 * q - 0x400) / 0x80 = 0 by omega]; rfl
        | rw [show (0x480 + 4 * q - 0x400) / 0x80 = 1 by omega]; rfl
        | rw [show (0x500 + 4 * q - 0x400) / 0x80 = 2 by omega]; rfl
        | rw [show (0x580 + 4 * q - 0x400) / 0x80 = 3 by omega]; rfl
        | rw [show (0x600 + 4 * q - 0x400) / 0x80 = 4 by omega]; rfl
        | rw [show (0x680 + 4 * q - 0x400) / 0x80 = 5 by omega]; rfl
        | rw [show (0x700 + 4 * q - 0x400) / 0x80 = 6 by omega]; rfl
  · omega

theorem targetOf_v (i : Fin 16) {q : Nat} (h : q < 32) : targetOf (slotV i + 4 * q) = .v i q := by
  unfold targetOf slotV
  have hi := i.isLt
  rw [if_neg (by omega), if_neg (by omega), if_neg (by omega), if_neg (by omega), if_pos (by omega)]
  congr 1
  · apply Fin.ext
    simp only [Fin.ofNat]
    omega
  · omega

theorem targetOf_pt (i : Fin 8) (c : Coord) {q : Nat} (h : q < 32) : targetOf (slotPt i c + 4 * q) = .pt i c q := by
  have hi := i.isLt
  obtain ⟨k, hk, hc, hs⟩ : ∃ k, k < 3 ∧ coordOf k = c ∧ slotPt i c = 0x1000 + 0x180 * i.val + 0x80 * k := by
    cases c
    · exact ⟨0, by norm_num, rfl, rfl⟩
    · exact ⟨1, by norm_num, rfl, by simp only [slotPt]; omega⟩
    · exact ⟨2, by norm_num, rfl, by simp only [slotPt]; omega⟩
  rw [hs, targetOf, if_neg (by omega), if_neg (by omega), if_neg (by omega), if_neg (by omega), if_neg (by omega),
    if_pos (by omega), show (0x1000 + 0x180 * i.val + 0x80 * k + 4 * q - 0x1000) % 0x180 / 0x80 = k by omega, hc]
  congr 1
  · apply Fin.ext
    simp only [Fin.ofNat]
    omega
  · omega

theorem targetOf_ob {q : Nat} (h : q < 128) : targetOf (0x1C00 + 4 * q) = .ob q := by
  unfold targetOf
  rw [if_neg (by omega), if_neg (by omega), if_neg (by omega), if_neg (by omega), if_neg (by omega), if_neg (by omega),
    if_pos (by omega)]
  congr 1
  omega

/-- Only the offset 0x010 is CMD (R82). -/
theorem targetOf_cmd {off : Nat} (h4 : off % 4 = 0) : targetOf off = .cmd ↔ off = 0x010 := by
  constructor
  · intro h
    unfold targetOf at h
    split at h
    · rename_i h0
      obtain ⟨k, hk⟩ : ∃ k, off = 4 * k := ⟨off / 4, by omega⟩
      subst hk
      have : k < 8 := by omega
      rw [show 4 * k / 4 = k by omega] at h
      interval_cases k <;> first | rfl | (simp [controlTarget] at h)
    · exfalso
      split_ifs at h
  · rintro rfl
    rfl

/-! Words of a big register (R83). -/

theorem width_eq {c : Config} (h : Config.Legal c) : c.width = 32 * c.nw := by
  unfold Config.nw
  obtain ⟨h1, -⟩ := h
  omega

theorem nw_le {c : Config} (h : Config.Legal c) : c.nw ≤ 32 := by
  unfold Config.nw
  obtain ⟨-, -, h3, -⟩ := h
  omega

theorem testBit_wordOf (x q i : Nat) : (wordOf x q).getLsbD i = (decide (i < 32) && x.testBit (32 * q + i)) := by
  simp [wordOf, BitVec.getLsbD_ofNat, Nat.testBit_div_two_pow, Nat.add_comm]

theorem replaceWord_testBit (x q : Nat) (w : Word32) (i : Nat) :
    (replaceWord x q w).testBit i = if i / 32 = q then w.getLsbD (i % 32) else x.testBit i := by
  have hw := w.isLt
  have h1 : x % 2 ^ (32 * q) < 2 ^ (32 * q) := Nat.mod_lt _ (by positivity)
  have e : replaceWord x q w = 2 ^ (32 * q) * (2 ^ 32 * (x / 2 ^ (32 * (q + 1))) + w.toNat) + x % 2 ^ (32 * q) := by
    unfold replaceWord
    have : (2 : Nat) ^ (32 * (q + 1)) = 2 ^ (32 * q) * 2 ^ 32 := by rw [← pow_add]; rfl
    rw [this]
    ring
  rw [e, Nat.testBit_two_pow_mul_add _ h1]
  split
  · rename_i h
    rw [if_neg (by omega), Nat.testBit_mod_two_pow]
    simp [h]
  · rename_i h
    rw [Nat.testBit_two_pow_mul_add _ hw]
    split
    · rename_i h2
      rw [if_pos (by omega), show i % 32 = i - 32 * q by omega, BitVec.testBit_toNat]
    · rename_i h2
      rw [if_neg (by omega), Nat.testBit_div_two_pow, show i - 32 * q - 32 + 32 * (q + 1) = i by omega]

theorem replaceWord_word (x q : Nat) (w : Word32) (j : Nat) :
    wordOf (replaceWord x q w) j = if j = q then w else wordOf x j := by
  apply BitVec.eq_of_getLsbD_eq
  intro i hi
  rw [testBit_wordOf, replaceWord_testBit]
  by_cases h : j = q
  · subst h
    rw [if_pos (by omega), if_pos rfl, show (32 * j + i) % 32 = i by omega]
    simp [hi]
  · rw [if_neg (by omega), if_neg h, testBit_wordOf]

theorem replaceWord_lt {x q n : Nat} (w : Word32) (hx : x < 2 ^ (32 * n)) (hq : q < n) :
    replaceWord x q w < 2 ^ (32 * n) := by
  apply Nat.lt_pow_two_of_testBit
  intro i hi
  rw [replaceWord_testBit, if_neg (by omega)]
  exact Nat.testBit_lt_two_pow (lt_of_lt_of_le hx (Nat.pow_le_pow_right (by norm_num) hi))

/-- Two W-bit values with the same words are equal. -/
theorem eq_of_words {x y : Nat} (h : ∀ j, wordOf x j = wordOf y j) : x = y := by
  apply Nat.eq_of_testBit_eq
  intro i
  have := congrArg (fun w => w.getLsbD (i % 32)) (h (i / 32))
  simp only [testBit_wordOf, show 32 * (i / 32) + i % 32 = i by omega, show i % 32 < 32 by omega, decide_true,
    Bool.true_and] at this
  exact this

/-- A PTF write sets the eight forms and no coordinate (10_state.md R38). -/
theorem writePtf_spec (s : State) (w : Word32) : ∃ pt, s.writePtf w = { s with pt := pt } ∧
      ∀ i : Fin 8, (pt.get i).f = Form.ofCode (w.extractLsb' (2 * i.val) 2) ∧ (pt.get i).x = (s.getPt i).x ∧
        (pt.get i).y = (s.getPt i).y ∧ (pt.get i).z = (s.getPt i).z := by
  have key : ∀ (l : List (Fin 8)), l.Nodup → ∀ t : State, ∃ pt,
     l.foldl (fun t i => t.setPt i { t.getPt i with f := Form.ofCode (w.extractLsb' (2 * i.val) 2) }) t = { t with pt := pt } ∧
     ∀ i : Fin 8, pt.get i = if i ∈ l then { t.getPt i with f := Form.ofCode (w.extractLsb' (2 * i.val) 2) } else t.getPt i := by
    intro l
    induction l with
    | nil => exact fun _ t => ⟨t.pt, rfl, fun i => by simp [State.getPt]⟩
    | cons a l ih =>
      intro hn t
      rw [List.nodup_cons] at hn
      obtain ⟨pt, h1, h2⟩ := ih hn.2 (t.setPt a { t.getPt a with f := Form.ofCode (w.extractLsb' (2 * a.val) 2) })
      refine ⟨pt, by rw [List.foldl_cons, h1]; rfl, ?_⟩
      intro i
      rw [h2]
      by_cases hi : i = a
      · subst hi
        rw [if_neg hn.1, getPt_setPt_same, if_pos (List.mem_cons_self ..)]
      · rw [getPt_setPt_ne _ _ _ _ hi]
        simp [hi]
  obtain ⟨pt, h1, h2⟩ := key ptIndices (by decide) s
  refine ⟨pt, h1, fun i => ?_⟩
  rw [h2 i, if_pos (by revert i; decide)]
  exact ⟨rfl, rfl, rfl, rfl⟩

theorem code_ofCode : ∀ c : BitVec 2, (Form.ofCode c).code = c := by decide

/-- A write to the OB window touches OB only (R84). -/
theorem writeObWord_frame (s : State) (q : Nat) (w : Word32) : s.writeObWord q w = { s with ob := (s.writeObWord q w).ob } := by
  unfold State.writeObWord State.setObByte
  split_ifs <;> rfl

end Sys2Proof.Laws
end

