-- ==== Sys2Proof/Laws/Context.lean ====
section
/-! SUPPORT. What no command reads: CTRL.IE, DONE, BUSYWR and the last answer (10_state.md R44). -/

namespace Sys2Proof.Laws
open Sys2Proof.Machine

/-- A state whose IE, DONE, BUSYWR and last answer are others. -/
abbrev inContext (s : State) (ie dn bw : Bool) (rs : Option BusResp) : State :=
  { s with ie := ie, done := dn, busywr := bw, resp := rs }

/-- A command other than CCHK collects the same effect or error there. -/
theorem exec_inContext (i : Instr) (s : State) (ie dn bw : Bool) (rs : Option BusResp) (hi : i ≠ .cchk) :
    ∃ r, exec i s = complete s r ∧ exec i (inContext s ie dn bw rs) = complete (inContext s ie dn bw rs) r := by
  cases i with
  | cchk => exact absurd rfl hi
  | _ => exact ⟨_, rfl, rfl⟩

/-- Filling the octet buffer there. -/
theorem fill_inContext (str : List Byte) (l : List Nat) (s : State) (ie dn bw : Bool) (rs : Option BusResp) : l.foldl (fun t j => t.setObByte j (str.getD j 0)) (inContext s ie dn bw rs) = inContext (l.foldl (fun t j => t.setObByte j (str.getD j 0)) s) ie dn bw rs := by
  induction l generalizing s with
  | nil => rfl
  | cons j l ih =>
    rw [List.foldl_cons, List.foldl_cons, ← ih]
    congr 1
    unfold State.setObByte
    split <;> rfl

end Sys2Proof.Laws
end

