-- ==== Sys2Proof/Laws/Decode.lean ====
section
/-! SUPPORT. Laws of the decoder: the fields of a word and their packing, the register, selector and modulus fields, the opcode map and the checks of R128. -/

namespace Sys2Proof.Laws

theorem toNat_append_eq {m n : Nat} (x : BitVec m) (y : BitVec n) : (x ++ y).toNat = x.toNat * 2 ^ n + y.toNat := by
  rw [BitVec.toNat_append, ← Nat.shiftLeft_add_eq_or_of_lt y.isLt, Nat.shiftLeft_eq]

theorem toNat_extract (w : Word32) (i n : Nat) : (w.extractLsb' i n).toNat = w.toNat / 2 ^ i % 2 ^ n := by
  rw [BitVec.extractLsb'_toNat, Nat.shiftRight_eq_div_pow]

theorem pack_toNat (f : Fields) : (pack f).toNat
    = f.opc.toNat * 2 ^ 26 + f.d.toNat * 2 ^ 22 + f.a.toNat * 2 ^ 18 + f.b.toNat * 2 ^ 14 + f.sel.toNat * 2 ^ 12
      + f.m.toNat * 2 ^ 11 + f.rsv.toNat := by
  simp only [pack, toNat_append_eq]
  omega

theorem unpack_pack (f : Fields) : unpack (pack f) = f := by
  have h := pack_toNat f
  have h1 := f.opc.isLt
  have h2 := f.d.isLt
  have h3 := f.a.isLt
  have h4 := f.b.isLt
  have h5 := f.sel.isLt
  have h6 := f.m.isLt
  have h7 := f.rsv.isLt
  rcases f with ⟨opc, d, a, b, sel, m, rsv⟩
  simp only [unpack, Fields.mk.injEq]
  refine ⟨?_, ?_, ?_, ?_, ?_, ?_, ?_⟩ <;> apply BitVec.eq_of_toNat_eq <;> rw [toNat_extract, h] <;> simp only at * <;> omega

theorem pack_unpack (w : Word32) : pack (unpack w) = w := by
  apply BitVec.eq_of_toNat_eq
  have := w.isLt
  rw [pack_toNat]
  simp only [unpack, toNat_extract]
  omega

theorem regOf_regBits (r : Fin 16) : regOf (regBits r) = r := by
  revert r; decide

theorem regBits_regOf (b : BitVec 4) : regBits (regOf b) = b := by
  revert b; decide

theorem selOf_selBits (r : Sel) : selOf (selBits r) = r := by
  revert r; decide

theorem selBits_selOf (b : BitVec 2) : selBits (selOf b) = b := by
  revert b; decide

theorem modOf_bit (m : ModSel) : modOf m.bit = m := by cases m <;> rfl

theorem bit_modOf (b : BitVec 1) : (modOf b).bit = b := by
  revert b; decide

theorem opcodeOf_row (o : Opcode) : opcodeOf o.row.opc = some o := by
  cases o <;> decide

theorem opcodeOf_some {c : BitVec 6} {o : Opcode} (h : opcodeOf c = some o) : o.row.opc = c := by
  have := List.find?_some h
  simpa using this

theorem ptOk_iff (f : PtField) : PtField.ok f = true ↔ (regBits f).getLsbD 3 = false := by revert f; decide

theorem ptOk_regOf (b : BitVec 4) : PtField.ok (regOf b) = true ↔ b.getLsbD 3 = false := by revert b; decide

/-- The checks after the opcode's (R128). -/
theorem decodeFields_row (f : Fields) (o : Opcode) (h : f.opc = o.row.opc) : decodeFields f =
    if f.rsv ≠ 0 then .error .reserved
    else if unusedSet o.row.d f.d || unusedSet o.row.a f.a || unusedSet o.row.b f.b then .error .reserved
    else if o.row.usesSel = false ∧ f.sel ≠ 0 then .error .reserved
    else if o.row.usesM = false ∧ f.m ≠ 0 then .error .reserved
    else if ptAbove7 o.row.d f.d || ptAbove7 o.row.a f.a || ptAbove7 o.row.b f.b then .error .ptField
    else .ok (buildInstr o f) := by
  rw [decodeFields, h, opcodeOf_row]

theorem unusedSet_v (b : BitVec 4) : unusedSet .v b = false := rfl

theorem unusedSet_pt (b : BitVec 4) : unusedSet .pt b = false := rfl

theorem unusedSet_zero (k : FieldKind) : unusedSet k 0#4 = false := by cases k <;> rfl

theorem ptAbove7_v (b : BitVec 4) : ptAbove7 .v b = false := rfl

theorem ptAbove7_unused (b : BitVec 4) : ptAbove7 .unused b = false := rfl

theorem ptAbove7_pt (f : PtField) : ptAbove7 .pt (regBits f) = ! PtField.ok f := by revert f; decide

theorem append_and {m n : Nat} (a c : BitVec m) (b d : BitVec n) : (a ++ b) &&& (c ++ d) = (a &&& c) ++ (b &&& d) := by
  ext i hi
  simp only [BitVec.getElem_and, BitVec.getElem_append]
  split <;> rfl

/-- The fields of a word under a mask, field by field. -/
def maskFields (f g : Fields) : Fields :=
  ⟨f.opc &&& g.opc, f.d &&& g.d, f.a &&& g.a, f.b &&& g.b, f.sel &&& g.sel, f.m &&& g.m, f.rsv &&& g.rsv⟩

theorem pack_and (f g : Fields) : pack f &&& pack g = pack (maskFields f g) := by
  unfold pack maskFields
  erw [append_and, append_and, append_and, append_and, append_and, append_and]

theorem pack_inj {f g : Fields} : pack f = pack g ↔ f = g :=
  ⟨fun h => by rw [← unpack_pack f, ← unpack_pack g, h], fun h => by rw [h]⟩

/-- A mask-and-match test on a word is one on its fields. -/
theorem match_fields (w m v : Word32) : w &&& m = v ↔ maskFields (unpack w) (unpack m) = unpack v := by
  rw [← pack_unpack w, ← pack_unpack m, ← pack_unpack v, pack_and, pack_inj]
  simp only [pack_unpack]

/-- A PT-kind field under its mask bit: 0 exactly when the field is at most 7 (R122, R127). -/
theorem ptOk_mask (f : PtField) : PtField.ok f = true ↔ regBits f &&& 8#4 = 0#4 := by revert f; decide

end Sys2Proof.Laws
end

