-- ==== Sys2Proof/Laws/GroupLaw.lean ====
section
/-! SUPPORT. The group law: the affine law of R207, the Jacobian formulas of R208 and R209, the conversions of R206 and the scalar loop of R320 compute in the Mathlib group of the curve over ZMod p, for a prime p that is not 2 (41_curve_group.md, 44_scalar.md). -/

namespace Sys2Proof.Laws

open Sys2Proof.Machine WeierstrassCurve.Affine

/-! The rational-function identities behind the Jacobian formulas of R208 and R209. -/

section FieldIdentities
variable {F : Type*} [Field F]

theorem dbl_slope {X Y Z a : F} (h2 : (2 : F) ≠ 0) (hY : Y ≠ 0) (hZ : Z ≠ 0) :
    (3 * (X / Z ^ 2) ^ 2 + a) / (2 * (Y / Z ^ 3)) = (3 * X ^ 2 + a * Z ^ 4) / (2 * Y * Z) := by
  field_simp

theorem dbl_x {X Y Z M : F} (h2 : (2 : F) ≠ 0) (hY : Y ≠ 0) (hZ : Z ≠ 0) :
    (M / (2 * Y * Z)) ^ 2 - X / Z ^ 2 - X / Z ^ 2 = (M ^ 2 - 2 * (4 * X * Y ^ 2)) / (2 * Y * Z) ^ 2 := by
  field_simp
  ring

theorem dbl_y {X Y Z M X3 : F} (h2 : (2 : F) ≠ 0) (hY : Y ≠ 0) (hZ : Z ≠ 0) :
    M / (2 * Y * Z) * (X / Z ^ 2 - X3 / (2 * Y * Z) ^ 2) - Y / Z ^ 3
      = (M * (4 * X * Y ^ 2 - X3) - 8 * Y ^ 4) / (2 * Y * Z) ^ 3 := by
  field_simp
  ring

theorem add_slope {X1 Y1 Z1 X2 Y2 Z2 : F} (h1 : Z1 ≠ 0) (h2 : Z2 ≠ 0) (hD : X2 * Z1 ^ 2 - X1 * Z2 ^ 2 ≠ 0)
    (hd : X1 / Z1 ^ 2 - X2 / Z2 ^ 2 ≠ 0) :
    (Y1 / Z1 ^ 3 - Y2 / Z2 ^ 3) / (X1 / Z1 ^ 2 - X2 / Z2 ^ 2)
      = (Y2 * Z1 ^ 3 - Y1 * Z2 ^ 3) / ((X2 * Z1 ^ 2 - X1 * Z2 ^ 2) * Z1 * Z2) := by
  rw [div_eq_div_iff hd (mul_ne_zero (mul_ne_zero hD h1) h2)]
  field_simp
  ring

theorem add_x {X1 Z1 X2 Z2 D N : F} (h1 : Z1 ≠ 0) (h2 : Z2 ≠ 0) (hD : D ≠ 0) (e : D = X2 * Z1 ^ 2 - X1 * Z2 ^ 2) :
    (N / (D * Z1 * Z2)) ^ 2 - X1 / Z1 ^ 2 - X2 / Z2 ^ 2
      = (N ^ 2 - D ^ 3 - 2 * (X1 * Z2 ^ 2) * D ^ 2) / (D * Z1 * Z2) ^ 2 := by
  field_simp
  linear_combination D ^ 2 * e

theorem add_y {X1 Y1 Z1 Z2 D N X3 : F} (h1 : Z1 ≠ 0) (h2 : Z2 ≠ 0) (hD : D ≠ 0) :
    N / (D * Z1 * Z2) * (X1 / Z1 ^ 2 - X3 / (D * Z1 * Z2) ^ 2) - Y1 / Z1 ^ 3
      = (N * (X1 * Z2 ^ 2 * D ^ 2 - X3) - Y1 * Z2 ^ 3 * D ^ 3) / (D * Z1 * Z2) ^ 3 := by
  field_simp

end FieldIdentities

variable {c : CurveBlock} [hp : Fact c.p.Prime]

theorem red_field (e : Int) : ((red c.p e : Nat) : ZMod c.p) = (e : ZMod c.p) := red_zmod c.p e hp.out.pos

theorem natCast_inj {x y : Nat} (hx : x < c.p) (hy : y < c.p) : (x : ZMod c.p) = y ↔ x = y := natCast_eq_iff_of_lt hx hy

theorem natCast_zero_iff {x : Nat} (hx : x < c.p) : (x : ZMod c.p) = 0 ↔ x = 0 := by
  rw [← Nat.cast_zero, natCast_inj hx hp.out.pos]

/-- Reducing an exact expression twice below p compares residues. -/
theorem red_eq_iff (e f : Int) : red c.p e = red c.p f ↔ (e : ZMod c.p) = (f : ZMod c.p) := by
  rw [← natCast_inj (red_lt _ _ hp.out.pos) (red_lt _ _ hp.out.pos), red_field, red_field]

theorem two_ne_zero_of_odd (h3 : 3 ≤ c.p) : (2 : ZMod c.p) ≠ 0 := by
  have : ((2 : Nat) : ZMod c.p) ≠ 0 := by
    rw [Ne, natCast_zero_iff (by omega)]
    omega
  exact_mod_cast this

/-- The inverse of a nonzero residue (R166, R15). -/
theorem invMod_field (a : Nat) (h : (a : ZMod c.p) ≠ 0) :
    ∃ x, invMod a c.p = .ok x ∧ x < c.p ∧ (x : ZMod c.p) = (a : ZMod c.p)⁻¹ := by
  obtain ⟨x, h1, h2, h3, -⟩ := invMod_prime a c.p hp.out (by rwa [Ne, ZMod.natCast_eq_zero_iff] at h)
  exact ⟨x, h1, h2, h3⟩

omit hp in
theorem some_congr {W : WeierstrassCurve.Affine (ZMod c.p)} {x y x' y' : ZMod c.p} (h : W.Nonsingular x y) (hx : x = x')
    (hy : y = y') : ∃ h', (Point.some x y h : W.Point) = .some x' y' h' := by
  subst hx hy
  exact ⟨h, rfl⟩

/-- The affine law is the addition of the curve's group (41_curve_group.md R207). -/
theorem affAdd_denotes (h3 : 3 ≤ c.p) {q1 q2 : AffPoint} {g1 g2 : c.overField.Point} (d1 : q1.Denotes c g1)
    (d2 : q2.Denotes c g2) : ∃ q, affAdd c q1 q2 = .ok q ∧ q.Denotes c (g1 + g2) := by
  have h2 := two_ne_zero_of_odd h3
  cases q1 with
  | inf =>
    refine ⟨q2, rfl, ?_⟩
    have : g1 = 0 := d1
    rw [this, zero_add]
    exact d2
  | pt x1 y1 =>
    cases q2 with
    | inf =>
      refine ⟨_, rfl, ?_⟩
      have : g2 = 0 := d2
      rw [this, add_zero]
      exact d1
    | pt x2 y2 =>
      obtain ⟨hx1, hy1, n1, rfl⟩ := d1
      obtain ⟨hx2, hy2, n2, rfl⟩ := d2
      have hline : ∀ lam : Nat, (lam : ZMod c.p) = c.overField.slope (x1 : ZMod c.p) x2 y1 y2 →
          ¬ ((x1 : ZMod c.p) = x2 ∧ (y1 : ZMod c.p) = c.overField.negY (x2 : ZMod c.p) y2) →
          (lineThird c lam x1 y1 x2).Denotes c (.some _ _ n1 + .some _ _ n2) := by
        intro lam hl hxy
        refine ⟨red_lt _ _ hp.out.pos, red_lt _ _ hp.out.pos, ?_⟩
        rw [Point.add_some hxy]
        refine some_congr _ ?_ ?_
        · rw [red_field, ← hl]
          push_cast
          simp only [addX, CurveBlock.overField]
          ring
        · rw [red_field, ← hl]
          push_cast
          rw [red_field]
          push_cast
          simp only [addY, negY, negAddY, addX, CurveBlock.overField]
          ring
      simp only [affAdd]
      by_cases hx : x1 = x2
      · subst hx
        by_cases hy : y1 = y2 ∧ y1 ≠ 0
        · rw [if_pos rfl, if_pos hy]
          obtain ⟨rfl, hy0⟩ := hy
          have hy0' : (y1 : ZMod c.p) ≠ 0 := by rwa [Ne, natCast_zero_iff hy1]
          have hne : ((red c.p (2 * (y1 : Int)) : Nat) : ZMod c.p) ≠ 0 := by
            rw [red_field]
            push_cast
            exact mul_ne_zero h2 hy0'
          obtain ⟨di, e1, e2, e3⟩ := invMod_field _ hne
          refine ⟨_, by rw [e1]; rfl, hline _ ?_ ?_⟩
          · rw [red_field]
            push_cast
            rw [e3, red_field]
            have hyn : (y1 : ZMod c.p) ≠ c.overField.negY (x1 : ZMod c.p) y1 := by
              simp only [negY, CurveBlock.overField]
              intro h
              refine mul_ne_zero h2 hy0' ?_
              linear_combination h
            rw [slope_of_Y_ne rfl hyn]
            simp only [negY, CurveBlock.overField]
            push_cast
            rw [div_eq_mul_inv]
            congr 1
            · ring
            · congr 1
              ring
          · rintro ⟨-, h⟩
            simp only [negY, CurveBlock.overField] at h
            refine mul_ne_zero h2 hy0' ?_
            linear_combination h
        · rw [if_pos rfl, if_neg hy]
          refine ⟨_, rfl, ?_⟩
          refine Point.add_of_Y_eq rfl ?_
          rcases Y_eq_of_X_eq n1.1 n2.1 rfl with h | h
          · have hyy : y1 = y2 := (natCast_inj hy1 hy2).1 h
            have hy0 : y1 = 0 := by
              by_contra h0
              exact hy ⟨hyy, h0⟩
            rw [← hyy, hy0]
            simp [CurveBlock.overField]
          · exact h
      · rw [if_neg hx]
        have hx' : (x1 : ZMod c.p) ≠ x2 := by rwa [Ne, natCast_inj hx1 hx2]
        have hne : ((red c.p ((x2 : Int) - x1) : Nat) : ZMod c.p) ≠ 0 := by
          rw [red_field]
          push_cast
          exact sub_ne_zero_of_ne hx'.symm
        obtain ⟨di, e1, e2, e3⟩ := invMod_field _ hne
        refine ⟨_, by rw [e1]; rfl, hline _ ?_ (fun h => hx' h.1)⟩
        rw [red_field]
        push_cast
        rw [e3, red_field, slope_of_X_ne hx']
        push_cast
        rw [← neg_sub (x1 : ZMod c.p), inv_neg, div_eq_mul_inv]
        ring

theorem jacInfinity_denotes (h3 : 3 ≤ c.p) : JacPoint.infinity.Denotes c (0 : c.overField.Point) :=
  ⟨by simp only [JacPoint.infinity]; omega, by simp only [JacPoint.infinity]; omega,
    by simp only [JacPoint.infinity]; omega, by simp [JacPoint.infinity]; rfl⟩

theorem jacPoint_denotes_mk {x y z : Nat} {g : c.overField.Point} (hx : x < c.p) (hy : y < c.p) (hz : z < c.p) (h0 : z ≠ 0)
    (h : ∃ n, g = .some ((x : ZMod c.p) / (z : ZMod c.p) ^ 2) ((y : ZMod c.p) / (z : ZMod c.p) ^ 3) n) :
    (⟨x, y, z⟩ : JacPoint).Denotes c g :=
  ⟨hx, hy, hz, by rw [if_neg h0]; exact h⟩

/-- `jac_of` keeps the point (R206). -/
theorem jacOf_denotes (h3 : 3 ≤ c.p) {q : AffPoint} {g : c.overField.Point} (d : q.Denotes c g) :
    (jacOf q).Denotes c g := by
  cases q with
  | inf =>
    have : g = 0 := d
    rw [this]
    exact jacInfinity_denotes h3
  | pt x y =>
    obtain ⟨hx, hy, h, rfl⟩ := d
    refine ⟨hx, hy, by simp only [jacOf]; omega, ?_⟩
    simp only [jacOf, one_ne_zero, if_false]
    exact some_congr _ (by simp) (by simp)

/-- `aff_of` keeps the point, and never fails for a prime p (R206). -/
theorem affOf_denotes {t : JacPoint} {g : c.overField.Point} (d : t.Denotes c g) :
    ∃ q, affOf c t = .ok q ∧ q.Denotes c g := by
  obtain ⟨hx, hy, hz, h⟩ := d
  simp only [affOf]
  by_cases h0 : t.z = 0
  · rw [if_pos h0] at h ⊢
    exact ⟨_, rfl, h⟩
  · rw [if_neg h0] at h ⊢
    obtain ⟨n, rfl⟩ := h
    obtain ⟨zi, e1, e2, e3⟩ := invMod_field t.z (by rwa [Ne, natCast_zero_iff hz])
    refine ⟨.pt _ _, by rw [e1]; rfl, red_lt _ _ hp.out.pos, red_lt _ _ hp.out.pos, some_congr _ ?_ ?_⟩
    · rw [red_field]
      push_cast
      rw [e3]
      field_simp
    · rw [red_field]
      push_cast
      rw [e3]
      field_simp

/-- Jacobian doubling is doubling in the curve's group (R208). -/
theorem jdbl_denotes (h3 : 3 ≤ c.p) {t : JacPoint} {g : c.overField.Point} (d : t.Denotes c g) :
    (jdbl c t).Denotes c (g + g) := by
  have h2 := two_ne_zero_of_odd h3
  obtain ⟨hx, hy, hz, h⟩ := d
  simp only [jdbl]
  by_cases h0 : t.z = 0
  · rw [if_pos h0] at h
    rw [if_pos (.inl h0)]
    have : g = 0 := h
    rw [this, add_zero]
    exact jacInfinity_denotes h3
  · rw [if_neg h0] at h
    obtain ⟨n, rfl⟩ := h
    have hz' : (t.z : ZMod c.p) ≠ 0 := by rwa [Ne, natCast_zero_iff hz]
    by_cases hy0 : t.y = 0
    · rw [if_pos (.inr hy0)]
      have : (Point.some _ _ n : c.overField.Point) + .some _ _ n = 0 := by
        refine Point.add_self_of_Y_eq ?_
        simp [CurveBlock.overField, hy0]
      rw [this]
      exact jacInfinity_denotes h3
    · rw [if_neg (by simp [h0, hy0])]
      have hy' : (t.y : ZMod c.p) ≠ 0 := by rwa [Ne, natCast_zero_iff hy]
      have hz3 : ((red c.p (2 * (t.y : Int) * t.z) : Nat) : ZMod c.p) = 2 * t.y * t.z := by
        rw [red_field]
        push_cast
        rfl
      have hz3n : red c.p (2 * (t.y : Int) * t.z) ≠ 0 := by
        rw [Ne, ← natCast_zero_iff (red_lt _ _ hp.out.pos), hz3]
        exact mul_ne_zero (mul_ne_zero h2 hy') hz'
      rw [if_neg hz3n]
      refine jacPoint_denotes_mk (red_lt _ _ hp.out.pos) (red_lt _ _ hp.out.pos) (red_lt _ _ hp.out.pos) hz3n ?_
      have hyn : (t.y : ZMod c.p) / t.z ^ 3 ≠ c.overField.negY ((t.x : ZMod c.p) / t.z ^ 2) (t.y / t.z ^ 3) := by
        simp only [negY, CurveBlock.overField]
        intro h
        have h' : 2 * ((t.y : ZMod c.p) / t.z ^ 3) = 0 := by linear_combination h
        exact mul_ne_zero h2 (div_ne_zero hy' (pow_ne_zero _ hz')) h'
      rw [Point.add_self_of_Y_ne hyn]
      set M : ZMod c.p := 3 * t.x ^ 2 + c.a * t.z ^ 4 with hM
      have hsl : c.overField.slope ((t.x : ZMod c.p) / t.z ^ 2) (t.x / t.z ^ 2) (t.y / t.z ^ 3) (t.y / t.z ^ 3)
          = M / (2 * t.y * t.z) := by
        rw [slope_of_Y_ne rfl hyn, ← dbl_slope h2 hy' hz']
        simp only [negY, CurveBlock.overField]
        congr 1 <;> ring
      have hX : c.overField.addX ((t.x : ZMod c.p) / t.z ^ 2) (t.x / t.z ^ 2) (M / (2 * t.y * t.z))
          = (M ^ 2 - 2 * (4 * t.x * t.y ^ 2)) / (2 * t.y * t.z) ^ 2 := by
        rw [← dbl_x h2 hy' hz']
        simp only [addX, CurveBlock.overField]
        ring
      refine some_congr _ ?_ ?_
      · rw [hsl, hX, red_field, hz3]
        congr 1
        push_cast
        simp only [red_field]
        push_cast
        rw [hM]
        ring
      · rw [hsl, addY, negAddY, hX, red_field, hz3]
        have hy3 := dbl_y (X := (t.x : ZMod c.p)) (M := M) (X3 := M ^ 2 - 2 * (4 * t.x * t.y ^ 2)) h2 hy' hz'
        rw [show ∀ e : ZMod c.p, e = M * (4 * t.x * t.y ^ 2 - (M ^ 2 - 2 * (4 * t.x * t.y ^ 2))) - 8 * t.y ^ 4 →
          e / (2 * t.y * t.z) ^ 3 = M / (2 * t.y * t.z) * ((t.x : ZMod c.p) / t.z ^ 2 -
            (M ^ 2 - 2 * (4 * t.x * t.y ^ 2)) / (2 * t.y * t.z) ^ 2) - t.y / t.z ^ 3 from fun e he => by rw [he, hy3]]
        · simp only [negY, CurveBlock.overField]
          ring
        · push_cast
          simp only [red_field]
          push_cast
          simp only [red_field]
          push_cast
          rw [hM]
          ring

/-- Jacobian addition is addition in the curve's group (R209). -/
theorem jadd_denotes (h3 : 3 ≤ c.p) {t1 t2 : JacPoint} {g1 g2 : c.overField.Point} (d1 : t1.Denotes c g1)
    (d2 : t2.Denotes c g2) : (jadd c t1 t2).Denotes c (g1 + g2) := by
  have h2 := two_ne_zero_of_odd h3
  have dd := jdbl_denotes h3 d1
  have dc2 := d2
  have dc1 := d1
  obtain ⟨hx1, hy1, hz1, h1⟩ := d1
  obtain ⟨hx2, hy2, hz2, hh2⟩ := d2
  simp only [jadd]
  by_cases z1 : t1.z = 0
  · rw [if_pos z1] at h1 ⊢
    have : g1 = 0 := h1
    rw [this, zero_add]
    split
    · rename_i z2
      rw [if_pos z2] at hh2
      have : g2 = 0 := hh2
      rw [this]
      exact jacInfinity_denotes h3
    · exact dc2
  · rw [if_neg z1] at h1 ⊢
    by_cases z2 : t2.z = 0
    · rw [if_pos z2] at hh2 ⊢
      have : g2 = 0 := hh2
      rw [this, add_zero]
      exact dc1
    · rw [if_neg z2] at hh2 ⊢
      obtain ⟨n1, rfl⟩ := h1
      obtain ⟨n2, rfl⟩ := hh2
      have z1' : (t1.z : ZMod c.p) ≠ 0 := by rwa [Ne, natCast_zero_iff hz1]
      have z2' : (t2.z : ZMod c.p) ≠ 0 := by rwa [Ne, natCast_zero_iff hz2]
      have hU : red c.p ((t1.x : Int) * t2.z ^ 2) = red c.p ((t2.x : Int) * t1.z ^ 2) ↔
          (t1.x : ZMod c.p) / t1.z ^ 2 = t2.x / t2.z ^ 2 := by
        rw [red_eq_iff, div_eq_div_iff (pow_ne_zero _ z1') (pow_ne_zero _ z2')]
        push_cast
        rfl
      have hS : red c.p ((t1.y : Int) * t2.z ^ 3) = red c.p ((t2.y : Int) * t1.z ^ 3) ↔
          (t1.y : ZMod c.p) / t1.z ^ 3 = t2.y / t2.z ^ 3 := by
        rw [red_eq_iff, div_eq_div_iff (pow_ne_zero _ z1') (pow_ne_zero _ z2')]
        push_cast
        rfl
      by_cases hu : red c.p ((t1.x : Int) * t2.z ^ 2) = red c.p ((t2.x : Int) * t1.z ^ 2)
      · rw [if_pos hu]
        have hxx := hU.1 hu
        by_cases hs : red c.p ((t1.y : Int) * t2.z ^ 3) = red c.p ((t2.y : Int) * t1.z ^ 3)
        · rw [if_pos hs]
          have hyy := hS.1 hs
          have : (Point.some _ _ n2 : c.overField.Point) = .some _ _ n1 := by
            obtain ⟨h', e⟩ := some_congr n2 hxx.symm hyy.symm
            exact e
          rw [this]
          exact dd
        · rw [if_neg hs]
          have hyy := fun h => hs (hS.2 h)
          have : (Point.some _ _ n1 : c.overField.Point) + .some _ _ n2 = 0 :=
            Point.add_of_Y_eq hxx ((Y_eq_of_X_eq n1.1 n2.1 hxx).resolve_left hyy)
          rw [this]
          exact jacInfinity_denotes h3
      · rw [if_neg hu]
        have hxx := fun h => hu (hU.2 h)
        have hH : ((red c.p ((red c.p ((t2.x : Int) * t1.z ^ 2) : Nat) - (red c.p ((t1.x : Int) * t2.z ^ 2) : Nat)) : Nat) : ZMod c.p)
            = t2.x * t1.z ^ 2 - t1.x * t2.z ^ 2 := by
          rw [red_field]
          push_cast
          simp only [red_field]
          push_cast
          rfl
        have hHn : (t2.x * t1.z ^ 2 - t1.x * t2.z ^ 2 : ZMod c.p) ≠ 0 := by
          intro h
          refine hxx ?_
          rw [div_eq_div_iff (pow_ne_zero _ z1') (pow_ne_zero _ z2')]
          linear_combination -h
        set hh := red c.p ((red c.p ((t2.x : Int) * t1.z ^ 2) : Nat) - (red c.p ((t1.x : Int) * t2.z ^ 2) : Nat)) with hhd
        have hz3 : ((red c.p ((hh : Int) * t1.z * t2.z) : Nat) : ZMod c.p)
            = (t2.x * t1.z ^ 2 - t1.x * t2.z ^ 2) * t1.z * t2.z := by
          rw [red_field]
          push_cast
          rw [hH]
        have hz3n : red c.p ((hh : Int) * t1.z * t2.z) ≠ 0 := by
          rw [Ne, ← natCast_zero_iff (red_lt _ _ hp.out.pos), hz3]
          exact mul_ne_zero (mul_ne_zero hHn z1') z2'
        rw [if_neg hz3n]
        refine jacPoint_denotes_mk (red_lt _ _ hp.out.pos) (red_lt _ _ hp.out.pos) (red_lt _ _ hp.out.pos) hz3n ?_
        rw [Point.add_of_X_ne hxx]
        have hden : (t1.x : ZMod c.p) / t1.z ^ 2 - t2.x / t2.z ^ 2 ≠ 0 := sub_ne_zero_of_ne hxx
        set D : ZMod c.p := t2.x * t1.z ^ 2 - t1.x * t2.z ^ 2 with hD
        set N : ZMod c.p := t2.y * t1.z ^ 3 - t1.y * t2.z ^ 3 with hN
        have hsl : c.overField.slope ((t1.x : ZMod c.p) / t1.z ^ 2) (t2.x / t2.z ^ 2) (t1.y / t1.z ^ 3) (t2.y / t2.z ^ 3)
            = N / (D * t1.z * t2.z) := by
          rw [slope_of_X_ne hxx, add_slope z1' z2' hHn hden]
        have hX : c.overField.addX ((t1.x : ZMod c.p) / t1.z ^ 2) (t2.x / t2.z ^ 2) (N / (D * t1.z * t2.z))
            = (N ^ 2 - D ^ 3 - 2 * (t1.x * t2.z ^ 2) * D ^ 2) / (D * t1.z * t2.z) ^ 2 := by
          rw [← add_x z1' z2' hHn hD]
          simp only [addX, CurveBlock.overField]
          ring
        refine some_congr _ ?_ ?_
        · rw [hsl, hX, red_field, hz3]
          congr 1
          push_cast
          simp only [red_field, hH]
          push_cast
          simp only [red_field]
          push_cast
          rw [hN]
          ring
        · rw [hsl, addY, negAddY, hX, red_field, hz3]
          have hy3 := add_y (X1 := (t1.x : ZMod c.p)) (Y1 := (t1.y : ZMod c.p)) (N := N)
            (X3 := N ^ 2 - D ^ 3 - 2 * (t1.x * t2.z ^ 2) * D ^ 2) z1' z2' hHn
          rw [show ∀ e : ZMod c.p, e = N * (t1.x * t2.z ^ 2 * D ^ 2 - (N ^ 2 - D ^ 3 - 2 * (t1.x * t2.z ^ 2) * D ^ 2))
              - t1.y * t2.z ^ 3 * D ^ 3 → e / (D * t1.z * t2.z) ^ 3 = N / (D * t1.z * t2.z) * ((t1.x : ZMod c.p) / t1.z ^ 2
              - (N ^ 2 - D ^ 3 - 2 * (t1.x * t2.z ^ 2) * D ^ 2) / (D * t1.z * t2.z) ^ 2) - t1.y / t1.z ^ 3
              from fun e he => by rw [he, hy3]]
          · simp only [negY, CurveBlock.overField]
            ring
          · push_cast
            simp only [red_field, hH]
            push_cast
            simp only [red_field, hH]
            push_cast
            simp only [red_field]
            push_cast
            rw [hN]
            ring

/-- The scalar loop is the multiple in the curve's group (44_scalar.md R320). -/
theorem jmulLoop_denotes (h3 : 3 ≤ c.p) (k i : Nat) {q t : JacPoint} {g u : c.overField.Point} (dq : q.Denotes c g)
    (dt : t.Denotes c u) : (jmulLoop c k q i t).Denotes c (2 ^ i • u + (k % 2 ^ i) • g) := by
  induction i generalizing t u with
  | zero => simpa [jmulLoop, Nat.mod_one] using dt
  | succ i ih =>
    have hd := jdbl_denotes h3 dt
    simp only [jmulLoop]
    have e1 : 2 ^ (i + 1) • u = 2 ^ i • (u + u) := by rw [pow_succ, mul_nsmul', two_nsmul]
    rw [Nat.mod_pow_succ, ← Nat.toNat_testBit, e1]
    cases k.testBit i with
    | false =>
      have := ih hd
      simpa using this
    | true =>
      have := ih (jadd_denotes h3 hd dq)
      simp only [if_true, Bool.toNat_true, mul_one]
      rw [nsmul_add, add_assoc, ← add_nsmul, Nat.add_comm] at this
      exact this

theorem jmul_denotes (h3 : 3 ≤ c.p) (k : Nat) {q : AffPoint} {g : c.overField.Point} (d : q.Denotes c g) :
    (jmul c k q).Denotes c (k • g) := by
  have := jmulLoop_denotes h3 k (bitlen k) (jacOf_denotes h3 d) (jacInfinity_denotes h3)
  rwa [Nat.mod_eq_of_lt (lt_two_pow_bitlen k), nsmul_zero, zero_add] at this

end Sys2Proof.Laws
end

