-- ==== Sys2Proof/Laws/Slots.lean ====
section
/-! SUPPORT. The big-register slots of the address map as one family (20_memory.md R82, R83): what an access to word q of a slot reads and writes. -/

namespace Sys2Proof.Laws
open Sys2Proof.Machine

/-- Every slot holds a W-bit value (00_scope.md R10). -/
theorem slot_lt {s : State} (h : s.WidthOk) (k : Slot) : s.slot k < 2 ^ s.cfg.width := by
  cases k with
  | curve r => exact h.curve r
  | v i => exact h.v i
  | pt i c => exact h.pt i c

/-- The words of a slot lie in the window, at multiples of 4. -/
theorem slot_off (k : Slot) {q : Nat} (h : q < 32) : k.offset + 4 * q < 0x2000 ∧ (k.offset + 4 * q) % 4 = 0 := by
  cases k with
  | curve r => cases r <;> simp only [Slot.offset, slotCurve] <;> omega
  | v i => have := i.isLt; simp only [Slot.offset, slotV]; omega
  | pt i c => have := i.isLt; cases c <;> simp only [Slot.offset, slotPt] <;> omega

/-- The target of word q of a slot. -/
def slotTarget : Slot → Nat → Target
  | .curve r => .curve r
  | .v i => .v i
  | .pt i c => .pt i c

/-- The address map at a slot (R82). -/
theorem slot_target (k : Slot) {q : Nat} (h : q < 32) : targetOf (k.offset + 4 * q) = slotTarget k q := by
  cases k with
  | curve r => exact targetOf_curve r h
  | v i => exact targetOf_v i h
  | pt i c => exact targetOf_pt i c h

/-- What word q of a slot reads. -/
theorem slot_read (s : State) (k : Slot) (q : Nat) : s.readTarget (slotTarget k q) = s.bigWord (s.slot k) q := by
  cases k <;> rfl

/-- A slot holding a new value; a curve slot also clears CURVE_OK (10_state.md R48). -/
def putSlot (s : State) (k : Slot) (x : Nat) : State :=
  match k with
  | .curve r => { s with curve := s.curve.put r x, curveOk := false }
  | .v i => s.setV i x
  | .pt i c => s.setPt i ((s.getPt i).put c x)

/-- A write to an implemented word of a slot (R83). -/
theorem slot_write (s : State) (k : Slot) (q : Nat) (w : Word32) (h : q < s.cfg.nw) : s.writeTarget (slotTarget k q) w = putSlot s k (replaceWord (s.slot k) q w) := by
  cases k <;> simp [slotTarget, State.writeTarget, putSlot, State.writeCurve, h, State.putWord, State.slot]

/-- A write to a word at NW or above is ignored (R83). -/
theorem slot_write_out (s : State) (k : Slot) (q : Nat) (w : Word32) (h : ¬ q < s.cfg.nw) : s.writeTarget (slotTarget k q) w = s := by
  cases k with
  | curve r => simp [slotTarget, State.writeTarget, State.writeCurve, h]
  | v i =>
    simp only [slotTarget, State.writeTarget, State.putWord, h, if_false, State.setV, State.getV]
    have : s.v.set i.val (s.v.get i) i.isLt = s.v := by
      ext j hj
      rw [Vector.getElem_set]
      split
      · rename_i e; subst e; rfl
      · rfl
    rw [this]
  | pt i c =>
    simp only [slotTarget, State.writeTarget, State.putWord, h, if_false, State.setPt, State.getPt]
    have e : PtReg.put (s.pt.get i) c (PtReg.get (s.pt.get i) c) = s.pt.get i := by cases c <;> rfl
    rw [e]
    have : s.pt.set i.val (s.pt.get i) i.isLt = s.pt := by
      ext j hj
      rw [Vector.getElem_set]
      split
      · rename_i e; subst e; rfl
      · rfl
    rw [this]

/-- A slot reads the value put there. -/
theorem putSlot_same (s : State) (k : Slot) (x : Nat) : (putSlot s k x).slot k = x := by
  cases k with
  | curve r => cases r <;> rfl
  | v i => exact getV_setV_same s i x
  | pt i c => 
    show ((s.setPt i ((s.getPt i).put c x)).getPt i).get c = x
    rw [getPt_setPt_same]; cases c <;> rfl

/-- Every other slot keeps its value. -/
theorem putSlot_ne (s : State) (k k' : Slot) (x : Nat) (h : k' ≠ k) : (putSlot s k x).slot k' = s.slot k' := by
  cases k with
  | curve r =>
    cases k' with
    | curve r' => cases r <;> cases r' <;> first | rfl | exact absurd rfl h
    | v i => rfl
    | pt i c => rfl
  | v i =>
    cases k' with
    | curve r' => rfl
    | v j => exact getV_setV_ne s i j x (fun e => h (by rw [e]))
    | pt j c => rfl
  | pt i c =>
    cases k' with
    | curve r' => rfl
    | v j => rfl
    | pt j c' =>
      show ((s.setPt i ((s.getPt i).put c x)).getPt j).get c' = (s.getPt j).get c'
      by_cases hj : j = i
      · subst hj
        rw [getPt_setPt_same]
        cases c <;> cases c' <;> first | rfl | exact absurd rfl h
      · rw [getPt_setPt_ne _ _ _ _ hj]

/-- No slot holds a form (10_state.md R42). -/
theorem putSlot_form (s : State) (k : Slot) (x : Nat) (i : Fin 8) : ((putSlot s k x).getPt i).f = (s.getPt i).f := by
  cases k with
  | curve r => rfl
  | v i => rfl
  | pt j c =>
      show ((s.setPt j ((s.getPt j).put c x)).getPt i).f = (s.getPt i).f
      by_cases hj : i = j
      · subst hj
        rw [getPt_setPt_same]
        cases c <;> rfl
      · rw [getPt_setPt_ne _ _ _ _ hj]

/-- One host write to an implemented word of a slot, while idle. -/
theorem host_slot (s : State) (k : Slot) (q : Nat) (w : Word32) (hl : Config.Legal s.cfg) (hb : s.busy = false) (hq : q < s.cfg.nw) :
   s.busAccess (hostWrite s.cfg (k.offset + 4 * q) w) = { putSlot s k (replaceWord (s.slot k) q w) with resp := some .writeDone } := by
  have h32 : q < 32 := lt_of_lt_of_le hq (nw_le hl)
  obtain ⟨h1, h2⟩ := slot_off k h32
  rw [busAccess_hostWrite s w hl h1 h2, busWrite_idle s _ w hb, slot_target k h32, slot_write s k q w hq]

theorem put_word_slot (s : State) (k : Slot) (x : Nat) (r : Option BusResp) (k' : Slot) :
    State.slot { putSlot s k x with resp := r } k' = (putSlot s k x).slot k' := by
  cases k' <;> rfl

/-- A curve-block write, register by register (10_state.md R40). -/
theorem curvePut_get (c : CurveBlock) (r r' : CurveReg) (x : Nat) : (c.put r x).get r' = if r' = r then x else c.get r' := by
  cases r <;> cases r' <;> rfl

/-- A word write keeps a W-bit value (R83). -/
theorem putWord_lt {s : State} (hl : Config.Legal s.cfg) {x : Nat} (hx : x < 2 ^ s.cfg.width) (q w) : s.putWord x q w < 2 ^ s.cfg.width := by
  unfold State.putWord
  split
  · rw [width_eq hl] at hx ⊢; exact replaceWord_lt w hx (by assumption)
  · exact hx

end Sys2Proof.Laws
end

