-- ==== Sys2Proof/Laws/HostProgram.lean ====
section
/-! SUPPORT. The host notation of 30_encoding.md R135: what the reads of a big register answer, and what one move of a host program does to the engine. -/

namespace Sys2Proof.Laws
open Sys2Proof.Machine

@[simp] theorem answered_read (s : State) (w : Word32) : State.answered { s with resp := some (.readData w) } = [w] := rfl
@[simp] theorem answered_write (s : State) : State.answered { s with resp := some .writeDone } = [] := rfl
@[simp] theorem slot_resp (s : State) (r : Option BusResp) (k : Slot) : State.slot { s with resp := r } k = s.slot k := by
  cases k <;> rfl

/-- A read of an implemented word of a slot, while idle (20_memory.md R83). -/
theorem host_slot_read (s : State) (k : Slot) {q : Nat} (hl : Config.Legal s.cfg) (hb : s.busy = false) (hq : q < s.cfg.nw) :
    s.busAccess (hostRead s.cfg (k.offset + 4 * q)) = { s with resp := some (.readData (wordOf (s.slot k) q)) } := by
  have h32 : q < 32 := lt_of_lt_of_le hq (nw_le hl)
  obtain ⟨h1, h2⟩ := slot_off k h32
  rw [busAccess_hostRead s hl h1 h2, busRead_idle s _ hb, slot_target k h32, slot_read, State.bigWord, if_pos hq]
  rfl

/-- Reads of words of a slot answer those words, in order, and change the answer alone. -/
theorem slot_reads (k : Slot) (qs : List Nat) : ∀ s : State, Config.Legal s.cfg → s.busy = false → (∀ q ∈ qs, q < s.cfg.nw) →
    let as := qs.map (fun q => hostRead s.cfg (k.offset + 4 * q))
    s.busAnswers as = qs.map (wordOf (s.slot k)) ∧
    s.busAccesses as = { s with resp := (qs.getLast?.map (fun q => some (.readData (wordOf (s.slot k) q)))).getD s.resp } := by
  induction qs with
  | nil => intro s _ _ _; exact ⟨rfl, rfl⟩
  | cons q qs ih =>
    intro s hl hb hq
    have h1 := host_slot_read s k hl hb (hq q List.mem_cons_self)
    obtain ⟨i1, i2⟩ := ih { s with resp := some (.readData (wordOf (s.slot k) q)) } hl hb
      (fun q' h => hq q' (List.mem_cons_of_mem _ h))
    simp only [List.map_cons, State.busAnswers, State.busAccesses, List.foldl_cons, h1]
    simp only [slot_resp] at i1 i2
    refine ⟨by rw [i1]; rfl, ?_⟩
    rw [State.busAccesses] at i2
    rw [i2]
    cases qs with
    | nil => rfl
    | cons q' qs => simp [List.getLast?_cons]

/-- The words of a value from word q on, assembled, are the value shifted down and cut to their number. -/
theorem assembleWords_words (x n : Nat) : ∀ q, assembleWords ((List.range' q n).map (wordOf x)) = x / 2 ^ (32 * q) % 2 ^ (32 * n) := by
  induction n with
  | zero => intro q; simp [assembleWords, Nat.mod_one]
  | succ n ih =>
    intro q
    simp only [List.range'_succ, List.map_cons, assembleWords, ih (q + 1), wordOf, BitVec.toNat_ofNat]
    rw [show 32 * (q + 1) = 32 * q + 32 by ring, show 32 * (n + 1) = 32 + 32 * n by ring, Nat.pow_add, Nat.pow_add,
      ← Nat.div_div_eq_div_mul, Nat.mod_mul]

/-- `RV`: the NW reads of a slot, assembled, are its value (R135). -/
theorem readBig_value {s : State} (k : Slot) (hl : Config.Legal s.cfg) (hw : s.WidthOk) (hb : s.busy = false) :
    assembleWords (s.busAnswers (hostReadBig s.cfg k.offset)) = s.slot k := by
  have hs := slot_lt hw k
  rw [width_eq hl] at hs
  rw [hostReadBig, (slot_reads k _ s hl hb (fun q h => List.mem_range.1 h)).1, List.range_eq_range', assembleWords_words]
  simp [Nat.mod_eq_of_lt hs]

/-- A host access in a program is one bus access of the engine, whatever events are still to come. -/
@[simp] theorem take_access (s : State) (a : Access) : s.take (.access a) = .next (s.busAccess a) := rfl

/-- An access of the host's line is one bus access of the engine. -/
theorem move_access (prog : List HostLine) (r : HostRun) (a : Access) (rest : List Access) (h : r.todo = a :: rest) :
    r.move prog .host = .next { r with
      engine := r.engine.busAccess a, todo := rest, words := r.words ++ (r.engine.busAccess a).answered } := by
  simp [HostRun.move, h]

end Sys2Proof.Laws
end

