-- ==== Sys2Proof/Laws/PerInstr.lean ====
section
/-! SUPPORT. The statement made for every command: the word of a well-formed command matches its own row of spec/opcode_table.json (30_encoding.md R127). -/

namespace Sys2Proof.Laws.Encoding
open Sys2Proof.Machine

/-- The word of a well-formed command matches the table row of the command's mnemonic, under that row's mask. -/
def Statement (i : Instr) : Prop :=
  i.wellFormed = true → ∃ row ∈ opcodeTable, row.1 = mnemonicOf i ∧ encode i &&& row.2.1 = row.2.2

/-- A command's own row, met by the command's fields, gives the statement. -/
theorem of_fields {i : Instr} (name : String) (mask val : Word32) (hn : name = mnemonicOf i)
    (hr : (name, mask, val) ∈ opcodeTable)
    (h : i.wellFormed = true → maskFields (fieldsOf i) (unpack mask) = unpack val) : Statement i := by
  intro hw
  refine ⟨_, hr, hn, ?_⟩
  rw [match_fields, encode, unpack_pack]
  exact h hw

theorem madd (m : ModSel) (d : VField) (a : VField) (b : VField) : Statement (.madd m d a b) := by
  refine of_fields "MADD" 0xFC0037FF 0x04000000 rfl (by decide) ?_
  simp [maskFields, fieldsOf, unpack, Opcode.row]

theorem msub (m : ModSel) (d : VField) (a : VField) (b : VField) : Statement (.msub m d a b) := by
  refine of_fields "MSUB" 0xFC0037FF 0x08000000 rfl (by decide) ?_
  simp [maskFields, fieldsOf, unpack, Opcode.row]

theorem mmul (m : ModSel) (d : VField) (a : VField) (b : VField) : Statement (.mmul m d a b) := by
  refine of_fields "MMUL" 0xFC0037FF 0x0C000000 rfl (by decide) ?_
  simp [maskFields, fieldsOf, unpack, Opcode.row]

theorem minv (m : ModSel) (d : VField) (a : VField) : Statement (.minv m d a) := by
  refine of_fields "MINV" 0xFC03F7FF 0x10000000 rfl (by decide) ?_
  simp [maskFields, fieldsOf, unpack, Opcode.row]

theorem mexp (m : ModSel) (d : VField) (a : VField) (b : VField) : Statement (.mexp m d a b) := by
  refine of_fields "MEXP" 0xFC0037FF 0x14000000 rfl (by decide) ?_
  simp [maskFields, fieldsOf, unpack, Opcode.row]

theorem msqrt (m : ModSel) (d : VField) (a : VField) : Statement (.msqrt m d a) := by
  refine of_fields "MSQRT" 0xFC03F7FF 0x18000000 rfl (by decide) ?_
  simp [maskFields, fieldsOf, unpack, Opcode.row]

theorem mred (m : ModSel) (d : VField) (a : VField) : Statement (.mred m d a) := by
  refine of_fields "MRED" 0xFC03F7FF 0x1C000000 rfl (by decide) ?_
  simp [maskFields, fieldsOf, unpack, Opcode.row]

theorem cchk : Statement .cchk := by
  refine of_fields "CCHK" 0xFFFFFFFF 0x40000000 rfl (by decide) ?_
  simp [maskFields, fieldsOf, unpack, Opcode.row]

theorem oncrv (d : VField) (a : PtField) : Statement (.oncrv d a) := by
  refine of_fields "ONCRV" 0xFC23FFFF 0x44000000 rfl (by decide) ?_
  simp [Instr.wellFormed, maskFields, fieldsOf, unpack, Opcode.row, ptOk_mask]

theorem padd (d : PtField) (a : PtField) (b : PtField) : Statement (.padd d a b) := by
  refine of_fields "PADD" 0xFE223FFF 0x48000000 rfl (by decide) ?_
  simp [Instr.wellFormed, maskFields, fieldsOf, unpack, Opcode.row, ptOk_mask]
  tauto

theorem pneg (d : PtField) (a : PtField) : Statement (.pneg d a) := by
  refine of_fields "PNEG" 0xFE23FFFF 0x4C000000 rfl (by decide) ?_
  simp [Instr.wellFormed, maskFields, fieldsOf, unpack, Opcode.row, ptOk_mask]

theorem jadd (d : PtField) (a : PtField) (b : PtField) : Statement (.jadd d a b) := by
  refine of_fields "JADD" 0xFE223FFF 0x50000000 rfl (by decide) ?_
  simp [Instr.wellFormed, maskFields, fieldsOf, unpack, Opcode.row, ptOk_mask]
  tauto

theorem jdbl (d : PtField) (a : PtField) : Statement (.jdbl d a) := by
  refine of_fields "JDBL" 0xFE23FFFF 0x54000000 rfl (by decide) ?_
  simp [Instr.wellFormed, maskFields, fieldsOf, unpack, Opcode.row, ptOk_mask]

theorem j2a (d : PtField) (a : PtField) : Statement (.j2a d a) := by
  refine of_fields "J2A" 0xFE23FFFF 0x58000000 rfl (by decide) ?_
  simp [Instr.wellFormed, maskFields, fieldsOf, unpack, Opcode.row, ptOk_mask]

theorem a2j (d : PtField) (a : PtField) : Statement (.a2j d a) := by
  refine of_fields "A2J" 0xFE23FFFF 0x5C000000 rfl (by decide) ?_
  simp [Instr.wellFormed, maskFields, fieldsOf, unpack, Opcode.row, ptOk_mask]

theorem j2x (d : VField) (a : PtField) : Statement (.j2x d a) := by
  refine of_fields "J2X" 0xFC23FFFF 0x60000000 rfl (by decide) ?_
  simp [Instr.wellFormed, maskFields, fieldsOf, unpack, Opcode.row, ptOk_mask]

theorem yodd (d : VField) (a : VField) (sel : Sel) : Statement (.yodd d a sel) := by
  refine of_fields "YODD" 0xFC03CFFF 0x64000000 rfl (by decide) ?_
  simp [maskFields, fieldsOf, unpack, Opcode.row]

theorem ylow (d : VField) (a : VField) (sel : Sel) : Statement (.ylow d a sel) := by
  refine of_fields "YLOW" 0xFC03CFFF 0x68000000 rfl (by decide) ?_
  simp [maskFields, fieldsOf, unpack, Opcode.row]

theorem yqr (d : VField) (a : VField) (sel : Sel) : Statement (.yqr d a sel) := by
  refine of_fields "YQR" 0xFC03CFFF 0x6C000000 rfl (by decide) ?_
  simp [maskFields, fieldsOf, unpack, Opcode.row]

theorem hsqy (d : VField) (a : PtField) : Statement (.hsqy d a) := by
  refine of_fields "HSQY" 0xFC23FFFF 0x70000000 rfl (by decide) ?_
  simp [Instr.wellFormed, maskFields, fieldsOf, unpack, Opcode.row, ptOk_mask]

theorem dec (d : PtField) : Statement (.dec d) := by
  refine of_fields "DEC" 0xFE3FFFFF 0x80000000 rfl (by decide) ?_
  simp [Instr.wellFormed, maskFields, fieldsOf, unpack, Opcode.row, ptOk_mask]

theorem enc (a : PtField) (sel : Sel) : Statement (.enc a sel) := by
  refine of_fields "ENC" 0xFFE3CFFF 0x84000000 rfl (by decide) ?_
  simp [Instr.wellFormed, maskFields, fieldsOf, unpack, Opcode.row, ptOk_mask]

theorem smul (d : PtField) (a : PtField) (b : VField) : Statement (.smul d a b) := by
  refine of_fields "SMUL" 0xFE203FFF 0xA0000000 rfl (by decide) ?_
  simp [Instr.wellFormed, maskFields, fieldsOf, unpack, Opcode.row, ptOk_mask]

end Sys2Proof.Laws.Encoding
end

