-- ==== Sys2Proof/Laws/Roots.lean ====
section
/-! SUPPORT. The roots of y recovery (42_curve_y.md R260, R261): what `y_roots` answers, and the two roots of a square modulo a prime. -/

namespace Sys2Proof.Laws
open Sys2Proof.Machine

/-- A square over the field is a square of a number below p. -/
theorem exists_root_iff (p v : Nat) (hp : p.Prime) : IsSquare (v : ZMod p) ↔ ∃ z, z < p ∧ z * z % p = v % p := by
  have : Fact p.Prime := ⟨hp⟩
  constructor
  · rintro ⟨r, hr⟩
    refine ⟨r.val, ZMod.val_lt r, ?_⟩
    rw [← ZMod.natCast_eq_natCast_iff']
    push_cast
    rw [ZMod.natCast_zmod_val, hr]
  · rintro ⟨z, -, h⟩
    rw [← ZMod.natCast_eq_natCast_iff'] at h
    exact ⟨z, by rw [← h]; push_cast; rfl⟩

/-- The root for m mod 4 = 3 (40_modular.md R167). -/
theorem sqrtMod_three_mod_four (v p r : Nat) (h4 : p % 4 = 3) (hr : sqrtMod v p = .ok r) : r = v ^ ((p + 1) / 4) % p := by
  have hm : 2 ≤ p := by omega
  simp only [sqrtMod] at hr
  split at hr
  · rename_i h0
    cases hr
    rw [Nat.pow_mod, h0, Nat.zero_pow (by omega), Nat.zero_mod]
  · rw [bind_eq_ok] at hr
    obtain ⟨x, h1, h2⟩ := hr
    simp only [sqrtCandidate, h4, if_true] at h1
    split at h2
    · cases h2
    · cases h2
      cases h1
      rw [powMod_eq _ _ _ hm, ← Nat.pow_mod]

/-- `y_roots` over the right side of the curve equation (R260). -/
theorem yRoots_eq (c : CurveBlock) (x : Nat) : yRoots c x = if c.p ≤ x then .error .xRange else
    match sqrtMod (rightSide c x) c.p with
    | .error _ => .error .noY
    | .ok r => .ok (r, red c.p ((c.p : Int) - r)) := by
  have : red c.p ((x : Int) * x * x + c.a * x + c.b) = rightSide c x := by
    rw [show ((x : Int) * x * x + c.a * x + c.b) = ((x ^ 3 + c.a * x + c.b : Nat) : Int) by push_cast; ring, red_natCast]
    rfl
  by_cases h : c.p ≤ x
  · simp only [yRoots, if_pos h]
  · cases e : sqrtMod (rightSide c x) c.p <;> simp only [yRoots, this, if_neg h, e]

/-- The other candidate of R260. -/
theorem red_other (p r : Nat) (h : r < p) : red p ((p : Int) - r) = (p - r) % p := by
  rw [show ((p : Int) - r) = ((p - r : Nat) : Int) by omega, red_natCast]

theorem selectorCheck_ok {sel : Sel} (h : sel.val ≤ 1) : selectorCheck sel = .ok () := require_pos _ h

theorem selectorCheck_error {sel : Sel} (h : 2 ≤ sel.val) : selectorCheck sel = .error .selector := require_neg _ (by omega)

/-- The other candidate of the other one is the first. -/
theorem other_other (p r : Nat) (h : r < p) : (p - (p - r) % p) % p = r := by
  by_cases h0 : r = 0
  · subst h0; simp
  · rw [Nat.mod_eq_of_lt (show p - r < p by omega), Nat.mod_eq_of_lt (by omega)]; omega

/-- A square modulo a prime has no third root. -/
theorem roots_of (p r y : Nat) (hp : p.Prime) (hr : r < p) (hy : y < p) (h : r * r % p = y ^ 2 % p) : y = r ∨ y = (p - r) % p := by
  have : Fact p.Prime := ⟨hp⟩
  have e : (r : ZMod p) ^ 2 = (y : ZMod p) ^ 2 := by
    have := (ZMod.natCast_eq_natCast_iff' (r * r) (y ^ 2) p).2 h
    push_cast at this
    rw [← this]; ring
  rcases sq_eq_sq_iff_eq_or_eq_neg.1 e with e | e
  · exact .inl ((natCast_eq_iff_of_lt hr hy).1 e).symm
  · right
    have : ((( p - r) % p : Nat) : ZMod p) = y := by
      rw [ZMod.natCast_mod, Nat.cast_sub (by omega), e]; simp
    exact ((natCast_eq_iff_of_lt (Nat.mod_lt _ (by omega)) hy).1 this).symm

/-- For p mod 4 = 3 exactly one of a nonzero root and its negation is a residue (40_modular.md R169). -/
theorem isQr_neg (p r : Nat) (hp : p.Prime) (h4 : p % 4 = 3) (hr : r < p) (h0 : r ≠ 0) : isQr ((p - r) % p) p = ! isQr r p := by
  have : Fact p.Prime := ⟨hp⟩
  have h3 : 3 ≤ p := by omega
  have e : (((p - r) % p : Nat) : ZMod p) = - (r : ZMod p) := by
    rw [ZMod.natCast_mod, Nat.cast_sub (by omega)]; simp
  have hr0 : (r : ZMod p) ≠ 0 := by
    rw [Ne, ZMod.natCast_eq_zero_iff]; intro h; have := Nat.le_of_dvd (by omega) h; omega
  have k := quadraticChar_neg_one (F := ZMod p) (by rw [ZMod.ringChar_zmod_n]; omega)
  rw [ZMod.card, ZMod.χ₄_nat_three_mod_four h4] at k
  have h1 : IsSquare (-(r : ZMod p)) ↔ ¬ IsSquare (r : ZMod p) := by
    rw [← quadraticChar_one_iff_isSquare (neg_ne_zero.2 hr0), ← quadraticChar_one_iff_isSquare hr0, ← neg_one_mul, map_mul, k]
    rcases quadraticChar_dichotomy hr0 with h | h <;> rw [h] <;> decide
  rw [← e, ← isQr_iff_isSquare _ _ hp h3, ← isQr_iff_isSquare _ _ hp h3] at h1
  cases h5 : isQr ((p - r) % p) p <;> cases h6 : isQr r p <;> simp_all

end Sys2Proof.Laws
end

