-- ==== Sys2Proof/Tests/Slice0.lean ====
section
/-! SUPPORT. Tests: the well-formedness smoke, words written out bit by bit from 30_encoding.md, one step of each command on the vectors of 95_test_vectors.md, the bus, and a witness for the hypotheses of every statement. -/

namespace Sys2Proof.Tests
open Sys2Proof.Machine
set_option Elab.async false

/-! Well-formedness: a PT-kind field above 7 is the one ill-formed operand a term can hold (R122, R128). -/

/-- Every PT-kind field of every command, at a value above 7, in turn: each term is ill-formed and its word is refused by name. -/
theorem test_ill_formed : ∀ i ∈ ([.oncrv 15 8, .padd 8 0 0, .padd 0 15 0, .padd 0 0 9, .pneg 8 0, .pneg 1 10, .jadd 8 0 0] ++
    [.jadd 0 8 0, .jadd 0 0 8, .jdbl 8 0, .jdbl 0 8, .j2a 8 0, .j2a 0 8, .a2j 8 0] ++
    [.a2j 0 8, .j2x 8 8, .hsqy 8 8, .dec 8, .enc 8 0, .smul 8 0 15, .smul 0 8 15] : List Instr), i.wellFormed = false ∧ decode (encode i) = .error .ptField := by decide +kernel

/-- A V field of 15 and a selector of 2 are well formed (R122, R123). -/
theorem test_well_formed : Instr.wellFormed (.smul 1 0 15) = true ∧ Instr.wellFormed (.yodd 1 0 2) = true := by decide

/-! Decoding: one word for every command, its fields written out in the order OPC, D, A, B, SEL, M, RSV (R121). -/

/-- `MADD.N v3, v1, v2`. -/
theorem test_decode_madd : decode 0b000001_0011_0001_0010_00_1_00000000000 = .ok (.madd .n 3 1 2) := by decide +kernel

/-- `MSUB.P v15, v14, v13`. -/
theorem test_decode_msub : decode 0b000010_1111_1110_1101_00_0_00000000000 = .ok (.msub .p 15 14 13) := by decide +kernel

/-- `MMUL.P v3, v1, v2`. -/
theorem test_decode_mmul : decode 0b000011_0011_0001_0010_00_0_00000000000 = .ok (.mmul .p 3 1 2) := by decide +kernel

/-- `MINV.N v4, v4`. -/
theorem test_decode_minv : decode 0b000100_0100_0100_0000_00_1_00000000000 = .ok (.minv .n 4 4) := by decide +kernel

/-- `MEXP.N v7, v8, v9`. -/
theorem test_decode_mexp : decode 0b000101_0111_1000_1001_00_1_00000000000 = .ok (.mexp .n 7 8 9) := by decide +kernel

/-- `MSQRT.P v2, v0`. -/
theorem test_decode_msqrt : decode 0b000110_0010_0000_0000_00_0_00000000000 = .ok (.msqrt .p 2 0) := by decide +kernel

/-- `MRED.N v5, v10`. -/
theorem test_decode_mred : decode 0b000111_0101_1010_0000_00_1_00000000000 = .ok (.mred .n 5 10) := by decide +kernel

/-- `CCHK`. -/
theorem test_decode_cchk : decode 0b010000_0000_0000_0000_00_0_00000000000 = .ok (.cchk) := by decide +kernel

/-- `ONCRV v9, pt6`. -/
theorem test_decode_oncrv : decode 0b010001_1001_0110_0000_00_0_00000000000 = .ok (.oncrv 9 6) := by decide +kernel

/-- `PADD pt2, pt0, pt1`. -/
theorem test_decode_padd : decode 0b010010_0010_0000_0001_00_0_00000000000 = .ok (.padd 2 0 1) := by decide +kernel

/-- `PNEG pt7, pt5`. -/
theorem test_decode_pneg : decode 0b010011_0111_0101_0000_00_0_00000000000 = .ok (.pneg 7 5) := by decide +kernel

/-- `JADD pt1, pt2, pt4`. -/
theorem test_decode_jadd : decode 0b010100_0001_0010_0100_00_0_00000000000 = .ok (.jadd 1 2 4) := by decide +kernel

/-- `JDBL pt3, pt6`. -/
theorem test_decode_jdbl : decode 0b010101_0011_0110_0000_00_0_00000000000 = .ok (.jdbl 3 6) := by decide +kernel

/-- `J2A pt6, pt1`. -/
theorem test_decode_j2a : decode 0b010110_0110_0001_0000_00_0_00000000000 = .ok (.j2a 6 1) := by decide +kernel

/-- `A2J pt5, pt2`. -/
theorem test_decode_a2j : decode 0b010111_0101_0010_0000_00_0_00000000000 = .ok (.a2j 5 2) := by decide +kernel

/-- `J2X v12, pt3`. -/
theorem test_decode_j2x : decode 0b011000_1100_0011_0000_00_0_00000000000 = .ok (.j2x 12 3) := by decide +kernel

/-- `YODD v1, v0, 1`. -/
theorem test_decode_yodd : decode 0b011001_0001_0000_0000_01_0_00000000000 = .ok (.yodd 1 0 1) := by decide +kernel

/-- `YLOW v2, v11, 2`. -/
theorem test_decode_ylow : decode 0b011010_0010_1011_0000_10_0_00000000000 = .ok (.ylow 2 11 2) := by decide +kernel

/-- `YQR v6, v9, 3`. -/
theorem test_decode_yqr : decode 0b011011_0110_1001_0000_11_0_00000000000 = .ok (.yqr 6 9 3) := by decide +kernel

/-- `HSQY v10, pt4`. -/
theorem test_decode_hsqy : decode 0b011100_1010_0100_0000_00_0_00000000000 = .ok (.hsqy 10 4) := by decide +kernel

/-- `DEC pt7`. -/
theorem test_decode_dec : decode 0b100000_0111_0000_0000_00_0_00000000000 = .ok (.dec 7) := by decide +kernel

/-- `ENC pt3, 1`. -/
theorem test_decode_enc : decode 0b100001_0000_0011_0000_01_0_00000000000 = .ok (.enc 3 1) := by decide +kernel

/-- `SMUL pt1, pt0, v5`. -/
theorem test_decode_smul : decode 0b101000_0001_0000_0101_00_0_00000000000 = .ok (.smul 1 0 5) := by decide +kernel

/-- IL1, IL5, IL6, IL8, IL9, IL11 and IL13 of 95_test_vectors.md: the words refused, and why. -/
theorem test_illegal_words : (([0x00000000, 0xFC000000, 0x40000001, 0x40400000, 0x04C49000, 0x64401800, 0x4E000000] : List Word32).map decode)
    = [.error .opcode, .error .opcode, .error .reserved, .error .reserved, .error .reserved, .error .reserved, .error .ptField] := by
  decide +kernel

/-- Bits at nbits and above are 0: the 32-bit word of CCHK is read, a shorter one is not. -/
theorem test_decodeTableWord : decodeTableWord 32 0x40000000 = some .cchk ∧ decodeTableWord 24 0x40000000 = none := by decide +kernel

/-! One step of each command, from the vectors of 95_test_vectors.md; the curve T1 is P = 23, A = B = 1, G = (17, 3), N = 7, H = 4, and T2 is P = 17, A = B = 2, G = (5, 1), N = 19. -/

/-- The vectors' curve T1. -/
def curveT1 : CurveBlock := ⟨23, 1, 1, 17, 3, 7, 4⟩

/-- The vectors' curve T2. -/
def curveT2 : CurveBlock := ⟨17, 2, 2, 5, 1, 19, 1⟩

/-- A 32-bit engine with a curve block loaded and CURVE_OK at a value. -/
def load (c : CurveBlock) (ok : Bool) : State := { State.resetFor ⟨32, 0, 0, 0⟩ with curve := c, curveOk := ok }

/-- T1 or T2 checked, with values in V0, V1, V2. -/
def withV (c : CurveBlock) (v0 v1 v2 : Nat) : State := (((load c true).setV 0 v0).setV 1 v1).setV 2 v2

/-- T1 or T2 checked, with two point registers. -/
def withPt (c : CurveBlock) (q0 q1 : PtReg) : State := ((load c true).setPt 0 q0).setPt 1 q1

/-- T1 checked, with an octet string and a length. -/
def withOb (str : List Byte) (len : BitVec 16) : State := { (load curveT1 true).fillOb str with oblen := len }

/-- ERR, ERRINFO and one value of the state after one step with the command word in flight. -/
def outcome {α : Type} (s : State) (w : Nat) (f : State → α) : Option (BitVec 4 × Byte × α) :=
  match step (s.withFetchWord 32 w) with
  | .next t => some (t.err, t.errInfo, f t)
  | .fault _ => none
  | .refused _ => none

/-- Vector M1. -/
theorem test_madd :
    outcome (withV curveT1 0 20 5) 0x04C48000 (·.getV 3) = some (0, 0, 2) := by decide +kernel

/-- Vector M6. -/
theorem test_msub :
    outcome (withV curveT1 0 0 1) 0x08C48000 (·.getV 3) = some (0, 0, 22) := by decide +kernel

/-- Vector M7. -/
theorem test_mmul :
    outcome (withV curveT1 0 7 8) 0x0CC48000 (·.getV 3) = some (0, 0, 10) := by decide +kernel

/-- Vector M15. -/
theorem test_minv :
    outcome (withV ⟨15, 0, 0, 0, 0, 0, 0⟩ 0 7 0) 0x10C40000 (·.getV 3) = some (0, 0, 13) := by decide +kernel

/-- Vector M16. -/
theorem test_minv_none :
    outcome (withV ⟨15, 0, 0, 0, 0, 0, 0⟩ 0 6 0) 0x10C40000 (·.getV 3) = some (5, 0x50, 0) := by decide +kernel

/-- Vector M17. -/
theorem test_mexp :
    outcome (withV curveT1 0 2 11) 0x14C48000 (·.getV 3) = some (0, 0, 1) := by decide +kernel

/-- Vector M18. -/
theorem test_mexp_zero :
    outcome (withV curveT1 0 0 0) 0x14C48000 (·.getV 3) = some (0, 0, 1) := by decide +kernel

/-- Vector M26. -/
theorem test_msqrt_3mod4 :
    outcome (withV curveT1 0 2 0) 0x18C40000 (·.getV 3) = some (0, 0, 18) := by decide +kernel

/-- Vector M40. -/
theorem test_msqrt_tonelli :
    outcome (withV curveT2 0 15 0) 0x18C40000 (·.getV 3) = some (0, 0, 7) := by decide +kernel

/-- Vector M21. -/
theorem test_mred :
    outcome (withV curveT1 0 100 0) 0x1CC40000 (·.getV 3) = some (0, 0, 8) := by decide +kernel

/-- Vector CV4. -/
theorem test_cchk :
    outcome (load ⟨23, 1, 1, 17, 3, 21, 4⟩ false) 0x40000000 (·.curveOk) = some (0, 0, true) := by decide +kernel

/-- Vector CV2. -/
theorem test_cchk_order :
    outcome (load ⟨23, 1, 1, 17, 3, 5, 4⟩ true) 0x40000000 (·.curveOk) = some (4, 0x45, false) := by decide +kernel

/-- Vector CV17. -/
theorem test_oncrv :
    outcome (withPt curveT1 ⟨.aff, 17, 4, 1⟩ PtReg.zero) 0x44000000 (·.getV 0) = some (0, 0, 0) := by decide +kernel

/-- Vector CV20. -/
theorem test_oncrv_form :
    outcome (withPt curveT1 ⟨.jac, 17, 3, 1⟩ PtReg.zero) 0x44000000 (·.getV 0) = some (4, 0x31, 0) := by decide +kernel

/-- Vector CV22. -/
theorem test_padd_double :
    outcome (withPt curveT1 ⟨.aff, 17, 3, 1⟩ ⟨.aff, 17, 3, 1⟩) 0x48804000 (·.getPt 2) = some (0, 0, ⟨.aff, 13, 16, 1⟩) := by decide +kernel

/-- Vector CV23. -/
theorem test_padd :
    outcome (withPt curveT1 ⟨.aff, 17, 3, 1⟩ ⟨.aff, 13, 16, 1⟩) 0x48804000 (·.getPt 2) = some (0, 0, ⟨.aff, 5, 4, 1⟩) := by decide +kernel

/-- Vector CV34. -/
theorem test_pneg :
    outcome (withPt curveT1 ⟨.aff, 17, 3, 1⟩ PtReg.zero) 0x4C400000 (·.getPt 1) = some (0, 0, ⟨.aff, 17, 20, 1⟩) := by decide +kernel

/-- Vector CV35. -/
theorem test_pneg_torsion :
    outcome (withPt curveT1 ⟨.aff, 4, 0, 1⟩ PtReg.zero) 0x4C400000 (·.getPt 1) = some (0, 0, ⟨.aff, 4, 0, 1⟩) := by decide +kernel

/-- Vector CV39. -/
theorem test_jadd :
    outcome (withPt curveT1 ⟨.jac, 8, 6, 6⟩ ⟨.jac, 17, 3, 1⟩) 0x50804000 (·.getPt 2) = some (0, 0, ⟨.jac, 17, 2, 13⟩) := by decide +kernel

/-- Vector CV43. -/
theorem test_jadd_general :
    outcome (withPt curveT1 ⟨.jac, 8, 6, 6⟩ ⟨.jac, 13, 16, 1⟩) 0x50804000 (·.getPt 2) = some (0, 0, ⟨.jac, 22, 7, 3⟩) := by decide +kernel

/-- Vector CV52. -/
theorem test_jdbl :
    outcome (withPt curveT1 PtReg.zero ⟨.jac, 22, 1, 2⟩) 0x54040000 (·.getPt 0) = some (0, 0, ⟨.jac, 1, 12, 4⟩) := by decide +kernel

/-- Vector CV50. -/
theorem test_jdbl_torsion :
    outcome (withPt curveT1 PtReg.zero ⟨.jac, 4, 0, 1⟩) 0x54040000 (·.getPt 0) = some (0, 0, ⟨.jac, 1, 1, 0⟩) := by decide +kernel

/-- Vector CV56. -/
theorem test_j2a :
    outcome (withPt curveT1 ⟨.jac, 17, 2, 13⟩ PtReg.zero) 0x58400000 (·.getPt 1) = some (0, 0, ⟨.aff, 5, 4, 1⟩) := by decide +kernel

/-- Vector CV58. -/
theorem test_j2a_inf :
    outcome (withPt curveT1 ⟨.jac, 9, 9, 0⟩ PtReg.zero) 0x58400000 (·.getPt 1) = some (0, 0, ⟨.inf, 0, 0, 0⟩) := by decide +kernel

/-- Vector CV61. -/
theorem test_a2j :
    outcome (withPt curveT1 ⟨.aff, 17, 3, 1⟩ PtReg.zero) 0x5C400000 (·.getPt 1) = some (0, 0, ⟨.jac, 17, 3, 1⟩) := by decide +kernel

/-- Vector CV62. -/
theorem test_a2j_inf :
    outcome (withPt curveT1 ⟨.inf, 0, 0, 0⟩ PtReg.zero) 0x5C400000 (·.getPt 1) = some (0, 0, ⟨.jac, 1, 1, 0⟩) := by decide +kernel

/-- Vector CV66. -/
theorem test_j2x :
    outcome (withPt curveT1 ⟨.jac, 17, 2, 13⟩ PtReg.zero) 0x60000000 (·.getV 0) = some (0, 0, 5) := by decide +kernel

/-- Vector CV67. -/
theorem test_j2x_inf :
    outcome (withPt curveT1 ⟨.jac, 1, 1, 0⟩ PtReg.zero) 0x60000000 (·.getV 0) = some (4, 0x36, 0) := by decide +kernel

/-- Vector Y19. -/
theorem test_yodd :
    outcome (withV curveT1 5 0 0) 0x64401000 (·.getV 1) = some (0, 0, 19) := by decide +kernel

/-- Vector Y7. -/
theorem test_yodd_none :
    outcome (withV curveT1 4 0 0) 0x64401000 (·.getV 1) = some (4, 0x3D, 0) := by decide +kernel

/-- Vector Y16. -/
theorem test_ylow :
    outcome (withV curveT1 1 0 0) 0x68400000 (·.getV 1) = some (0, 0, 16) := by decide +kernel

/-- Vector Y44. -/
theorem test_ylow_T2 :
    outcome (withV curveT2 0 0 0) 0x68401000 (·.getV 1) = some (0, 0, 6) := by decide +kernel

/-- Vector Y17. -/
theorem test_yqr :
    outcome (withV curveT1 1 0 0) 0x6C401000 (·.getV 1) = some (0, 0, 16) := by decide +kernel

/-- Vector Y48. -/
theorem test_yqr_mod4 :
    outcome (withV curveT2 5 0 0) 0x6C401000 (·.getV 1) = some (4, 0x35, 0) := by decide +kernel

/-- Vector Y51. -/
theorem test_hsqy :
    outcome (withPt curveT1 ⟨.aff, 17, 20, 1⟩ PtReg.zero) 0x70400000 (·.getV 1) = some (0, 0, 0) := by decide +kernel

/-- Vector Y53. -/
theorem test_hsqy_torsion :
    outcome (withPt curveT1 ⟨.aff, 4, 0, 1⟩ PtReg.zero) 0x70400000 (·.getV 1) = some (0, 0, 1) := by decide +kernel

/-- Vector EC2. -/
theorem test_dec :
    outcome (withOb [0x02, 0x11] 2) 0x80000000 (·.getPt 0) = some (0, 0, ⟨.aff, 17, 20, 1⟩) := by decide +kernel

/-- Vector EC16. -/
theorem test_dec_length :
    outcome (withOb [0x03, 0x11] 600) 0x80000000 (·.getPt 0) = some (4, 0x37, ⟨.inf, 0, 0, 0⟩) := by decide +kernel

/-- Vector EC21. -/
theorem test_enc_compressed :
    outcome (withPt curveT1 ⟨.aff, 13, 16, 1⟩ PtReg.zero) 0x84001000 (fun t => (t.obSlice 0 3, t.oblen)) = some (0, 0, [0x02, 0x0D, 0x00], 2) := by decide +kernel

/-- Vector EC22. -/
theorem test_enc_uncompressed :
    outcome (withPt curveT1 ⟨.aff, 13, 16, 1⟩ PtReg.zero) 0x84000000 (fun t => (t.obSlice 0 3, t.oblen)) = some (0, 0, [0x04, 0x0D, 0x10], 3) := by decide +kernel

/-- Vector S11. -/
theorem test_smul :
    outcome ((withPt curveT1 ⟨.aff, 17, 3, 1⟩ PtReg.zero).setV 5 0xffffffff) 0xA0414000 (·.getPt 1) = some (0, 0, ⟨.aff, 5, 4, 1⟩) := by decide +kernel

/-- Vector S15. -/
theorem test_smul_reduces :
    outcome ((withPt curveT1 ⟨.aff, 4, 0, 1⟩ PtReg.zero).setV 5 7) 0xA0414000 (·.getPt 1) = some (0, 0, ⟨.inf, 0, 0, 0⟩) := by decide +kernel

/-! The bus. -/

/-- A state after a list of accesses at offsets of the window, each a write. -/
def afterWrites (s : State) (ws : List (Nat × Word32)) : State :=
  s.busAccesses (ws.map (fun p => hostWrite s.cfg p.1 p.2))

/-- The word a read at an offset is answered with, if it is answered with one. -/
def readAt (s : State) (off : Nat) : Option Word32 :=
  match (s.busAccess (hostRead s.cfg off)).resp with
  | some (.readData w) => some w
  | some .writeDone | some .busError | none => none

/-- R33, R34: ID and HWCFG of the reference configuration, right after reset. -/
theorem test_id_hwcfg : readAt State.reset 0x000 = some 0xECC10100 ∧ readAt State.reset 0x004 = some 0x08100100 := by
  decide +kernel

/-- R83: word 1 of V2 is bits 63 to 32, and a word at NW or above is ignored. -/
theorem test_big_words :
    (afterWrites State.reset [(0x904, 0x89ABCDEF), (0x920, 0xFFFFFFFF)]).getV 2 = 0x89ABCDEF00000000 := by decide +kernel

/-- R84: the lanes of the octet buffer, lowest index first, and the end of a 9-byte buffer (W = 32). -/
theorem test_octet_lanes :
    (afterWrites (load curveT1 true) [(0x1C00, 0x00001103), (0x1C08, 0xAABBCCDD)]).obSlice 0 12
      = [0x03, 0x11, 0, 0, 0, 0, 0, 0, 0xDD, 0, 0, 0] := by decide +kernel

/-- R87, R348: while busy a data write is dropped and sets BUSYWR, and a data read answers 0. -/
theorem test_busy :
    let s := afterWrites (withV curveT1 0 20 5) [(0x010, 0x04C48000), (0x880, 1)]
    s.getV 1 = 20 ∧ readAt s 0x880 = some 0 ∧ readAt s 0x00C = some 0x0000000D ∧ readAt s 0x010 = some 0x04C48000 := by
  decide +kernel

/-- R351: clearing DONE and BUSYWR by writing 1, each alone. -/
theorem test_w1c :
    let s : State := { load curveT1 false with done := true, busywr := true }
    (afterWrites s [(0x00C, 0x2)]).done = false ∧ (afterWrites s [(0x00C, 0x2)]).busywr = true ∧
      (afterWrites s [(0x00C, 0x4)]).done = true ∧ (afterWrites s [(0x00C, 0x4)]).busywr = false := by decide +kernel

/-- R48: a write to the curve block clears CURVE_OK though the value does not change. -/
theorem test_curveOk_cleared : (afterWrites (load curveT1 true) [(0x400, 23)]).curveOk = false := by decide +kernel

/-- The host program of MADD, from reset to its result: R135's notation, R376's order. -/
theorem test_host_program :
    let c := Config.reference
    let load := hostWriteBig c (slotCurve .p) 23 ++ hostWriteBig c (slotV 1) 20 ++ hostWriteBig c (slotV 2) 5
    let s := State.busAccesses State.reset load
    outcome s 0x04C48000 (·.getV 3) = some (0, 0, 2) := by decide +kernel

/-- Vector BUS7: RV assembles the least significant word first. -/
theorem test_host_rv :
    let s := afterWrites State.reset [(0x800, 5), (0x804, 1)]
    assembleWords (s.busAnswers (hostReadBig s.cfg (slotV 0))) = 2 ^ 32 + 5 := by decide +kernel

/-- The line a program is on and the values read, after moves from its start. -/
def hostAfter (prog : List HostLine) (s : State) (ms : List HostMove) : Option (Nat × HostEnv) :=
  match (HostRun.start prog s).run prog ms with
  | .next r => some (r.line, r.env)
  | .fault _ => none
  | .refused _ => none

/-- Program P4's first WAIT: it polls while BUSY is 1, and ends with the STATUS 0x00010102. -/
theorem test_host_wait :
    hostAfter [.wait] (State.reset.accept 0) [.host, .host] = some (0, [("s", 1)]) ∧
    hostAfter [.wait] (State.reset.accept 0) [.engine, .host, .host] = some (1, [("s", 0x00010102)]) := by decide +kernel

/-- Program P4's read of ID with a branch on it, both ways: `R`, a label and `if` (R135). -/
theorem test_host_branch :
    let prog (n : Nat) : List HostLine :=
      [.label "again", .r 0x000 "id", .ifGoto (fun e => decide (e.get "id" = some n)) "again", .goto "end", .label "end"]
    hostAfter (prog 0xECC10100) State.reset [.host, .host, .host, .host] = some (0, [("id", 0xECC10100)]) ∧
    hostAfter (prog 0) State.reset [.host, .host, .host, .host, .host] = some (4, [("id", 0xECC10100)]) := by decide +kernel

/-! Witnesses: for each statement with hypotheses, states and operands that meet them, clause by clause. -/

/-- A composite P: y² = x³ + 1 modulo 15, with N = 7. -/
def curve15 : CurveBlock := ⟨15, 0, 1, 0, 1, 7, 1⟩

/-- The point G of T1 in affine and in Jacobian form, and a pair that is not on T1. -/
def regG : PtReg := ⟨.aff, 17, 3, 1⟩

def regJ : PtReg := ⟨.jac, 17, 3, 1⟩

def regOff : PtReg := ⟨.aff, 17, 4, 1⟩

def regJOff : PtReg := ⟨.jac, 17, 4, 1⟩

/-- The octet string of a witness, on T1. -/
def octets (str : List Byte) : State := withOb str (BitVec.ofNat 16 str.length)

/-- Whether an outcome is a next state with a property. -/
def nextWith (o : Host.Outcome State Fault Refusal) (p : State → Bool) : Bool :=
  match o with
  | .next t => p t
  | .fault _ => false
  | .refused _ => false

theorem exists_of_nextWith {o : Host.Outcome State Fault Refusal} {p : State → Prop} [DecidablePred p]
    (h : nextWith o (fun t => decide (p t)) = true) : ∃ t, o = .next t ∧ p t := by
  cases o with
  | next t => exact ⟨t, rfl, of_decide_eq_true h⟩
  | fault f => cases h
  | refused r => cases h

theorem witness_DecodeOfEncode : Instr.wellFormed (.padd 7 7 7) = true := by decide

theorem witness_EncodeOfDecode : decode 0xA1C7C000 = .ok (.smul 7 1 15) := by decide +kernel

theorem witness_MatchAndMask : ("SMUL", 0xFE203FFF, 0xA0000000) ∈ opcodeTable ∧ decode 0xA1C7C000 = .ok (.smul 7 1 15) := by
  decide +kernel

/-- The unassigned opcode values next to the assigned ones. -/
theorem witness_IllegalWords_opcode :
    ([0x00000000, 0x20000000, 0x3C000000, 0x74000000, 0x88000000, 0xA4000000] : List Word32).map (fun w => decide ((unpack w).opc ∈
      ([0x01, 0x02, 0x03, 0x04, 0x05, 0x06, 0x07] ++
        [0x10, 0x11, 0x12, 0x13, 0x14, 0x15, 0x16, 0x17, 0x18, 0x19, 0x1A, 0x1B, 0x1C] ++ [0x20, 0x21, 0x28] :
        List (BitVec 6)))) = List.replicate 6 false := by decide +kernel

theorem witness_IllegalWords_reserved :
    ((unpack 0x40000001).opc = Opcode.cchk.row.opc ∧ (unpack 0x40000001).rsv ≠ 0) ∧
    ((unpack 0x40400000).opc = Opcode.cchk.row.opc ∧ Opcode.cchk.row.d = .unused ∧ (unpack 0x40400000).d ≠ 0) ∧
    ((unpack 0x80040000).opc = Opcode.dec.row.opc ∧ Opcode.dec.row.a = .unused ∧ (unpack 0x80040000).a ≠ 0) ∧
    ((unpack 0x4C404000).opc = Opcode.pneg.row.opc ∧ Opcode.pneg.row.b = .unused ∧ (unpack 0x4C404000).b ≠ 0) ∧
    ((unpack 0x04C49000).opc = Opcode.madd.row.opc ∧ Opcode.madd.row.usesSel = false ∧ (unpack 0x04C49000).sel ≠ 0) ∧
    ((unpack 0x64401800).opc = Opcode.yodd.row.opc ∧ Opcode.yodd.row.usesM = false ∧ (unpack 0x64401800).m ≠ 0) := by
  decide +kernel

theorem witness_IllegalWords_ptField :
    ((unpack 0x4E000000).opc = Opcode.pneg.row.opc ∧ Opcode.pneg.row.d = .pt ∧ (unpack 0x4E000000).d.toNat = 8 ∧
      (unpack 0x4E000000).a = 0 ∧ (unpack 0x4E000000).b = 0 ∧ (unpack 0x4E000000).rsv = 0) ∧
    ((unpack 0x49C7C000).opc = Opcode.padd.row.opc ∧ Opcode.padd.row.b = .pt ∧ (unpack 0x49C7C000).b.toNat = 15 ∧
      (unpack 0x49C7C000).d.toNat = 7 ∧ (unpack 0x49C7C000).a.toNat = 1 ∧ (unpack 0x49C7C000).rsv = 0) ∧
    ((unpack 0x49C5C000).opc = Opcode.padd.row.opc ∧ (unpack 0x49C5C000).d.toNat = 7 ∧ (unpack 0x49C5C000).b.toNat = 7 ∧
      (unpack 0x49C5C000).sel = 0 ∧ (unpack 0x49C5C000).m = 0 ∧ (unpack 0x49C5C000).rsv = 0) := by decide +kernel

theorem witness_StepRunsDecodedCommand :
    let s : State := { (withV curveT1 0 20 5).accept 0x04C48000 with agenda := [.completion, .powerOnReset] }
    (s.busy = true ∧ decode s.cmdLast = .ok (.madd .p 3 1 2) ∧ s.agenda = .completion :: [.powerOnReset]) ∧
    (let t : State := { s with agenda := [] }; t.busy = true ∧ decode t.cmdLast = .ok (.madd .p 3 1 2) ∧ t.agenda = []) ∧
    (let t : State := { s with busy := false }; t.busy = false ∧ t.agenda = .completion :: [.powerOnReset]) ∧
    (State.reset.busy = false ∧ State.reset.agenda = []) ∧
    (let t : State := { s with agenda := [.access (hostRead s.cfg 0x00C)] }; t.agenda = .access (hostRead s.cfg 0x00C) :: []) ∧
    (let t : State := { s with agenda := [.powerOnReset] }; t.agenda = .powerOnReset :: []) := by decide +kernel

theorem witness_IllegalWordCompletes :
    decode (State.reset.accept 0).cmdLast = .error .opcode ∧
    decode (State.reset.accept 0x40000001).cmdLast = .error .reserved ∧
    decode (State.reset.accept 0x4E000000).cmdLast = .error .ptField := by decide +kernel

theorem witness_ErrorAtomicity :
    (∃ t, exec (.madd .p 3 1 2) (withV curveT1 0 20 5) = .next t ∧ t.err = 0) ∧
    (∃ t, exec (.madd .p 3 1 2) State.reset = .next t ∧ t.err ≠ 0) ∧
    (∃ t, exec .cchk (load curveT1 false) = .next t ∧ t.err = 0) ∧
    (∃ t, exec .cchk (load curve15 true) = .next t ∧ t.err ≠ 0) := by
  refine ⟨?_, ?_, ?_, ?_⟩ <;> exact exists_of_nextWith (by decide +kernel)

theorem witness_CurveCommandsNeedCurveOk :
    needsCurve (.enc 7 3) = true ∧ needsCurve (.dec 0) = true ∧ (load curveT1 false).curveOk = false := by decide

/-- For MADD, MSUB, MMUL, MEXP, MRED: both modulus selects at the smallest legal modulus, an even one, and one below 3. -/
theorem witness_modulus :
    (let s := load ⟨3, 0, 0, 0, 0, 5, 0⟩ false; s.modulus .p % 2 = 1 ∧ 3 ≤ s.modulus .p ∧ s.modulus .n % 2 = 1 ∧ 3 ≤ s.modulus .n) ∧
    (let s := load ⟨4, 0, 0, 0, 0, 1, 0⟩ false; s.modulus .p % 2 = 0 ∧ s.modulus .n < 3) := by decide

theorem witness_MinvResult :
    (let s := withV curve15 0 7 0; s.modulus .p % 2 = 1 ∧ 3 ≤ s.modulus .p ∧ Nat.gcd (s.getV 1 % s.modulus .p) (s.modulus .p) = 1) ∧
    (let s := withV curve15 0 6 0; s.modulus .p % 2 = 1 ∧ 3 ≤ s.modulus .p ∧ Nat.gcd (s.getV 1 % s.modulus .p) (s.modulus .p) ≠ 1) ∧
    (let s := withV curveT1 0 23 0; s.modulus .p % 2 = 1 ∧ 3 ≤ s.modulus .p ∧ s.getV 1 % s.modulus .p = 0) ∧
    (let s := withV curveT1 0 5 0; Nat.gcd (s.getV 1 % s.modulus .p) (s.modulus .p) = 1 ∧ (s.modulus .p).Prime) := by
  refine ⟨by decide +kernel, by decide +kernel, by decide +kernel, by decide +kernel, ?_⟩
  show Nat.Prime 23
  norm_num

theorem witness_MsqrtResult :
    (let s := withV curveT1 0 2 0; s.modulus .p % 2 = 1 ∧ 3 ≤ s.modulus .p ∧ sqrtMod (s.getV 1) (s.modulus .p) = .ok 18) ∧
    (let s := withV curveT1 0 5 0; s.modulus .p % 2 = 1 ∧ 3 ≤ s.modulus .p ∧ sqrtMod (s.getV 1) (s.modulus .p) = .error .noSqrt) := by
  decide +kernel

theorem witness_SquareRootsModPrime : Nat.Prime 23 ∧ 3 ≤ 23 ∧ 23 % 4 = 3 ∧ sqrtMod 2 23 = .ok 18 ∧ Nat.Prime 17 ∧ sqrtMod 15 17 = .ok 7 :=
  ⟨by norm_num, by norm_num, by norm_num, by decide +kernel, by norm_num, by decide +kernel⟩

/-- Each of CCHK's seven results is met by a curve block: 0x40 to 0x45 in order, then success. -/
theorem witness_CchkResult :
    [load ⟨24, 1, 1, 17, 3, 7, 4⟩ false, load ⟨23, 1, 1, 23, 3, 7, 4⟩ false, load ⟨23, 0, 0, 1, 1, 23, 1⟩ false,
      load ⟨23, 1, 1, 17, 4, 7, 4⟩ false, load ⟨23, 1, 1, 17, 3, 1, 4⟩ false, load ⟨23, 1, 1, 17, 3, 5, 4⟩ false,
      load curveT1 false].map (fun s => outcome s 0x40000000 (·.curveOk))
      = [some (4, 0x40, false), some (4, 0x41, false), some (4, 0x42, false), some (4, 0x43, false), some (4, 0x44, false),
        some (4, 0x45, false), some (0, 0, true)] := by decide +kernel

/-- For ONCRV, PADD, PNEG, A2J, HSQY and ENC: an affine operand that is INF, on the curve, off the curve, and of another form. -/
theorem witness_affine_operand :
    (withPt curveT1 regG regG).curveOk = true ∧ (load curveT1 false).curveOk = false ∧
    AffOperand (load curveT1 true) 7 .inf ∧ AffOperand (withPt curveT1 regG regG) 0 (.pt 17 3) ∧
    AffOperand (withPt curveT1 ⟨.aff, 4, 0, 0⟩ regG) 0 (.pt 4 0) ∧
    OffCurve (withPt curveT1 regOff regG) 0 ∧ OffCurve (withPt curveT1 ⟨.aff, 40, 3, 1⟩ regG) 0 ∧
    ¬ AffForm (withPt curveT1 regJ regG) 0 ∧ ¬ AffForm (withPt curveT1 ⟨.reserved, 17, 3, 1⟩ regG) 0 := by
  simp only [AffOperand, OffCurve, AffForm, OnCurve]
  decide +kernel

theorem witness_PaddResult :
    (AffForm (withPt curveT1 regG regJ) 0 ∧ ¬ AffForm (withPt curveT1 regG regJ) 1) ∧
    (OffCurve (withPt curveT1 regOff regG) 0 ∧ AffForm (withPt curveT1 regOff regG) 1) ∧
    (AffOperand (withPt curveT1 regG regOff) 0 (.pt 17 3) ∧ OffCurve (withPt curveT1 regG regOff) 1) ∧
    (AffOperand (withPt curveT1 regG regG) 0 (.pt 17 3) ∧ AffOperand (withPt curveT1 regG regG) 1 (.pt 17 3)) ∧
    (let s := withPt curve15 ⟨.aff, 0, 1, 1⟩ ⟨.aff, 5, 6, 1⟩; AffOperand s 0 (.pt 0 1) ∧ AffOperand s 1 (.pt 5 6)) := by
  simp only [AffOperand, OffCurve, AffForm, OnCurve]
  decide +kernel

theorem witness_PaddResult_sums :
    affAdd curveT1 (.pt 17 3) (.pt 17 3) = .ok (.pt 13 16) ∧ affAdd curve15 (.pt 0 1) (.pt 5 6) = .error .noInverse := by
  decide +kernel

/-- For JADD, JDBL, J2A and J2X: a Jacobian operand that is infinity, valid with Y = 0, valid, invalid, and of another form; and on the composite P a valid one with 2·Y·Z a multiple of P and Z without an inverse. -/
theorem witness_jacobian_operand :
    JacOperand (withPt curveT1 ⟨.jac, 9, 9, 0⟩ regJ) 0 ⟨9, 9, 0⟩ ∧ JacOperand (withPt curveT1 ⟨.jac, 4, 0, 1⟩ regJ) 0 ⟨4, 0, 1⟩ ∧
    JacOperand (withPt curveT1 ⟨.jac, 22, 1, 2⟩ regJ) 0 ⟨22, 1, 2⟩ ∧ JacOperand (withPt curveT1 ⟨.jac, 22, 1, 2⟩ regJ) 1 ⟨17, 3, 1⟩ ∧
    2 * 1 * 2 % curveT1.p ≠ 0 ∧ 2 * 12 % curveT1.p = 1 ∧
    OffCurveJac (withPt curveT1 regJOff regJ) 0 ∧ OffCurveJac (withPt curveT1 regJ ⟨.jac, 23, 3, 0⟩) 1 ∧
    (withPt curveT1 regG regJ).curveOk = true ∧ ((withPt curveT1 regG regJ).getPt 0).f ≠ .jac ∧
    JacOperand (withPt curve15 ⟨.jac, 11, 6, 5⟩ regJ) 0 ⟨11, 6, 5⟩ ∧ 2 * 6 * 5 % curve15.p = 0 ∧ Nat.gcd 5 curve15.p ≠ 1 := by
  simp only [JacOperand, OffCurveJac, OnCurveJac]
  decide +kernel

theorem witness_JaddResult :
    (((withPt curveT1 regJ regG).getPt 0).f = .jac ∧ ((withPt curveT1 regJ regG).getPt 1).f ≠ .jac) ∧
    (OffCurveJac (withPt curveT1 regJOff regJ) 0 ∧ ((withPt curveT1 regJOff regJ).getPt 1).f = .jac) ∧
    (JacOperand (withPt curveT1 regJ regJOff) 0 ⟨17, 3, 1⟩ ∧ OffCurveJac (withPt curveT1 regJ regJOff) 1) := by
  simp only [JacOperand, OffCurveJac, OnCurveJac]
  decide +kernel

/-- Two valid Jacobian operands: both infinite, one infinite, equal classes, opposite classes, classes of another x; and on the composite P a sum with Z3 = 0. -/
theorem witness_JaddResult_triples :
    (JacOperand (withPt curveT1 ⟨.jac, 9, 9, 0⟩ ⟨.jac, 0, 0, 0⟩) 0 ⟨9, 9, 0⟩ ∧
      JacOperand (withPt curveT1 ⟨.jac, 9, 9, 0⟩ ⟨.jac, 0, 0, 0⟩) 1 ⟨0, 0, 0⟩) ∧
    (JacOperand (withPt curveT1 ⟨.jac, 9, 9, 0⟩ regJ) 0 ⟨9, 9, 0⟩ ∧ JacOperand (withPt curveT1 ⟨.jac, 9, 9, 0⟩ regJ) 1 ⟨17, 3, 1⟩) ∧
    (JacOperand (withPt curveT1 regJ ⟨.jac, 9, 9, 0⟩) 0 ⟨17, 3, 1⟩ ∧ JacOperand (withPt curveT1 regJ ⟨.jac, 9, 9, 0⟩) 1 ⟨9, 9, 0⟩) ∧
    (JacOperand (withPt curveT1 ⟨.jac, 22, 1, 2⟩ regJ) 0 ⟨22, 1, 2⟩ ∧ JacOperand (withPt curveT1 ⟨.jac, 22, 1, 2⟩ regJ) 1 ⟨17, 3, 1⟩ ∧
      22 * 1 ^ 2 ≡ 17 * 2 ^ 2 [ZMOD 23] ∧ 1 * 1 ^ 3 ≡ 3 * 2 ^ 3 [ZMOD 23]) ∧
    (JacOperand (withPt curveT1 regJ ⟨.jac, 17, 20, 1⟩) 1 ⟨17, 20, 1⟩ ∧ ¬ 3 * 1 ^ 3 ≡ 20 * 1 ^ 3 [ZMOD 23]) ∧
    (JacOperand (withPt curveT1 regJ ⟨.jac, 13, 16, 1⟩) 1 ⟨13, 16, 1⟩ ∧ ¬ 17 * 1 ^ 2 ≡ 13 * 1 ^ 2 [ZMOD 23]) ∧
    (JacOperand (withPt curve15 ⟨.jac, 11, 6, 5⟩ ⟨.jac, 5, 6, 1⟩) 0 ⟨11, 6, 5⟩ ∧
      JacOperand (withPt curve15 ⟨.jac, 11, 6, 5⟩ ⟨.jac, 5, 6, 1⟩) 1 ⟨5, 6, 1⟩ ∧
      ¬ 11 * 1 ^ 2 ≡ 5 * 5 ^ 2 [ZMOD 15] ∧ (5 * 5 ^ 2 - 11 * 1 ^ 2) * 5 * 1 ≡ 0 [ZMOD 15]) := by
  refine ⟨⟨?_, ?_⟩, ⟨?_, ?_⟩, ⟨?_, ?_⟩, ⟨?_, ?_, ?_, ?_⟩, ⟨?_, ?_⟩, ⟨?_, ?_⟩, ⟨?_, ?_, ?_, ?_⟩⟩ <;>
    simp only [JacOperand, OnCurveJac, Int.ModEq] <;> decide +kernel

theorem prime_T1 : Fact curveT1.p.Prime := ⟨by show Nat.Prime 23; norm_num⟩

/-- G of T1 stands for a point of the curve's group. -/
theorem witness_denotes : ∃ g, (AffPoint.pt 17 3).Denotes curveT1 g := by
  have h : curveT1.overField.Nonsingular ((17 : Nat) : ZMod curveT1.p) ((3 : Nat) : ZMod curveT1.p) := by
    rw [WeierstrassCurve.Affine.nonsingular_iff, WeierstrassCurve.Affine.equation_iff]
    decide +kernel
  exact ⟨.some _ _ h, by decide, by decide, h, rfl⟩

theorem witness_PaddIsGroupAddition : ∃ (s : State) (g : s.curve.overField.Point), Fact s.curve.p.Prime ∧ 3 ≤ s.curve.p ∧
    s.curveOk = true ∧ AffOperand s 0 (.pt 17 3) ∧ AffOperand s 1 (.pt 17 3) ∧ (AffPoint.pt 17 3).Denotes s.curve g := by
  obtain ⟨g, hg⟩ := witness_denotes
  refine ⟨withPt curveT1 regG regG, g, prime_T1, by decide, by decide, ?_, ?_, hg⟩
  all_goals simp only [AffOperand, OnCurve]; decide +kernel

theorem witness_JacobianCommandsCompute : ∃ (s : State) (_ : Fact s.curve.p.Prime) (g : s.curve.overField.Point), 3 ≤ s.curve.p ∧
    s.curveOk = true ∧ JacOperand s 0 ⟨17, 3, 1⟩ ∧ JacOperand s 1 ⟨17, 3, 1⟩ ∧ JacPoint.Denotes s.curve ⟨17, 3, 1⟩ g ∧
    AffOperand s 2 (.pt 17 3) ∧ (AffPoint.pt 17 3).Denotes s.curve g := by
  have := prime_T1
  obtain ⟨g, hg⟩ := witness_denotes
  refine ⟨(withPt curveT1 regJ regJ).setPt 2 regG, prime_T1, g, by decide, by decide, ?_, ?_,
    Laws.jacOf_denotes (by decide) hg, ?_, hg⟩
  all_goals simp only [JacOperand, OnCurveJac, AffOperand, OnCurve]; decide +kernel

theorem witness_JacobianSumNormalises : curveT1.p.Prime ∧ 3 ≤ curveT1.p ∧ AffPoint.On curveT1 (.pt 17 3) ∧
    AffPoint.On curveT1 (.pt 13 16) ∧ AffPoint.On curveT1 .inf := by
  refine ⟨prime_T1.out, by decide, ?_, ?_, trivial⟩ <;> simp only [AffPoint.On, OnCurve] <;> decide

theorem witness_CchkChecksOrder : (load curveT1 false).curve.p.Prime ∧ 3 ≤ (load curveT1 false).curve.p ∧ (load curveT1 false).weak = false :=
  ⟨prime_T1.out, by decide, by decide⟩

/-- For YODD, YLOW and YQR: x at p, a selector of 2 and of 1, x with no root, with two roots, and with the root 0; p = 17 is 1 mod 4. -/
theorem witness_y_recovery :
    (load curveT1 false).curveOk = false ∧ (withV curveT1 23 0 0).curveOk = true ∧ 2 ≤ (2 : Sel).val ∧ (1 : Sel).val ≤ 1 ∧
    curveT1.p ≤ (withV curveT1 23 0 0).getV 0 ∧ (withV curveT1 2 0 0).getV 0 < curveT1.p ∧ curveT1.p % 4 = 3 ∧ curveT2.p % 4 ≠ 3 := by
  decide

theorem witness_y_recovery_roots :
    sqrtMod (rightSide curveT1 2) curveT1.p = .error .noSqrt ∧
    (sqrtMod (rightSide curveT1 17) curveT1.p = .ok 3 ∧ 3 % 2 = (1 : Sel).val ∧ 3 % 2 ≠ (0 : Sel).val ∧ (curveT1.p - 3) % curveT1.p % 2 = (0 : Sel).val) ∧
    (sqrtMod (rightSide curveT1 4) curveT1.p = .ok 0 ∧ 0 % 2 ≠ (1 : Sel).val ∧ (curveT1.p - 0) % curveT1.p % 2 ≠ (1 : Sel).val) := by
  decide +kernel

theorem witness_YqrResult :
    (isQr 3 curveT1.p = decide ((1 : Sel).val = 1) ∧ isQr 3 curveT1.p ≠ decide ((0 : Sel).val = 1) ∧
      isQr ((curveT1.p - 3) % curveT1.p) curveT1.p = decide ((0 : Sel).val = 1)) ∧
    (isQr 0 curveT1.p ≠ decide ((0 : Sel).val = 1) ∧ isQr ((curveT1.p - 0) % curveT1.p) curveT1.p ≠ decide ((0 : Sel).val = 1)) := by
  decide +kernel

theorem witness_YRecoveryOverPrime :
    let s := withV curveT1 17 2 0
    s.curve.p.Prime ∧ 3 ≤ s.curve.p ∧ s.curveOk = true ∧ OnCurve s.curve (s.getV 0) 3 ∧ OnCurve s.curve (s.getV 0) 20 ∧
      3 % 2 = (1 : Sel).val ∧ 3 ≤ (s.curve.p - 3) % s.curve.p ∧ (s.curve.p - 20) % s.curve.p ≤ 20 ∧ s.curve.p % 4 = 3 ∧
      isQr 3 s.curve.p = decide ((1 : Sel).val = 1) ∧ s.getV 1 < s.curve.p ∧ ∀ y, ¬ OnCurve s.curve (s.getV 1) y := by
  refine ⟨prime_T1.out, by decide, by decide, ?_, ?_, by decide, by decide, by decide, by decide, by decide, by decide, ?_⟩
  · simp only [OnCurve]; decide
  · simp only [OnCurve]; decide
  · rintro y ⟨-, hy, h⟩
    have key : ∀ z < 23, z ^ 2 % 23 ≠ (2 ^ 3 + 1 * 2 + 1) % 23 := by decide
    exact key y hy h

/-- DEC, clause by clause: the empty string, a wrong leading byte, a compressed string of a wrong length, with x at p, with no root, with the asked parity, with the other, with none, and an uncompressed string of a wrong length, off the curve and on it. -/
theorem witness_DecResult :
    ((octets []).oblen.toNat = 0 ∧ (octets []).curveOk = true ∧ (octets []).psize = 1) ∧
    (let s := octets [0x05, 0x11]; s.oblen.toNat ≠ 0 ∧ s.obByte 0 ≠ 0x02 ∧ s.obByte 0 ≠ 0x03 ∧ s.obByte 0 ≠ 0x04) ∧
    (let s := octets [0x02, 0x11, 0x03]; s.obByte 0 = 0x02 ∧ s.oblen.toNat ≠ 1 + s.psize) ∧
    (let s := octets [0x02, 0x17]; s.obByte 0 = 0x02 ∧ s.oblen.toNat = 1 + s.psize ∧ s.curve.p ≤ beNat (s.obSlice 1 s.psize)) ∧
    (let s := octets [0x03, 0x11]; s.obByte 0 = 0x03 ∧ s.oblen.toNat = 1 + s.psize ∧ beNat (s.obSlice 1 s.psize) = 17) ∧
    (let s := octets [0x02, 0x02]; beNat (s.obSlice 1 s.psize) = 2) ∧ (let s := octets [0x03, 0x04]; beNat (s.obSlice 1 s.psize) = 4) ∧
    (let s := octets [0x04, 0x11]; s.obByte 0 = 0x04 ∧ s.oblen.toNat ≠ 1 + 2 * s.psize) ∧
    (let s := octets [0x04, 0x11, 0x03]; s.obByte 0 = 0x04 ∧ s.oblen.toNat = 1 + 2 * s.psize ∧
      beNat (s.obSlice 1 s.psize) = 17 ∧ beNat (s.obSlice (1 + s.psize) s.psize) = 3) ∧
    (let s := octets [0x04, 0x11, 0x04]; beNat (s.obSlice (1 + s.psize) s.psize) = 4) := by
  decide +kernel

theorem witness_DecResult_curve : OnCurve curveT1 17 3 ∧ ¬ OnCurve curveT1 17 4 := by
  simp only [OnCurve]; decide

/-- A state over T1 whose registers are below 2^W and whose buffer is empty meets the invariant when its STATUS does. -/
theorem load_inv (q0 q1 : PtReg) (h : ∀ c, q0.get c < 2 ^ 32 ∧ q1.get c < 2 ^ 32) : (withPt curveT1 q0 q1).Inv where
  legal := (by decide : Config.Legal ⟨32, 0, 0, 0⟩)
  width :=
    { v := by intro i; simp [withPt, load, State.getV, State.setPt, State.resetFor, Vector.get]
      pt := by
        intro i c
        have : ∀ i : Fin 8, (withPt curveT1 q0 q1).getPt i = if i = 0 then q0 else if i = 1 then q1 else PtReg.zero := by
          intro i; fin_cases i <;> rfl
        show _ < 2 ^ 32
        rw [this]
        split
        · exact (h c).1
        split
        · exact (h c).2
        · cases c <;> decide
      curve := by intro r; show curveT1.get r < 2 ^ 32; cases r <;> decide }
  ob := ⟨⟨List.Pairwise.nil, fun c hc => absurd hc List.not_mem_nil⟩, fun c hc => absurd hc List.not_mem_nil⟩
  status := ⟨(by decide : ((0 : BitVec 4), (0 : Byte)) ∈ resultPairs), fun h => by cases h⟩
  curveOk := fun _ => (by decide +kernel : checkCurve curveT1 false = .ok ())

theorem witness_EncResult :
    (withPt curveT1 regG regJ).Inv ∧ (withPt curveT1 regG regJ).curveOk = true ∧ AffOperand (withPt curveT1 regG regJ) 0 (.pt 17 3) ∧
    2 ≤ (3 : Sel).val ∧ (1 : Sel).val ≤ 1 ∧ (0 : Sel).val = 0 ∧ ((load curveT1 true).getPt 7).f = .inf ∧
    ¬ AffForm (withPt curveT1 regG regJ) 1 ∧ OffCurve (withPt curveT1 regOff regJ) 0 ∧ (withPt curveT1 regOff regJ).Inv := by
  refine ⟨load_inv _ _ (by intro c; cases c <;> decide), by decide, ?_, by decide, by decide, by decide, by decide, ?_, ?_,
    load_inv _ _ (by intro c; cases c <;> decide)⟩
  all_goals simp only [AffOperand, OffCurve, AffForm, OnCurve]; decide +kernel

/-- An affine and a Jacobian operand of a checked curve, a 2-torsion point and an infinity among them. -/
theorem witness_ValidPointsDenote :
    let s := withPt curveT1 ⟨.aff, 4, 0, 1⟩ regJ
    Fact s.curve.p.Prime ∧ s.Inv ∧ s.curveOk = true ∧ s.weak = false ∧ AffOperand s 0 (.pt 4 0) ∧ JacOperand s 1 ⟨17, 3, 1⟩ ∧
    AffOperand s 2 .inf ∧ JacOperand (withPt curveT1 ⟨.jac, 9, 9, 0⟩ regJ) 0 ⟨9, 9, 0⟩ := by
  refine ⟨prime_T1, load_inv _ _ (by intro c; cases c <;> decide), by decide, by decide, ?_⟩
  simp only [AffOperand, JacOperand, OnCurve, OnCurveJac]
  decide +kernel

theorem witness_Sec1RoundTrip :
    (withPt curveT1 regG regJ).Inv ∧ (withPt curveT1 regG regJ).curve.p.Prime ∧ (withPt curveT1 regG regJ).curveOk = true ∧
    (1 : Sel).val ≤ 1 ∧ AffOperand (withPt curveT1 regG regJ) 0 (.pt 17 3) ∧
    AffOperand (withPt curveT1 ⟨.aff, 4, 0, 1⟩ regJ) 0 (.pt 4 0) := by
  refine ⟨load_inv _ _ (by intro c; cases c <;> decide), prime_T1.out, by decide, by decide, ?_, ?_⟩
  all_goals simp only [AffOperand, OnCurve]; decide +kernel

/-- SMUL: k = 0 from V[B] = N, Q = INF, k = 2, and k = 2 on the composite P. -/
theorem witness_SmulResult :
    ((withPt curveT1 regG regG).setV 5 7).getV 5 % curveT1.n = 0 ∧ ((withPt curveT1 regG regG).setV 5 9).getV 5 % curveT1.n = 2 ∧
    AffOperand (withPt curve15 ⟨.aff, 5, 6, 1⟩ regG) 0 (.pt 5 6) ∧ AffPoint.pt 5 6 ≠ .inf := by
  simp only [AffOperand, OnCurve]; decide +kernel

theorem witness_SmulResult_conversion : affOf curveT1 (jmul curveT1 2 (.pt 17 3)) = .ok (.pt 13 16) ∧
    affOf curve15 (jmul curve15 2 (.pt 5 6)) = .error .noInverse := by decide +kernel

theorem witness_SmulIsScalarMultiple : ∃ (s : State) (g : s.curve.overField.Point), Fact s.curve.p.Prime ∧ 3 ≤ s.curve.p ∧
    s.curveOk = true ∧ AffOperand s 0 (.pt 17 3) ∧ (AffPoint.pt 17 3).Denotes s.curve g := by
  obtain ⟨s, g, h1, h2, h3, h4, -, h6⟩ := witness_PaddIsGroupAddition
  exact ⟨s, g, h1, h2, h3, h4, h6⟩

/-- The bus statements: the smallest and the largest legal W, an idle and a busy state, and words with CTRL and STATUS bits at 0 and at 1. -/
theorem witness_bus :
    Config.Legal State.reset.cfg ∧ Config.Legal ⟨32, 0, 0, 0⟩ ∧ Config.Legal ⟨1024, 0x2000, 1, 1⟩ ∧ State.reset.busy = false ∧
    (State.reset.accept 0).busy = true ∧ Config.Legal (State.reset.accept 0).cfg ∧ (1 : Word32).getLsbD 0 = true ∧
    (2 : Word32).getLsbD 0 = false ∧ (2 : Word32).getLsbD 1 = true ∧ (4 : Word32).getLsbD 1 = false := by decide

/-- The widths of a loaded state, and P at 0 and above 0 (CURVECFG). -/
theorem witness_CurvecfgRegister :
    (withPt curveT1 regG regJ).WidthOk ∧ (withPt curveT1 regG regJ).busy = false ∧ (withPt curveT1 regG regJ).curve.p ≠ 0 ∧
    State.reset.curve.p = 0 :=
  ⟨(load_inv _ _ (by intro c; cases c <;> decide)).width, by decide, by decide, by decide⟩

theorem witness_BigRegisterWords :
    Config.Legal (withPt curveT1 regG regJ).cfg ∧ (withPt curveT1 regG regJ).WidthOk ∧ (withPt curveT1 regG regJ).busy = false ∧
    0 < (withPt curveT1 regG regJ).cfg.nw ∧ (withPt curveT1 regG regJ).cfg.nw ≤ 1 ∧ 31 < 32 ∧ Slot.v 15 ≠ Slot.pt 7 .z :=
  ⟨by decide, (load_inv _ _ (by intro c; cases c <;> decide)).width, by decide, by decide, by decide, by decide, by decide⟩

theorem witness_BigRegisterLoad : 0xFFFFFFFF < 2 ^ (withPt curveT1 regG regJ).cfg.width ∧
    (withPt curveT1 regG regJ).busy = false ∧ [0].Perm (List.range (withPt curveT1 regG regJ).cfg.nw) ∧ [7, 0, 1, 2, 3, 4, 5, 6].Perm (List.range Config.reference.nw) := by
  decide +kernel

theorem witness_OctetBufferWords : (load curveT1 true).ObOk ∧ (load curveT1 true).busy = false ∧
    (load curveT1 true).cfg.obSize = 9 ∧ 127 < 128 ∧ (9 ≤ 9 ∧ 8 < 9 ∧ 8 / 4 = 2) :=
  ⟨⟨⟨List.Pairwise.nil, fun c hc => absurd hc List.not_mem_nil⟩, fun c hc => absurd hc List.not_mem_nil⟩, by decide, by decide,
    by decide, by decide⟩

theorem witness_IllegalAccess :
    (let a : Access := ⟨0x402, .b32, .read⟩; Config.routes State.reset.cfg a.addr = true ∧ windowOffset a.addr % 4 ≠ 0) ∧
    (let a : Access := ⟨0x1FFF, .b8, .write 1⟩; Config.routes State.reset.cfg a.addr = true ∧ a.size ≠ .b32) := by decide

theorem witness_ReservedSpace :
    (0x020 % 4 = 0 ∧ 0x020 ≤ 0x020 ∧ 0x3FC < 0x400) ∧ (State.reset.busy = false ∧ 0x780 % 4 = 0 ∧ 0x7FC < 0x800 ∧ 0x1E00 % 4 = 0 ∧ 0x1FFC < 0x2000) := by
  decide

/-- The busy rule, at the ends of its ranges: hidden, CMD, reserved and open offsets. -/
theorem witness_BusyRule :
    (State.reset.accept 0).busy = true ∧ (0x014 < 0x020 ∧ 0x400 ≤ 0x1FFC ∧ 0x1FFC < 0x2000 ∧ 0x1FFC % 4 = 0) ∧ 0x010 % 4 = 0 ∧
    (0x020 < 0x400 ∧ 0x00C < 0x010) := by decide

theorem witness_CurveOkRule :
    0 < (load curveT1 true).cfg.nw ∧ (∃ t, exec .cchk (load curve15 true) = .next t ∧ t.err ≠ 0) ∧
    (∃ t, step ((load curveT1 false).accept 0x40000000) = .next t ∧ ((load curveT1 false).accept 0x40000000).curveOk = false ∧ t.curveOk = true) := by
  exact ⟨by decide, exists_of_nextWith (by decide +kernel), exists_of_nextWith (by decide +kernel)⟩

theorem witness_InterruptOutput : Config.Legal (load curveT1 true).cfg ∧ (load curveT1 true).busy = false ∧
    (∃ t, exec (.mred .p 3 1) (load curveT1 true) = .next t ∧ t.done = true) ∧
    (∃ t, engineStep (State.reset.accept 0) = .next t ∧ t.err = 1) ∧
    (let s : State := { load curveT1 true with done := true }; (s.busAccess (hostRead s.cfg 0x00C)).done = true) := by
  exact ⟨by decide, by decide, exists_of_nextWith (by decide +kernel), exists_of_nextWith (by decide +kernel), by decide +kernel⟩

theorem witness_LatencyIndependence :
    Config.Legal (State.reset.accept 0).cfg ∧ (State.reset.accept 0).busy = true ∧
    ∀ a ∈ [hostWrite State.reset.cfg 0x800 1, hostWrite State.reset.cfg 0x008 2, hostRead State.reset.cfg 0x00C],
      ¬ SoftReset (State.reset.accept 0).cfg a := by
  refine ⟨by decide, by decide, ?_⟩
  intro a ha
  rintro ⟨-, -, h3, w, h4, h5⟩
  simp only [List.mem_cons, List.not_mem_nil, or_false] at ha
  rcases ha with rfl | rfl | rfl
  · revert h3; decide
  · cases h4; revert h5; decide
  · cases h4

theorem witness_StepKeepsInv : (withPt curveT1 regG regJ).Inv ∧ 
    ∃ t, step (withPt curveT1 regG regJ) = .next t ∧ t.busy = false :=
  ⟨load_inv _ _ (by intro c; cases c <;> decide), exists_of_nextWith (by decide +kernel)⟩

end Sys2Proof.Tests
end

/-! The registers of 10_state.md on the bus and in the completion step: the octet buffer (R43, R84), CURVE_OK (R48), ID and HWCFG (R33, R34), CTRL (R35) and the interrupt output (R45). -/

namespace Sys2Proof.Proofs
open Sys2Proof.Machine Sys2Proof.Laws

/-! Accesses the busy rule leaves alone, and accesses while idle (20_memory.md R82, R87). -/

/-- ID, HWCFG, CTRL, STATUS and CMD are read at all times (R87). -/
theorem readsAs_low (s : State) {off : Nat} (hl : Config.Legal s.cfg) (h : off < 0x014) (h4 : off % 4 = 0) :
    ReadsAs s off (s.readTarget (targetOf off)) :=
  (readsAs_iff s _ hl (by omega) h4).2 (busRead_open s (hidden_low h))

/-- ID, HWCFG, CTRL and STATUS are written at all times (R87). -/
theorem hostWrite_low (s : State) {off : Nat} (w : Word32) (hl : Config.Legal s.cfg) (h : off < 0x010)
    (h4 : off % 4 = 0) : s.busAccess (hostWrite s.cfg off w) =
      { s.writeTarget (targetOf off) w with resp := some .writeDone } := by
  have hcmd : targetOf off ≠ .cmd := fun e => by have := (targetOf_cmd h4).1 e; omega
  rw [busAccess_hostWrite s w hl (by omega) h4, busWrite_open s w (hidden_low (by omega)) hcmd]

/-- A CTRL write reaches its target, idle or busy (R87). -/
theorem hostWrite_ctrl (s : State) (w : Word32) (hl : Config.Legal s.cfg) :
    s.busAccess (hostWrite s.cfg 0x008 w) = { s.writeCtrl w with resp := some .writeDone } :=
  hostWrite_low s (off := 0x008) w hl (by decide) rfl

theorem readsAs_idle (s : State) {off : Nat} (hl : Config.Legal s.cfg) (hb : s.busy = false) (h : off < 0x2000)
    (h4 : off % 4 = 0) : ReadsAs s off (s.readTarget (targetOf off)) :=
  (readsAs_iff s _ hl h h4).2 (busRead_idle s off hb)

theorem hostWrite_idle (s : State) {off : Nat} (w : Word32) (hl : Config.Legal s.cfg) (hb : s.busy = false)
    (h : off < 0x2000) (h4 : off % 4 = 0) : s.busAccess (hostWrite s.cfg off w) =
      { s.writeTarget (targetOf off) w with resp := some .writeDone } := by
  rw [busAccess_hostWrite s w hl h h4, busWrite_idle s off w hb]

/-- A write to a hidden offset while busy sets BUSYWR and nothing else (R87). -/
theorem hostWrite_hidden (s : State) {off : Nat} (w : Word32) (hl : Config.Legal s.cfg) (hb : s.busy = true)
    (hh : hiddenWhenBusy off = true) (h : off < 0x2000) (h4 : off % 4 = 0) :
    s.busAccess (hostWrite s.cfg off w) = { s with busywr := true, resp := some .writeDone } := by
  rw [busAccess_hostWrite s w hl h h4, busWrite_hidden s w hb hh]

/-! The control words as numbers, and the two kinds of CTRL write. -/

theorem hwcfgWord_toNat (s : State) (hl : Config.Legal s.cfg) :
    s.hwcfgWord.toNat = s.cfg.width + 16 * 2 ^ 16 + 8 * 2 ^ 24 := by
  obtain ⟨-, -, hw, -⟩ := hl
  have e : s.cfg.width % 2 ^ 16 = s.cfg.width := Nat.mod_eq_of_lt (by omega)
  rw [State.hwcfgWord, toNat_append_eq, toNat_append_eq]
  simp only [BitVec.toNat_ofNat, e]
  omega

theorem ctrlWord_toNat (s : State) : s.ctrlWord.toNat = 2 * s.ie.toNat := by
  unfold State.ctrlWord
  cases s.ie <;> rfl

theorem oblenWord_toNat (s : State) : s.oblenWord.toNat = s.oblen.toNat :=
  BitVec.toNat_setWidth_of_le (by decide)

/-- A CTRL write without SRST sets IE (R35). -/
theorem writeCtrl_enable (s : State) {w : Word32} (h : w.getLsbD 0 = false) :
    s.writeCtrl w = { s with ie := w.getLsbD 1 } :=
  if_neg (by rw [h]; decide)

/-- A CTRL write with SRST is the soft reset (R35, R371). -/
theorem writeCtrl_reset (s : State) {w : Word32} (h : w.getLsbD 0 = true) : s.writeCtrl w = s.resetRegisters :=
  if_pos h

/-! The lanes of the octet buffer (R84). -/

theorem obWord_lane (s : State) (q : Nat) {t : Nat} (h : t < 4) :
    (s.obWord q).extractLsb' (8 * t) 8 = s.obByte (4 * q + t) := by
  apply BitVec.eq_of_toNat_eq
  have h0 := (s.obByte (4 * q)).isLt
  have h1 := (s.obByte (4 * q + 1)).isLt
  have h2 := (s.obByte (4 * q + 2)).isLt
  have h3 := (s.obByte (4 * q + 3)).isLt
  rw [toNat_extract, State.obWord, toNat_append_eq, toNat_append_eq, toNat_append_eq]
  interval_cases t <;> simp only [Nat.add_zero, Nat.reduceMul, Nat.reducePow] <;> omega

theorem obByte_past (s : State) {j : Nat} (h : s.cfg.obSize ≤ j) : s.obByte j = 0 :=
  if_neg (by omega)

theorem writeObWord_obOk (s : State) (q : Nat) (w : Word32) (h : s.ObOk) : (s.writeObWord q w).ObOk :=
  setObByte_obOk _ (setObByte_obOk _ (setObByte_obOk _ (setObByte_obOk _ h _ _) _ _) _ _) _ _

theorem writeObWord_obByte (s : State) (q : Nat) (w : Word32) (h : s.ObOk) (j : Nat) :
    (s.writeObWord q w).obByte j =
      if j < s.cfg.obSize ∧ j / 4 = q then w.extractLsb' (8 * (j % 4)) 8 else s.obByte j := by
  have h1 := setObByte_wf s h.form (4 * q) (w.extractLsb' 0 8)
  have h2 := setObByte_wf _ h1 (4 * q + 1) (w.extractLsb' 8 8)
  have h3 := setObByte_wf _ h2 (4 * q + 2) (w.extractLsb' 16 8)
  rw [State.writeObWord, setObByte_obByte _ h3, setObByte_obByte _ h2, setObByte_obByte _ h1,
    setObByte_obByte _ h.form]
  simp only [setObByte_cfg]
  by_cases hq : j / 4 = q
  · obtain ⟨t, ht, rfl⟩ : ∃ t, t < 4 ∧ j = 4 * q + t := ⟨j % 4, by omega, by omega⟩
    interval_cases t <;> simp [hq]
  · rw [if_neg (by omega), if_neg (by omega), if_neg (by omega), if_neg (by omega), if_neg (by omega)]

/-- Settles O52: the lanes of a word of the OB window read and write the bytes below OBSIZE, one by one. -/
theorem octetBufferWords : Obligations.OctetBufferWords := by
  intro s q w hl ho hb hq
  have htarget : targetOf (0x1C00 + 4 * q) = .ob q := targetOf_ob hq
  have hread := readsAs_idle s (off := 0x1C00 + 4 * q) hl hb (by omega) (by omega)
  have hwrite := hostWrite_idle s (off := 0x1C00 + 4 * q) w hl hb (by omega) (by omega)
  rw [htarget] at hread hwrite
  have hframe : { s with ob := (s.writeObWord q w).ob } = s.writeObWord q w := (writeObWord_frame s q w).symm
  refine ⟨⟨s.oblenWord, readsAs_idle s (off := 0x014) hl hb (by decide) rfl, oblenWord_toNat s⟩,
    hostWrite_idle s (off := 0x014) w hl hb (by decide) rfl,
    ⟨s.obWord q, hread, fun t ht => obWord_lane s q ht⟩, fun j hj => obByte_past s hj,
    (s.writeObWord q w).ob, ?_, ?_, ?_⟩
  · rw [hwrite]
    exact congrArg (fun t : State => { t with resp := some .writeDone }) hframe.symm
  · rw [hframe]
    exact writeObWord_obOk s q w ho
  · intro j
    rw [hframe]
    exact writeObWord_obByte s q w ho j

/-- Settles O43: neither offset is hidden while busy, and neither target is written. -/
theorem idAndHwcfg : Obligations.IdAndHwcfg := by
  intro s w hl
  exact ⟨readsAs_low s (off := 0x000) hl (by decide) rfl, hostWrite_low s (off := 0x000) w hl (by decide) rfl,
    hostWrite_low s (off := 0x004) w hl (by decide) rfl, s.hwcfgWord, readsAs_low s (off := 0x004) hl (by decide) rfl,
    hwcfgWord_toNat s hl⟩

/-- Settles O45, by the SRST bit of the written word. -/
theorem ctrlRegister : Obligations.CtrlRegister := by
  intro s hl
  refine ⟨⟨s.ctrlWord, readsAs_low s (off := 0x008) hl (by decide) rfl, ctrlWord_toNat s⟩,
    fun w => ⟨fun h => ?_, fun h => ?_⟩⟩
  · rw [hostWrite_ctrl s w hl, writeCtrl_enable s h]
  · rw [hostWrite_ctrl s w hl, writeCtrl_reset s h]
    rfl

/-! What a completion leaves in STATUS and CTRL (60_exceptions.md R345, R349). -/

@[simp] theorem succeed_busy (s : State) (e : Effect) : (s.succeed e).busy = false := rfl
@[simp] theorem succeed_done (s : State) (e : Effect) : (s.succeed e).done = true := rfl
@[simp] theorem succeed_err (s : State) (e : Effect) : (s.succeed e).err = 0 := rfl
@[simp] theorem succeed_errInfo (s : State) (e : Effect) : (s.succeed e).errInfo = 0 := rfl

@[simp] theorem succeed_ie (s : State) (e : Effect) : (s.succeed e).ie = s.ie := by
  cases e with
  | setV d x => rfl
  | setPt d q => rfl
  | setOb str =>
    obtain ⟨ob, n, h⟩ := fillOb_frame s str
    simp [State.succeed, State.apply, h]
  | setCurveOk => rfl

/-- No collected write but CCHK's touches CURVE_OK (R48). -/
theorem succeed_curveOk (s : State) {e : Effect} (he : e ≠ .setCurveOk) : (s.succeed e).curveOk = s.curveOk := by
  cases e with
  | setV d x => rfl
  | setPt d q => rfl
  | setOb str =>
    obtain ⟨ob, n, h⟩ := fillOb_frame s str
    simp [State.succeed, State.apply, h]
  | setCurveOk => exact absurd rfl he

/-- The states a command can end in: its own write, one of its own errors, or one of CCHK's two endings. -/
inductive EndsIn (i : Instr) (s : State) : State → Prop where
  | writes (e : Effect) (hi : i ≠ .cchk) (hf : Fits i e) : EndsIn i s (s.succeed e)
  | raises (e : CmdError) (hi : i ≠ .cchk) (hr : (e.cls.code, e.info) ∈ raisedBy i) : EndsIn i s (s.fail e)
  | accepts (hi : i = .cchk) (hc : checkCurve s.curve s.weak = .ok ()) : EndsIn i s (s.succeed .setCurveOk)
  | rejects (e : CmdError) (hi : i = .cchk) (hc : checkCurve s.curve s.weak = .error e) :
      EndsIn i s (State.fail { s with curveOk := false } e)

theorem exec_endsIn {i : Instr} {s t : State} (h : exec i s = .next t) : EndsIn i s t := by
  by_cases hi : i = .cchk
  · subst hi
    rcases exec_cchk s with ⟨hc, he⟩ | ⟨e, hc, he⟩
    · cases he.symm.trans h
      exact .accepts rfl hc
    · cases he.symm.trans h
      exact .rejects e rfl hc
  · obtain ⟨r, he, hf, hr⟩ := exec_shaped i s hi
    rw [he] at h
    cases r with
    | ok e => cases h; exact .writes e hi (hf e rfl)
    | error e => cases h; exact .raises e hi (hr e rfl)

/-- The completion step runs the decoded command or reports an ILLEGAL word (R377). -/
theorem engineStep_cases {s t : State} (h : engineStep s = .next t) :
    (∃ i, decode s.cmdLast = .ok i ∧ EndsIn i s t) ∨
    ∃ why, decode s.cmdLast = .error why ∧ t = s.fail (.illegal why) := by
  unfold engineStep at h
  split at h
  · exact .inl ⟨_, ‹_›, exec_endsIn h⟩
  · cases h
    exact .inr ⟨_, ‹_›, rfl⟩

/-- A command's completion sets DONE and keeps IE, whatever its result. -/
theorem endsIn_irq {i : Instr} {s t : State} (h : EndsIn i s t) : t.irq = s.ie := by
  cases h <;> simp [State.irq]

theorem engineStep_irq {s t : State} (h : engineStep s = .next t) : t.irq = s.ie := by
  rcases engineStep_cases h with ⟨i, -, hi⟩ | ⟨why, -, rfl⟩
  · exact endsIn_irq hi
  · simp [State.irq]

/-- CCHK with an error leaves CURVE_OK at 0 (41_curve_group.md R202). -/
theorem cchk_error_curveOk {s t : State} (h : EndsIn .cchk s t) (he : t.err ≠ 0) : t.curveOk = false := by
  cases h with
  | writes e hi hf => exact absurd rfl hi
  | raises e hi hr => exact absurd rfl hi
  | accepts hi hc => exact absurd rfl he
  | rejects e hi hc => rfl

/-- A command that raises CURVE_OK is a CCHK without error (R48). -/
theorem endsIn_sets_curveOk {i : Instr} {s t : State} (h : EndsIn i s t) (h0 : s.curveOk = false)
    (h1 : t.curveOk = true) : i = .cchk ∧ t.busy = false ∧ t.err = 0 := by
  cases h with
  | writes e hi hf =>
    have he : e ≠ .setCurveOk := by rintro rfl; exact hf
    rw [succeed_curveOk s he, h0] at h1
    cases h1
  | raises e hi hr => simp [h0] at h1
  | accepts hi hc => exact ⟨hi, rfl, rfl⟩
  | rejects e hi hc => simp at h1

/-- Only the completion of a busy engine raises CURVE_OK in the engine's turn (R48, R377). -/
theorem engineTurn_sets_curveOk {s t : State} (h : engineTurn s = .next t) (h0 : s.curveOk = false)
    (h1 : t.curveOk = true) : s.busy = true ∧ decode s.cmdLast = .ok .cchk ∧ t.busy = false ∧ t.err = 0 := by
  unfold engineTurn at h
  split at h
  · rename_i hb
    rcases engineStep_cases h with ⟨i, hd, hi⟩ | ⟨why, -, rfl⟩
    · obtain ⟨rfl, hbusy, herr⟩ := endsIn_sets_curveOk hi h0 h1
      exact ⟨hb, hd, hbusy, herr⟩
    · simp [h0] at h1
  · cases h
    rw [h0] at h1
    cases h1

/-! What a bus access can do to the flags. -/

/-- A property of states holds after an access once it holds after every write to a target and looks at neither BUSYWR
nor the answer (20_memory.md R81, R87, R89). -/
theorem busAccess_preserves {P : State → Prop} (hresp : ∀ t r, P t → P { t with resp := r })
    (hbusywr : ∀ t, P t → P { t with busywr := true }) {s : State} (hs : P s) (hw : ∀ t w, P (s.writeTarget t w))
    (a : Access) : P (s.busAccess a) := by
  have hwrite : ∀ off w, P (s.busWrite off w) := by
    intro off w
    unfold State.busWrite
    split
    · exact hbusywr s hs
    · exact hw _ w
  unfold State.busAccess
  split
  · split
    · split
      · exact hresp _ _ hs
      · exact hresp _ _ (hwrite _ _)
    · exact hresp _ _ hs
  · exact hresp _ _ hs

/-- A write to a target sets neither DONE nor CURVE_OK (10_state.md R36, R48). -/
theorem writeTarget_flags (s : State) (t : Target) (w : Word32) :
    ((s.writeTarget t w).done = true → s.done = true) ∧ ((s.writeTarget t w).curveOk = true → s.curveOk = true) := by
  cases t with
  | ctrl =>
    simp only [State.writeTarget, State.writeCtrl]
    split
    · exact ⟨fun h => (Bool.false_ne_true h).elim, fun h => (Bool.false_ne_true h).elim⟩
    · exact ⟨id, id⟩
  | status => exact ⟨fun h => ((Bool.and_eq_true _ _).mp h).1, id⟩
  | cmd => exact ⟨fun h => (Bool.false_ne_true h).elim, id⟩
  | curvecfg => exact ⟨id, fun h => (Bool.false_ne_true h).elim⟩
  | ptf =>
    obtain ⟨pt, h, -⟩ := writePtf_spec s w
    simp [State.writeTarget, h]
  | curve r q =>
    simp only [State.writeTarget, State.writeCurve]
    split
    · exact ⟨id, fun h => (Bool.false_ne_true h).elim⟩
    · exact ⟨id, id⟩
  | ob q => simp [State.writeTarget]
  | id | hwcfg | oblen | v _ _ | pt _ _ _ | reserved => exact ⟨id, id⟩

theorem busAccess_flags (s : State) (a : Access) :
    ((s.busAccess a).done = true → s.done = true) ∧ ((s.busAccess a).curveOk = true → s.curveOk = true) :=
  busAccess_preserves (P := fun t => (t.done = true → s.done = true) ∧ (t.curveOk = true → s.curveOk = true))
    (fun _ _ h => h) (fun _ h => h) ⟨id, id⟩ (writeTarget_flags s) a

/-- What one step can be: the engine's turn, a host access, or a power-on reset (R92, R377). -/
theorem step_cases {s t : State} (h : step s = .next t) :
    (∃ rest, engineTurn { s with agenda := rest } = .next t) ∨
    (∃ rest a, t = State.busAccess { s with agenda := rest } a) ∨
    ∃ rest, t = State.powerOn { s with agenda := rest } := by
  unfold step at h
  split at h
  · exact .inl ⟨s.agenda, h⟩
  · cases h; exact .inr (.inl ⟨_, _, rfl⟩)
  · exact .inl ⟨_, h⟩
  · cases h; exact .inr (.inr ⟨_, rfl⟩)

theorem step_sets_curveOk {s t : State} (h : step s = .next t) (h0 : s.curveOk = false) (h1 : t.curveOk = true) :
    s.busy = true ∧ decode s.cmdLast = .ok .cchk ∧ t.busy = false ∧ t.err = 0 := by
  rcases step_cases h with ⟨rest, ht⟩ | ⟨rest, a, rfl⟩ | ⟨rest, rfl⟩
  · exact engineTurn_sets_curveOk (s := { s with agenda := rest }) ht h0 h1
  · have := (busAccess_flags _ a).2 h1
    rw [h0] at this
    cases this
  · cases h1

/-- A write at an offset the busy rule hides clears CURVE_OK when its target does, and keeps it while busy (R48, R87). -/
theorem hostWrite_clears_curveOk (s : State) {off : Nat} (w : Word32) (hl : Config.Legal s.cfg)
    (hh : hiddenWhenBusy off = true) (h : off < 0x2000) (h4 : off % 4 = 0)
    (hc : (s.writeTarget (targetOf off) w).curveOk = false) :
    (s.busAccess (hostWrite s.cfg off w)).curveOk = if s.busy = true then s.curveOk else false := by
  cases hb : s.busy with
  | true => rw [hostWrite_hidden s w hl hb hh h h4, if_pos rfl]
  | false => rw [hostWrite_idle s w hl hb h h4, if_neg (by decide)]; exact hc

/-- A write to an implemented word of the curve block clears CURVE_OK unless the engine is busy (R48). -/
theorem hostWrite_curve_curveOk (s : State) (r : CurveReg) {q : Nat} (w : Word32) (hl : Config.Legal s.cfg)
    (hq : q < s.cfg.nw) : (s.busAccess (hostWrite s.cfg (slotCurve r + 4 * q) w)).curveOk =
      if s.busy = true then s.curveOk else false := by
  have hq32 : q < 32 := lt_of_lt_of_le hq (nw_le hl)
  have hslot : 0x400 ≤ slotCurve r := by cases r <;> decide
  obtain ⟨hlt, h4⟩ := slot_off (.curve r) hq32
  refine hostWrite_clears_curveOk s w hl (hidden_data (by omega)) hlt h4 ?_
  rw [targetOf_curve r hq32]
  simp [State.writeTarget, State.writeCurve, hq]

/-- Settles O56: the clearing events one by one, and the step lemma `step_sets_curveOk`. -/
theorem curveOkRule : Obligations.CurveOkRule := by
  refine ⟨fun s r q w hl hq => hostWrite_curve_curveOk s r w hl hq, fun s w hl => ?_, fun s w hl h => ?_, fun _ => rfl,
    fun s t h => cchk_error_curveOk (exec_endsIn h), fun s t => step_sets_curveOk⟩
  · exact hostWrite_clears_curveOk s (off := 0x01C) w hl rfl (by decide) rfl rfl
  · rw [hostWrite_ctrl s w hl, writeCtrl_reset s h]
    rfl

/-! The interrupt output (R45, 60_exceptions.md R350). -/

theorem irqRequest_eq (s : State) : s.irqRequest =
    if s.done = true ∧ s.ie = true then some (s.cfg.irqLine, s.cfg.irqPriority) else none := by
  simp [State.irqRequest, State.irq]

/-- A CTRL write that leaves bit 1 at 0 drops IRQ: it clears IE, or it is the soft reset (R35). -/
theorem writeCtrl_irq (s : State) {w : Word32} (h : w.getLsbD 1 = false) : (s.writeCtrl w).irq = false := by
  cases h0 : w.getLsbD 0 with
  | true => rw [writeCtrl_reset s h0]; rfl
  | false => rw [writeCtrl_enable s h0, h]; exact Bool.and_false _

theorem writeStatus_irq (s : State) {w : Word32} (h : w.getLsbD 1 = true) : (s.writeStatus w).irq = false := by
  simp [State.irq, State.writeStatus, h]

/-- Settles O57: what raises IRQ is a completion, and each of the host's three writes drops it. -/
theorem interruptOutput : Obligations.InterruptOutput := by
  intro s hl
  refine ⟨rfl, rfl, irqRequest_eq s, fun i t h => endsIn_irq (exec_endsIn h), fun t => engineStep_irq,
    fun a => (busAccess_flags s a).1, rfl, fun w h => ?_, fun w hb => ?_, fun w h => ?_⟩
  · rw [hostWrite_low s (off := 0x00C) w hl (by decide) rfl]
    exact writeStatus_irq s h
  · rw [hostWrite_idle s (off := 0x010) w hl hb (by decide) rfl]
    rfl
  · rw [hostWrite_ctrl s w hl]
    exact writeCtrl_irq s h

end Sys2Proof.Proofs

/-! The memory map as a whole (20_memory.md): illegal accesses (R81), the words of the W-bit registers (R83) and the busy rule (R87). -/

namespace Sys2Proof.Proofs
open Sys2Proof.Machine Sys2Proof.Laws

/-! Illegal accesses (R81). -/

theorem legal_iff (a : Access) : a.legal = true ↔ a.size = .b32 ∧ windowOffset a.addr % 4 = 0 := by
  simp [Access.legal]

/-- An illegal access that reaches the engine gets a bus error and changes nothing else (R81). -/
theorem busAccess_illegal (s : State) {a : Access} (hr : Config.routes s.cfg a.addr = true) (hi : ¬ a.legal = true) :
    s.busAccess a = { s with resp := some .busError } := by
  rw [State.busAccess, if_pos hr, if_neg hi]

/-- Settles O53: a wrong width or a wrong alignment makes the access illegal. -/
theorem illegalAccess : Obligations.IllegalAccess := by
  intro s a hr h
  refine busAccess_illegal s hr fun hlegal => ?_
  obtain ⟨hsize, hoff⟩ := (legal_iff a).1 hlegal
  exact h.elim (fun hne => hne hsize) (fun hne => hne hoff)

/-! The busy rule (R87). -/

/-- A hidden offset reads 0 while busy (R87). -/
theorem readsAs_hidden (s : State) {off : Nat} (hl : Config.Legal s.cfg) (hb : s.busy = true)
    (hh : hiddenWhenBusy off = true) (h : off < 0x2000) (h4 : off % 4 = 0) : ReadsAs s off 0 :=
  (readsAs_iff s _ hl h h4).2 (busRead_hidden s hb hh)

/-- A CMD write while busy is dropped and sets BUSYWR (R87). -/
theorem hostWrite_cmd_busy (s : State) (w : Word32) (hl : Config.Legal s.cfg) (hb : s.busy = true) :
    s.busAccess (hostWrite s.cfg 0x010 w) = { s with busywr := true, resp := some .writeDone } := by
  have hcmd : targetOf 0x010 = .cmd := rfl
  have hdrop : s.busWrite 0x010 w = { s with busywr := true } := by simp [State.busWrite, hb, hcmd]
  rw [busAccess_hostWrite s w hl (by decide) rfl, hdrop]

/-- The reserved offsets 0x020–0x3FF read 0, idle or busy (R85, R87). -/
theorem readsAs_reserved_low (s : State) {off : Nat} (hl : Config.Legal s.cfg) (h1 : 0x020 ≤ off) (h2 : off < 0x400)
    (h4 : off % 4 = 0) : ReadsAs s off 0 := by
  rw [readsAs_iff s _ hl (by omega) h4, busRead_open s (hidden_reserved h1 h2), targetOf_reserved (.inl ⟨h1, h2⟩)]
  rfl

/-- The reserved offsets 0x020–0x3FF ignore writes, idle or busy, and a write there is no BUSYWR (R85, R87). -/
theorem writeIgnored_reserved_low (s : State) {off : Nat} (w : Word32) (hl : Config.Legal s.cfg) (h1 : 0x020 ≤ off)
    (h2 : off < 0x400) (h4 : off % 4 = 0) : WriteIgnored s off w := by
  have htarget : targetOf off = .reserved := targetOf_reserved (.inl ⟨h1, h2⟩)
  rw [WriteIgnored, busAccess_hostWrite s w hl (by omega) h4,
    busWrite_open s w (hidden_reserved h1 h2) (by rw [htarget]; decide), htarget]
  rfl

/-- Settles O55: the hidden offsets, CMD, the reserved offsets the rule leaves open, and the registers below CMD. -/
theorem busyRule : Obligations.BusyRule := by
  intro s off w hl hb h h4
  refine ⟨fun hrange => ?_, ?_, fun h1 h2 => ?_, fun hlow => ?_⟩
  · have hh : hiddenWhenBusy off = true := hrange.elim (fun hc => hidden_control hc.1 hc.2) hidden_data
    exact ⟨readsAs_hidden s hl hb hh h h4, hostWrite_hidden s w hl hb hh h h4⟩
  · rintro rfl
    exact ⟨readsAs_low s (off := 0x010) hl (by decide) rfl, hostWrite_cmd_busy s w hl hb⟩
  · exact ⟨readsAs_reserved_low s hl h1 h2 h4, writeIgnored_reserved_low s w hl h1 h2 h4⟩
  · exact ⟨readsAs_low s hl (by omega) h4, hostWrite_low s w hl hlow h4⟩

/-! The words of the W-bit registers (R83). -/

theorem bigWord_in (s : State) (x : Nat) {q : Nat} (h : q < s.cfg.nw) : s.bigWord x q = wordOf x q := if_pos h

theorem bigWord_out (s : State) (x : Nat) {q : Nat} (h : s.cfg.nw ≤ q) : s.bigWord x q = 0 := if_neg (by omega)

/-- While idle, word q of a slot reads word q of its register (R82, R83). -/
theorem readsAs_slot (s : State) (k : Slot) {q : Nat} (hl : Config.Legal s.cfg) (hb : s.busy = false) (h : q < 32) :
    ReadsAs s (k.offset + 4 * q) (s.bigWord (s.slot k) q) := by
  obtain ⟨hlt, h4⟩ := slot_off k h
  rw [← slot_read, ← slot_target k h]
  exact readsAs_idle s hl hb hlt h4

/-- While idle, a word of a slot at NW or above ignores writes (R83). -/
theorem writeIgnored_slot (s : State) (k : Slot) {q : Nat} (w : Word32) (hl : Config.Legal s.cfg) (hb : s.busy = false)
    (h : q < 32) (hq : s.cfg.nw ≤ q) : WriteIgnored s (k.offset + 4 * q) w := by
  obtain ⟨hlt, h4⟩ := slot_off k h
  rw [WriteIgnored, hostWrite_idle s w hl hb hlt h4, slot_target k h, slot_write_out s k q w (by omega)]

/-- A value put in a slot touches V, PT, the curve block and CURVE_OK only (R48, R83). -/
theorem putSlot_frame (s : State) (k : Slot) (x : Nat) : putSlot s k x =
    { s with v := (putSlot s k x).v, pt := (putSlot s k x).pt, curve := (putSlot s k x).curve,
             curveOk := (putSlot s k x).curveOk } := by
  cases k <;> rfl

/-- Settles O50: an access to word q of a slot reads `bigWord` or puts `replaceWord` in that slot alone. -/
theorem bigRegisterWords : Obligations.BigRegisterWords := by
  intro s k q w hl hwidth hb h
  have hread := readsAs_slot s k hl hb h
  refine ⟨fun hq => ?_, fun hq => ⟨?_, writeIgnored_slot s k w hl hb h hq⟩, fun hq => ?_⟩
  · rwa [bigWord_in s _ hq] at hread
  · rwa [bigWord_out s _ hq] at hread
  · have hbound : replaceWord (s.slot k) q w < 2 ^ s.cfg.width := by
      have hk := slot_lt hwidth k
      rw [width_eq hl] at hk ⊢
      exact replaceWord_lt w hk hq
    simp only [host_slot s k q w hl hb hq, put_word_slot, putSlot_same]
    refine ⟨hbound, replaceWord_word _ q w, fun k' hk' => putSlot_ne s k k' _ hk', putSlot_form s k _, ?_, ?_⟩
    · exact congrArg (fun t : State => { t with resp := some .writeDone }) (putSlot_frame s k _)
    · cases k <;> rfl

end Sys2Proof.Proofs

/-! The decoder (30_encoding.md): the checks of R128 in their order, and the masks and matches of R127 read off the opcode map of R126. -/

namespace Sys2Proof.Proofs
open Sys2Proof.Machine Sys2Proof.Laws

/-! The checks on a word (R128). -/

/-- RSV, or a field the row does not use, is not 0 (R128, detail 0x02). -/
abbrev ReservedSet (r : OpRow) (f : Fields) : Prop :=
  f.rsv ≠ 0 ∨ (r.d = .unused ∧ f.d ≠ 0) ∨ (r.a = .unused ∧ f.a ≠ 0) ∨ (r.b = .unused ∧ f.b ≠ 0) ∨
    (r.usesSel = false ∧ f.sel ≠ 0) ∨ (r.usesM = false ∧ f.m ≠ 0)

/-- A PT field of the row is above 7 (R128, detail 0x03). -/
abbrev PtHigh (r : OpRow) (f : Fields) : Prop :=
  (r.d = .pt ∧ 8 ≤ f.d.toNat) ∨ (r.a = .pt ∧ 8 ≤ f.a.toNat) ∨ (r.b = .pt ∧ 8 ≤ f.b.toNat)

/-- The fields encode a command of the row: the row's OPC, and every check of R128 passes. -/
def FieldsFit (r : OpRow) (f : Fields) : Prop := f.opc = r.opc ∧ ¬ ReservedSet r f ∧ ¬ PtHigh r f

theorem unusedSet_iff (k : FieldKind) (b : BitVec 4) : unusedSet k b = true ↔ k = .unused ∧ b ≠ 0 := by
  simp [unusedSet]

theorem getLsbD_three_iff (b : BitVec 4) : b.getLsbD 3 = true ↔ 8 ≤ b.toNat := by revert b; decide

theorem ptAbove7_iff (k : FieldKind) (b : BitVec 4) : ptAbove7 k b = true ↔ k = .pt ∧ 8 ≤ b.toNat := by
  rw [ptAbove7, Bool.and_eq_true, decide_eq_true_iff, getLsbD_three_iff]

theorem opcode_mem_all (o : Opcode) : o ∈ Opcode.all := by cases o <;> decide

/-- An OPC of no row is reserved (R129). -/
theorem decode_unassigned {w : Word32} (h : (unpack w).opc ∉ Opcode.all.map (·.row.opc)) :
    decode w = .error .opcode := by
  have hnone : opcodeOf (unpack w).opc = none := by
    rw [opcodeOf, List.find?_eq_none]
    intro o ho heq
    exact h (List.mem_map.2 ⟨o, ho, of_decide_eq_true heq⟩)
  rw [decode, decodeFields, hnone]

/-- The checks after the opcode's, with the four of detail 0x02 as one. -/
theorem decode_row {w : Word32} {o : Opcode} (h : (unpack w).opc = o.row.opc) : decode w =
    if ReservedSet o.row (unpack w) then .error .reserved
    else if PtHigh o.row (unpack w) then .error .ptField
    else .ok (buildInstr o (unpack w)) := by
  rw [decode, decodeFields_row _ o h]
  simp only [Bool.or_eq_true, unusedSet_iff, ptAbove7_iff, ite_or, or_assoc]

/-- Settles O5: the two error clauses and the success are the branches of `decode_row`. -/
theorem illegalWords : Obligations.IllegalWords := by
  refine fun w => ⟨decode_unassigned, fun o hopc => ⟨fun hr => ?_, fun hr hp => ?_, fun hr hp => ?_⟩⟩
  · exact (decode_row hopc).trans (if_pos hr)
  · exact (decode_row hopc).trans ((if_neg hr).trans (if_pos hp))
  · exact (decode_row hopc).trans ((if_neg hr).trans (if_neg hp))

/-- A word decodes exactly when its fields fit a row, and then to that row's command. -/
theorem decode_ok_iff (w : Word32) (i : Instr) :
    decode w = .ok i ↔ ∃ o : Opcode, FieldsFit o.row (unpack w) ∧ i = buildInstr o (unpack w) := by
  constructor
  · intro h
    by_cases hopc : (unpack w).opc ∈ Opcode.all.map (·.row.opc)
    · obtain ⟨o, -, ho⟩ := List.mem_map.1 hopc
      rw [decode_row ho.symm] at h
      split_ifs at h with hr hp
      exact ⟨o, ⟨ho.symm, hr, hp⟩, (Except.ok.inj h).symm⟩
    · rw [decode_unassigned hopc] at h
      cases h
  · rintro ⟨o, ⟨hopc, hr, hp⟩, rfl⟩
    rw [decode_row hopc, if_neg hr, if_neg hp]

/-! The masks and matches (R127). -/

/-- The bits of a register field that R127 fixes at 0: none of a V field, bit 3 of a PT field, all of an unused one. -/
def kindMask : FieldKind → BitVec 4
  | .v => 0
  | .pt => 8
  | .unused => 15

/-- The bits of the word that a row fixes (R127). -/
def rowMask (r : OpRow) : Fields where
  opc := BitVec.allOnes 6
  d := kindMask r.d
  a := kindMask r.a
  b := kindMask r.b
  sel := if r.usesSel then 0 else BitVec.allOnes 2
  m := if r.usesM then 0 else BitVec.allOnes 1
  rsv := BitVec.allOnes 11

/-- What a row fixes those bits at: its OPC, and 0 elsewhere (R127). -/
def rowMatch (r : OpRow) : Fields := ⟨r.opc, 0, 0, 0, 0, 0, 0⟩

/-- The mnemonic of an opcode (R126): that of its command with every operand 0. -/
def mnemonic (o : Opcode) : String := mnemonicOf (buildInstr o ⟨0, 0, 0, 0, 0, 0, 0⟩)

theorem mnemonicOf_buildInstr (o : Opcode) (f : Fields) : mnemonicOf (buildInstr o f) = mnemonic o := by
  cases o <;> rfl

theorem mnemonic_injective : Function.Injective mnemonic := by
  have hnodup : (Opcode.all.map mnemonic).Nodup := by decide
  exact fun o o' h => List.inj_on_of_nodup_map hnodup (opcode_mem_all o) (opcode_mem_all o') h

/-- The row of the opcode table that the opcode map gives an opcode. -/
def tableRow (o : Opcode) : String × Word32 × Word32 := (mnemonic o, pack (rowMask o.row), pack (rowMatch o.row))

theorem opcodeTable_eq : opcodeTable = Opcode.all.map tableRow := by decide +kernel

theorem and_kindMask (k : FieldKind) (b : BitVec 4) :
    b &&& kindMask k = 0 ↔ ¬ (k = .unused ∧ b ≠ 0) ∧ ¬ (k = .pt ∧ 8 ≤ b.toNat) := by
  cases k <;> revert b <;> decide

theorem and_usedMask {n : Nat} (used : Bool) (b : BitVec n) :
    b &&& (if used then 0 else BitVec.allOnes n) = 0 ↔ ¬ (used = false ∧ b ≠ 0) := by
  cases used <;> simp

/-- Fields meet a row's mask and match exactly when they fit the row. -/
theorem maskFields_row (r : OpRow) (f : Fields) : maskFields f (rowMask r) = rowMatch r ↔ FieldsFit r f := by
  simp only [maskFields, rowMask, rowMatch, Fields.mk.injEq, and_kindMask, and_usedMask, BitVec.and_allOnes, FieldsFit,
    ReservedSet, PtHigh, not_or, not_ne_iff]
  constructor
  · rintro ⟨hopc, ⟨hd, hd'⟩, ⟨ha, ha'⟩, ⟨hb, hb'⟩, hsel, hm, hrsv⟩
    exact ⟨hopc, ⟨hrsv, hd, ha, hb, hsel, hm⟩, hd', ha', hb'⟩
  · rintro ⟨hopc, ⟨hrsv, hd, ha, hb, hsel, hm⟩, hd', ha', hb'⟩
    exact ⟨hopc, ⟨hd, hd'⟩, ⟨ha, ha'⟩, ⟨hb, hb'⟩, hsel, hm, hrsv⟩

theorem word_matches_row (w : Word32) (r : OpRow) :
    w &&& pack (rowMask r) = pack (rowMatch r) ↔ FieldsFit r (unpack w) := by
  rw [match_fields, unpack_pack, unpack_pack, maskFields_row]

/-- Fields that fit an opcode's row are those of a word that decodes to a command of its mnemonic. -/
theorem fieldsFit_iff_decode (w : Word32) (o : Opcode) :
    FieldsFit o.row (unpack w) ↔ ∃ i, decode w = .ok i ∧ mnemonicOf i = mnemonic o := by
  constructor
  · intro h
    exact ⟨buildInstr o (unpack w), (decode_ok_iff w _).2 ⟨o, h, rfl⟩, mnemonicOf_buildInstr o _⟩
  · rintro ⟨i, hdec, hname⟩
    obtain ⟨o', hfit, rfl⟩ := (decode_ok_iff w i).1 hdec
    rw [mnemonicOf_buildInstr] at hname
    rwa [← mnemonic_injective hname]

/-- Settles O4: a row of the table is an opcode's, and its mask and match test the checks of the decoder. -/
theorem matchAndMask : Obligations.MatchAndMask := by
  simp only [Obligations.MatchAndMask, opcodeTable_eq]
  refine ⟨fun row hrow w => ?_, fun w i hdec => ?_⟩
  · obtain ⟨o, -, rfl⟩ := List.mem_map.1 hrow
    exact (word_matches_row w o.row).trans (fieldsFit_iff_decode w o)
  · obtain ⟨o, -, rfl⟩ := (decode_ok_iff w i).1 hdec
    exact ⟨tableRow o, List.mem_map_of_mem (opcode_mem_all o), mnemonicOf_buildInstr o _⟩

end Sys2Proof.Proofs

/-! The modular family (40_modular.md): one rule for each of its two operand forms, the inverse modulo m (R166), and the seven commands (R180 to R186). -/

namespace Sys2Proof.Proofs
open Sys2Proof.Machine Sys2Proof.Laws

/-! The two operand forms. The prologue (R160) comes before any operand is used. -/

section Forms
variable {i : Instr} {s : State} {m : ModSel} {d a b : VField}

section Binary
variable {f : Nat → Nat → Nat → Nat} (h : exec i s = modBinary s m d a b f)
include h

theorem modBinary_writes (hodd : s.modulus m % 2 = 1) (hge : 3 ≤ s.modulus m) :
    WritesV i s d (f (s.modulus m) (s.getV a) (s.getV b)) := by
  refine writesV_of ?_
  rw [h, modBinary, modPrologue_ok hodd hge]
  rfl

theorem modBinary_badModulus (hbad : s.modulus m % 2 = 0 ∨ s.modulus m < 3) : FailsWith i s 2 0x11 := by
  refine failsWith_of (e := .badModulus) ?_
  rw [h, modBinary, modPrologue_error hbad]
  rfl

end Binary

section Unary
variable {f : Nat → Nat → Except CmdError Nat} (h : exec i s = modUnary s m d a f)
include h

theorem modUnary_writes (hodd : s.modulus m % 2 = 1) (hge : 3 ≤ s.modulus m) {x : Nat}
    (hf : f (s.modulus m) (s.getV a) = .ok x) : WritesV i s d x := by
  refine writesV_of ?_
  rw [h, modUnary, modPrologue_ok hodd hge, bind_ok, hf]
  rfl

theorem modUnary_fails (hodd : s.modulus m % 2 = 1) (hge : 3 ≤ s.modulus m) {e : CmdError}
    (hf : f (s.modulus m) (s.getV a) = .error e) : FailsWith i s e.cls.code e.info := by
  refine failsWith_of ?_
  rw [h, modUnary, modPrologue_ok hodd hge, bind_ok, hf]
  rfl

theorem modUnary_badModulus (hbad : s.modulus m % 2 = 0 ∨ s.modulus m < 3) : FailsWith i s 2 0x11 := by
  refine failsWith_of (e := .badModulus) ?_
  rw [h, modUnary, modPrologue_error hbad]
  rfl

end Unary
end Forms

/-! Inverses modulo m (R166). -/

theorem invMod_mod (a m : Nat) : invMod (a % m) m = invMod a m := by
  simp only [invMod, Nat.mod_mod]

theorem eq_of_mul_mod_eq {u m x y : Nat} (hu : Nat.gcd u m = 1) (hx : x < m) (hy : y < m)
    (h : u * x % m = u * y % m) : x = y :=
  (Nat.ModEq.cancel_left_of_coprime ((Nat.gcd_comm m u).trans hu) h).eq_of_lt_of_lt hx hy

/-- Fermat: modulo a prime p the power p - 2 of a unit is an inverse. -/
theorem mul_pow_sub_two_mod {u p : Nat} (hp : p.Prime) (hu : Nat.gcd u p = 1) : u * (u ^ (p - 2) % p) % p = 1 := by
  have h2 : 2 ≤ p := hp.two_le
  calc u * (u ^ (p - 2) % p) % p = u ^ (p - 1) % p := by
        rw [Nat.mul_mod_mod, ← pow_succ', show p - 2 + 1 = p - 1 by omega]
    _ = 1 % p := Nat.totient_prime hp ▸ Nat.ModEq.pow_totient hu
    _ = 1 := Nat.mod_eq_of_lt h2

/-- A residue that is a unit has exactly one inverse in [1, m), and `inv_mod` returns it. -/
theorem invMod_unit {u m : Nat} (hm : 2 ≤ m) (hu : Nat.gcd u m = 1) :
    ∃ x, invMod u m = .ok x ∧ 1 ≤ x ∧ x < m ∧ u * x % m = 1 ∧ (∀ y, 1 ≤ y → y < m → u * y % m = 1 → y = x) ∧
      (m.Prime → x = u ^ (m - 2) % m) := by
  obtain ⟨x, hinv, hpos, hlt, hmul⟩ := (invMod_spec u m hm).1 hu
  refine ⟨x, hinv, hpos, hlt, hmul, fun y _ hy hy1 => ?_, fun hp => ?_⟩
  · exact eq_of_mul_mod_eq hu hy hlt (hy1.trans hmul.symm)
  · exact eq_of_mul_mod_eq hu hlt (Nat.mod_lt _ (by omega)) (hmul.trans (mul_pow_sub_two_mod hp hu).symm)

/-! The commands: what `exec` gives each of them. -/

section Commands
variable (m : ModSel) (d a b : VField) (s : State)

theorem exec_madd : exec (.madd m d a b) s = modBinary s m d a b (fun p x y => (x + y) % p) := rfl
theorem exec_msub : exec (.msub m d a b) s = modBinary s m d a b (fun p x y => red p ((x : Int) - y)) := rfl
theorem exec_mmul : exec (.mmul m d a b) s = modBinary s m d a b (fun p x y => x * y % p) := rfl
theorem exec_minv : exec (.minv m d a) s = modUnary s m d a (fun p x => invMod x p) := rfl
theorem exec_mexp : exec (.mexp m d a b) s = modBinary s m d a b (fun p x y => powMod x y p) := rfl
theorem exec_msqrt : exec (.msqrt m d a) s = modUnary s m d a (fun p x => sqrtMod x p) := rfl
theorem exec_mred : exec (.mred m d a) s = modUnary s m d a (fun p x => .ok (x % p)) := rfl

end Commands

/-- Settles O14: `inv_mod` sees V[A] only modulo m, where it is a unit or has no inverse. -/
theorem minvResult : Obligations.MinvResult := by
  intro m d a s
  have hred : invMod (s.getV a) (s.modulus m) = invMod (s.getV a % s.modulus m) (s.modulus m) := (invMod_mod ..).symm
  have hno (hodd : s.modulus m % 2 = 1) (hge : 3 ≤ s.modulus m)
      (hg : Nat.gcd (s.getV a % s.modulus m) (s.modulus m) ≠ 1) : FailsWith (.minv m d a) s 5 0x50 := by
    have hinv := (invMod_spec _ (s.modulus m) (by omega)).2 hg
    exact modUnary_fails (e := .noInverse) (exec_minv ..) hodd hge (hred.trans hinv)
  refine ⟨fun hodd hge hg => ?_, hno, fun hodd hge h0 => hno hodd hge ?_, modUnary_badModulus (exec_minv ..)⟩
  · obtain ⟨x, hinv, hpos, hlt, hmul, huniq, hfermat⟩ := invMod_unit (by omega) hg
    exact ⟨x, hpos, hlt, hmul, huniq, hfermat, modUnary_writes (exec_minv ..) hodd hge (hred.trans hinv)⟩
  · rw [h0, Nat.gcd_zero_left]
    omega

/-- Settles O15: `pow_mod` is the power of the whole exponent, reduced. -/
theorem mexpResult : Obligations.MexpResult := by
  refine fun m d a b s => ⟨fun hodd hge => ?_, modBinary_badModulus (exec_mexp ..)⟩
  rw [← powMod_eq _ _ _ (by omega)]
  exact modBinary_writes (exec_mexp ..) hodd hge

/-- Settles O16: the final check of `sqrt_mod` makes every root it returns a root, and it raises nothing but 0x51. -/
theorem msqrtResult : Obligations.MsqrtResult := by
  refine fun m d a s => ⟨fun hodd hge r hr => ?_, fun hodd hge e he => ?_, modUnary_badModulus (exec_msqrt ..)⟩
  · exact ⟨modUnary_writes (exec_msqrt ..) hodd hge hr, sqrtMod_sound _ _ _ (by omega) hr⟩
  · obtain rfl := sqrtMod_error _ _ _ he
    exact modUnary_fails (exec_msqrt ..) hodd hge he

/-- Settles O11: the binary form at the reduced sum. -/
theorem maddResult : Obligations.MaddResult :=
  fun _ _ _ _ _ => ⟨modBinary_writes (exec_madd ..), modBinary_badModulus (exec_madd ..)⟩

/-- Settles O12: the floored remainder is `red` of the exact difference. -/
theorem msubResult : Obligations.MsubResult :=
  fun m _ a b s => ⟨fun hodd hge =>
    ⟨red (s.modulus m) ((s.getV a : Int) - s.getV b), red_cast _ _ (by omega), modBinary_writes (exec_msub ..) hodd hge⟩,
    modBinary_badModulus (exec_msub ..)⟩

/-- Settles O13: the binary form at the reduced product. -/
theorem mmulResult : Obligations.MmulResult :=
  fun _ _ _ _ _ => ⟨modBinary_writes (exec_mmul ..), modBinary_badModulus (exec_mmul ..)⟩

/-- Settles O17: the unary form at a remainder, which never fails. -/
theorem mredResult : Obligations.MredResult :=
  fun _ _ _ _ => ⟨fun hodd hge => modUnary_writes (exec_mred ..) hodd hge rfl, modUnary_badModulus (exec_mred ..)⟩

end Sys2Proof.Proofs

/-! The curve group (41_curve_group.md): one rule for each form of point operands (R205), what the curve helpers answer case by case (R206 to R209), and the nine commands (R202, R210 to R217). -/

namespace Sys2Proof.Proofs
open Sys2Proof.Machine Sys2Proof.Laws

/-! The checks on two point operands (R205): both forms before both values, A before B. -/

section TwoOperands
variable {s : State} {a b : Fin 8} (hc : s.curveOk = true)
include hc

theorem affOperands_formA (ha : ¬ AffForm s a) : affOperands s a b = .error .formA := by
  simp [affOperands, curvePrologue_ok hc, formAff_bad _ ha]

theorem affOperands_formB (ha : AffForm s a) (hb : ¬ AffForm s b) : affOperands s a b = .error .formB := by
  simp [affOperands, curvePrologue_ok hc, formAff_good _ ha, formAff_bad _ hb]

theorem affOperands_offA (ha : OffCurve s a) (hb : AffForm s b) : affOperands s a b = .error .pointA := by
  simp [affOperands, curvePrologue_ok hc, formAff_good _ (.inr ha.1), formAff_good _ hb, valAff_off _ ha.1 ha.2]

theorem affOperands_offB {q : AffPoint} (ha : AffOperand s a q) (hb : OffCurve s b) :
    affOperands s a b = .error .pointB := by
  obtain ⟨hform, hval⟩ := affOperand_checks ha .formA .pointA
  simp [affOperands, curvePrologue_ok hc, hform, hval, formAff_good _ (.inr hb.1), valAff_off _ hb.1 hb.2]

theorem jacOperands_formA (ha : (s.getPt a).f ≠ .jac) : jacOperands s a b = .error .formA := by
  simp [jacOperands, curvePrologue_ok hc, formJac_bad _ ha]

theorem jacOperands_formB (ha : (s.getPt a).f = .jac) (hb : (s.getPt b).f ≠ .jac) :
    jacOperands s a b = .error .formB := by
  simp [jacOperands, curvePrologue_ok hc, formJac_good _ ha, formJac_bad _ hb]

theorem jacOperands_offA (ha : OffCurveJac s a) (hb : (s.getPt b).f = .jac) : jacOperands s a b = .error .pointA := by
  simp [jacOperands, curvePrologue_ok hc, formJac_good _ ha.1, formJac_good _ hb, valJac_off _ ha.2]

theorem jacOperands_offB {t : JacPoint} (ha : JacOperand s a t) (hb : OffCurveJac s b) :
    jacOperands s a b = .error .pointB := by
  obtain ⟨hform, hval⟩ := jacOperand_checks ha .formA .pointA
  simp [jacOperands, curvePrologue_ok hc, hform, hval, formJac_good _ hb.1, valJac_off _ hb.2]

end TwoOperands

/-! A command that checks its operands first and goes on with their values: how the checks end it (R205). -/

section Forms
variable {α : Type} {i : Instr} {s : State} {a b : Fin 8}

theorem checked_fails {x : Except CmdError α} {k : α → Except CmdError Effect} (h : exec i s = complete s (x >>= k))
    {e : CmdError} (hx : x = .error e) : FailsWith i s e.cls.code e.info := by
  refine failsWith_of ?_
  rw [h, hx, bind_error]

theorem checked_exec {x : Except CmdError α} {k : α → Except CmdError Effect} (h : exec i s = complete s (x >>= k))
    {v : α} (hx : x = .ok v) : exec i s = complete s (k v) := by
  rw [h, hx, bind_ok]

theorem affOperandA_fails {k : AffPoint → Except CmdError Effect} (h : exec i s = complete s (affOperandA s a >>= k)) :
    (s.curveOk = false → FailsWith i s 2 0x10) ∧
    (s.curveOk = true → ¬ AffForm s a → FailsWith i s 3 0x20) ∧
    (s.curveOk = true → OffCurve s a → FailsWith i s 4 0x31) :=
  ⟨fun hc => checked_fails (e := .noCurve) h (affOperandA_noCurve hc),
    fun hc ha => checked_fails (e := .formA) h (affOperandA_form hc ha),
    fun hc ha => checked_fails (e := .pointA) h (affOperandA_off hc ha)⟩

theorem jacOperandA_fails {k : JacPoint → Except CmdError Effect} (h : exec i s = complete s (jacOperandA s a >>= k)) :
    (s.curveOk = false → FailsWith i s 2 0x10) ∧
    (s.curveOk = true → (s.getPt a).f ≠ .jac → FailsWith i s 3 0x20) ∧
    (s.curveOk = true → OffCurveJac s a → FailsWith i s 4 0x31) :=
  ⟨fun hc => checked_fails (e := .noCurve) h (jacOperandA_noCurve hc),
    fun hc ha => checked_fails (e := .formA) h (jacOperandA_form hc ha),
    fun hc ha => checked_fails (e := .pointA) h (jacOperandA_off hc ha)⟩

end Forms

/-! The commands: the operand checks of each and what it does with the values. -/

section Commands
variable (d a b : PtField) (v : VField) (s : State)

theorem exec_padd : exec (.padd d a b) s = complete s (affOperands s (ptIx a) (ptIx b) >>= fun ops =>
    affAdd s.curve ops.1 ops.2 >>= fun q => .ok (.setPt (ptIx d) (affReg q))) := rfl

theorem exec_pneg : exec (.pneg d a) s = complete s (affOperandA s (ptIx a) >>= fun q =>
    .ok (.setPt (ptIx d) (affReg (affNeg s.curve q)))) := rfl

theorem exec_jadd : exec (.jadd d a b) s = complete s (jacOperands s (ptIx a) (ptIx b) >>= fun ops =>
    .ok (.setPt (ptIx d) (jacReg (jadd s.curve ops.1 ops.2)))) := rfl

theorem exec_jdbl : exec (.jdbl d a) s = complete s (jacOperandA s (ptIx a) >>= fun t =>
    .ok (.setPt (ptIx d) (jacReg (jdbl s.curve t)))) := rfl

theorem exec_j2a : exec (.j2a d a) s = complete s (jacOperandA s (ptIx a) >>= fun t =>
    affOf s.curve t >>= fun q => .ok (.setPt (ptIx d) (affReg q))) := rfl

theorem exec_a2j : exec (.a2j d a) s = complete s (affOperandA s (ptIx a) >>= fun q =>
    .ok (.setPt (ptIx d) (jacReg (jacOf q)))) := rfl

theorem exec_j2x : exec (.j2x v a) s = complete s (jacOperandA s (ptIx a) >>= fun t =>
    require (t.z ≠ 0) .xOfInf >>= fun _ => invMod t.z s.curve.p >>= fun zi =>
      .ok (.setV v (red s.curve.p ((t.x : Int) * (zi * zi))))) := rfl

end Commands

/-! CCHK (R202). -/

theorem require_bind {α : Type} (P : Prop) [Decidable P] (e : CmdError) (k : Unit → Except CmdError α) :
    (require P e >>= k) = if P then k () else .error e := by
  by_cases h : P <;> simp [h]

/-- Once the coordinates of G are below P, CCHK's fourth check is the curve equation alone. -/
theorem onCurve_iff_equation {c : CurveBlock} {x y : Nat} (hx : x < c.p) (hy : y < c.p) :
    OnCurve c x y ↔ y ^ 2 % c.p = (x ^ 3 + c.a * x + c.b) % c.p := by
  simp [OnCurve, hx, hy]

/-- The checks of CCHK as the first of their failures. -/
theorem checkCurve_eq (c : CurveBlock) (weak : Bool) : checkCurve c weak =
    if c.p % 2 = 0 ∨ c.p < 3 then .error .curveP
    else if c.p ≤ c.a ∨ c.p ≤ c.b ∨ c.p ≤ c.gx ∨ c.p ≤ c.gy then .error .curveRange
    else if weak = false ∧ (4 * c.a ^ 3 + 27 * c.b ^ 2) % c.p = 0 then .error .singular
    else if c.gy ^ 2 % c.p ≠ (c.gx ^ 3 + c.a * c.gx + c.b) % c.p then .error .curveG
    else if c.n % 2 = 0 ∨ c.n < 3 then .error .curveN
    else if (jmul c c.n (.pt c.gx c.gy)).z ≠ 0 then .error .curveOrder
    else .ok () := by
  by_cases hrange : c.p ≤ c.a ∨ c.p ≤ c.b ∨ c.p ≤ c.gx ∨ c.p ≤ c.gy
  · simp only [checkCurve, require_bind, ite_not, if_pos hrange]
  · have hg : onCurveAff c c.gx c.gy = true ↔ c.gy ^ 2 % c.p = (c.gx ^ 3 + c.a * c.gx + c.b) % c.p :=
      (onCurveAff_iff ..).trans (onCurve_iff_equation (by omega) (by omega))
    simp only [checkCurve, require_bind, ite_not, if_neg hrange, hg, ne_eq]
    rfl

/-- CURVE_OK, ERR and ERRINFO after a CCHK whose checks answered r. -/
def checkReport : Except CmdError Unit → Bool × BitVec 4 × Byte
  | .ok _ => (true, 0, 0x00)
  | .error e => (false, e.cls.code, e.info)

theorem exec_cchk_report (s : State) : ∃ t, exec .cchk s = .next t ∧ t.busy = false ∧ t.done = true ∧
    SameContext s t ∧ SameVBut [] s t ∧ SamePtBut [] s t ∧ SameOb s t ∧
    (t.curveOk, t.err, t.errInfo) = checkReport (checkCurve s.curve s.weak) := by
  rcases exec_cchk s with ⟨hok, hexec⟩ | ⟨e, herr, hexec⟩
  · exact ⟨_, hexec, rfl, rfl, ⟨rfl, rfl, rfl, rfl, rfl, rfl, rfl, rfl⟩, fun _ _ => rfl, fun _ _ => rfl,
      ⟨rfl, fun _ => rfl⟩, by rw [hok]; rfl⟩
  · exact ⟨_, hexec, rfl, rfl, ⟨rfl, rfl, rfl, rfl, rfl, rfl, rfl, rfl⟩, fun _ _ => rfl, fun _ _ => rfl,
      ⟨rfl, fun _ => rfl⟩, by rw [herr]; rfl⟩

/-- Settles O19: the report of the first check that fails. -/
theorem cchkResult : Obligations.CchkResult := by
  intro s c
  obtain ⟨t, hexec, hbusy, hdone, hctx, hv, hpt, hob, hreport⟩ := exec_cchk_report s
  refine ⟨t, hexec, hbusy, hdone, hctx, hv, hpt, hob, ?_⟩
  rw [hreport, checkCurve_eq]
  simp only [apply_ite checkReport]
  rfl

/-! Affine operands: PADD, ONCRV, PNEG, A2J. -/

/-- Settles O21: the five checks of R205, then whatever aff_add answers; it raises nothing but 0x50. -/
theorem paddResult : Obligations.PaddResult := by
  intro d a b s
  have hexec := exec_padd d a b s
  refine ⟨fun hc => checked_fails (e := .noCurve) hexec (affOperands_noCurve hc),
    fun hc ha => checked_fails (e := .formA) hexec (affOperands_formA hc ha),
    fun hc ha hb => checked_fails (e := .formB) hexec (affOperands_formB hc ha hb),
    fun hc ha hb => checked_fails (e := .pointA) hexec (affOperands_offA hc ha hb),
    fun q1 hc ha hb => checked_fails (e := .pointB) hexec (affOperands_offB hc ha hb),
    fun q1 q2 hc ha hb => ?_⟩
  have hsum := checked_exec hexec (affOperands_ok hc ha hb)
  refine ⟨fun q hq => writesPt_of (checked_exec hsum hq), fun e he => ?_, fun hp h3 => ?_⟩
  · obtain rfl := affAdd_raises he
    exact checked_fails hsum he
  · exact affAdd_prime s.curve hp h3 q1 q2 (affOperand_on ha) (affOperand_on hb)

section Oncrv
variable {d : VField} {a : PtField} {s : State} (hc : s.curveOk = true)
include hc

theorem exec_oncrv_inf (hf : (s.getPt (ptIx a)).f = .inf) : exec (.oncrv d a) s = complete s (.ok (.setV d 1)) := by
  simp [exec, execOncrv, curvePrologue_ok hc, hf]

theorem exec_oncrv_aff (hf : (s.getPt (ptIx a)).f = .aff) : exec (.oncrv d a) s = complete s
    (.ok (.setV d (boolNat (onCurveAff s.curve (s.getPt (ptIx a)).x (s.getPt (ptIx a)).y)))) := by
  simp [exec, execOncrv, curvePrologue_ok hc, hf]

theorem exec_oncrv_form (hf : ¬ AffForm s (ptIx a)) : exec (.oncrv d a) s = complete s (.error .pointA) := by
  cases h : (s.getPt (ptIx a)).f with
  | inf => exact absurd (.inl h) hf
  | aff => exact absurd (.inr h) hf
  | jac => simp [exec, execOncrv, curvePrologue_ok hc, h]
  | reserved => simp [exec, execOncrv, curvePrologue_ok hc, h]

end Oncrv

/-- Settles O20: an affine pair is answered with the truth of the curve equation, every other form at once. -/
theorem oncrvResult : Obligations.OncrvResult := by
  intro d a s
  refine ⟨fun hc hf => writesV_of (exec_oncrv_inf hc hf), fun hc hf hon => writesV_of ?_, fun hc hoff => writesV_of ?_,
    fun hc hf => failsWith_of (e := .pointA) (exec_oncrv_form hc hf), fun hc => ?_⟩
  · rw [exec_oncrv_aff hc hf, (onCurveAff_iff ..).2 hon]
    rfl
  · rw [exec_oncrv_aff hc hoff.1, Bool.eq_false_iff.2 (mt (onCurveAff_iff ..).1 hoff.2)]
    rfl
  · exact checked_fails (e := .noCurve) rfl (curvePrologue_error hc)

theorem affNeg_pt {c : CurveBlock} {x y : Nat} (hy : y < c.p) : affNeg c (.pt x y) = .pt x ((c.p - y) % c.p) := by
  rw [affNeg, ← Nat.cast_sub hy.le, red_natCast]

/-- Settles O22: the checks of R205, then aff_neg of a valid operand, whose y is below p. -/
theorem pnegResult : Obligations.PnegResult := by
  intro d a s
  obtain ⟨hcurve, hform, hvalue⟩ := affOperandA_fails (exec_pneg d a s)
  have hneg {q : AffPoint} (hc : s.curveOk = true) (ha : AffOperand s (ptIx a) q) :
      WritesPt (.pneg d a) s (ptIx d) (affReg (affNeg s.curve q)) :=
    writesPt_of (checked_exec (exec_pneg d a s) (affOperandA_ok hc ha))
  refine ⟨hcurve, hform, hvalue, hneg, fun x y hc ha => ?_⟩
  obtain ⟨-, hy, -⟩ : OnCurve s.curve x y := affOperand_on ha
  have := hneg hc ha
  rwa [affNeg_pt hy] at this

/-- Settles O26: the checks of R205, then jac_of of a valid operand. -/
theorem a2jResult : Obligations.A2jResult := by
  intro d a s
  obtain ⟨hcurve, hform, hvalue⟩ := affOperandA_fails (exec_a2j d a s)
  have hjac {q : AffPoint} (hc : s.curveOk = true) (ha : AffOperand s (ptIx a) q) :
      WritesPt (.a2j d a) s (ptIx d) (jacReg (jacOf q)) :=
    writesPt_of (checked_exec (exec_a2j d a s) (affOperandA_ok hc ha))
  exact ⟨hcurve, hform, hvalue, hjac, fun x y => hjac⟩

/-! What a valid Jacobian operand says of P. -/

theorem jacOperand_pos {s : State} {i : Fin 8} {t : JacPoint} (h : JacOperand s i t) : 0 < s.curve.p := by
  obtain ⟨-, -, hx, -⟩ := h
  omega

theorem jacOperand_two_le {s : State} {i : Fin 8} {t : JacPoint} (h : JacOperand s i t) (hz : t.z ≠ 0) :
    2 ≤ s.curve.p := by
  obtain ⟨-, -, -, -, hlt, -⟩ := h
  omega

/-! The Jacobian formulas as residues of their exact expressions (R208, R209). -/

section Formulas
variable {c : CurveBlock}

theorem red_modEq {m : Nat} (hm : 0 < m) (e : Int) : (red m e : Int) ≡ e [ZMOD m] := by
  rw [red_cast m e hm]
  exact Int.mod_modEq e m

theorem red_eq_red_iff {m : Nat} (hm : 0 < m) (e f : Int) : red m e = red m f ↔ e ≡ f [ZMOD m] := by
  rw [← Nat.cast_inj (R := Int), red_cast m e hm, red_cast m f hm, Int.ModEq]

theorem jacReg_of_z_ne {x y z : Nat} (hz : z ≠ 0) : jacReg ⟨x, y, z⟩ = ⟨.jac, x, y, z⟩ := if_neg hz

theorem jacReg_ite (x y z : Nat) : jacReg (if z = 0 then JacPoint.infinity else ⟨x, y, z⟩) =
    if z = 0 then ⟨.jac, 1, 1, 0⟩ else ⟨.jac, x, y, z⟩ := by
  split
  · rfl
  · exact jacReg_of_z_ne ‹_›

theorem jdbl_degenerate {t : JacPoint} (h : t.z = 0 ∨ t.y = 0) : jdbl c t = JacPoint.infinity := if_pos h

/-- The pinned triple of R208, before Z3 = 0 is looked at. -/
theorem jdbl_generic {t : JacPoint} (hp : 0 < c.p) (hz : t.z ≠ 0) (hy : t.y ≠ 0) : ∃ x3 y3 : Nat,
    x3 < c.p ∧ y3 < c.p ∧
    (x3 : Int) ≡ (3 * t.x ^ 2 + c.a * t.z ^ 4) ^ 2 - 8 * t.x * t.y ^ 2 [ZMOD c.p] ∧
    (y3 : Int) ≡ (3 * t.x ^ 2 + c.a * t.z ^ 4) * (4 * t.x * t.y ^ 2 - x3) - 8 * t.y ^ 4 [ZMOD c.p] ∧
    jdbl c t = if 2 * t.y * t.z % c.p = 0 then JacPoint.infinity else ⟨x3, y3, 2 * t.y * t.z % c.p⟩ := by
  have hz3 : red c.p (2 * (t.y : Int) * t.z) = 2 * t.y * t.z % c.p := by
    rw [← red_natCast]
    push_cast
    rfl
  simp only [jdbl, hz, hy, or_self, if_false, hz3]
  refine ⟨_, _, red_lt _ _ hp, red_lt _ _ hp, ?_, ?_, rfl⟩ <;>
  · rw [← ZMod.intCast_eq_intCast_iff]
    push_cast [red_zmod _ _ hp]
    ring

end Formulas

/-- Settles O24: the checks of R205, then the pinned triple, its degenerate cases apart. -/
theorem jdblResult : Obligations.JdblResult := by
  intro d a s
  obtain ⟨hcurve, hform, hvalue⟩ := jacOperandA_fails (exec_jdbl d a s)
  refine ⟨hcurve, hform, hvalue, fun t hc ha => ?_⟩
  have hwrite : WritesPt (.jdbl d a) s (ptIx d) (jacReg (jdbl s.curve t)) :=
    writesPt_of (checked_exec (exec_jdbl d a s) (jacOperandA_ok hc ha))
  refine ⟨fun h => ?_, fun hz hy h3 => ?_, fun hz hy h3 => ?_⟩
  · rwa [jdbl_degenerate h] at hwrite
  all_goals obtain ⟨x3, y3, hx3, hy3, ex, ey, htriple⟩ := jdbl_generic (c := s.curve) (jacOperand_pos ha) hz hy
  · rwa [htriple, if_pos h3] at hwrite
  · rw [htriple, if_neg h3, jacReg_of_z_ne h3] at hwrite
    exact ⟨x3, y3, hx3, hy3, ex, ey, hwrite⟩

/-! JADD (R213) with the pinned formulas of R209. -/

section Jadd
variable {c : CurveBlock} {t1 t2 : JacPoint}

theorem jadd_infinities (h1 : t1.z = 0) (h2 : t2.z = 0) : jadd c t1 t2 = JacPoint.infinity := by
  simp [jadd, h1, h2]

theorem jadd_infinity_left (h1 : t1.z = 0) (h2 : t2.z ≠ 0) : jadd c t1 t2 = t2 := by
  simp [jadd, h1, h2]

theorem jadd_infinity_right (h1 : t1.z ≠ 0) (h2 : t2.z = 0) : jadd c t1 t2 = t1 := by
  simp [jadd, h1, h2]

variable (hp : 0 < c.p) (h1 : t1.z ≠ 0) (h2 : t2.z ≠ 0)
include hp h1 h2

theorem jadd_same_class (hu : (t1.x : Int) * t2.z ^ 2 ≡ t2.x * t1.z ^ 2 [ZMOD c.p])
    (hs : (t1.y : Int) * t2.z ^ 3 ≡ t2.y * t1.z ^ 3 [ZMOD c.p]) : jadd c t1 t2 = jdbl c t1 := by
  simp only [jadd, if_neg h1, if_neg h2, red_eq_red_iff hp, if_pos hu, if_pos hs]

theorem jadd_opposite_class (hu : (t1.x : Int) * t2.z ^ 2 ≡ t2.x * t1.z ^ 2 [ZMOD c.p])
    (hs : ¬ (t1.y : Int) * t2.z ^ 3 ≡ t2.y * t1.z ^ 3 [ZMOD c.p]) : jadd c t1 t2 = JacPoint.infinity := by
  simp only [jadd, if_neg h1, if_neg h2, red_eq_red_iff hp, if_pos hu, if_neg hs]

/-- The pinned triple of R209 for two finite classes of different x, with u1, u2, s1, s2 its four products. -/
theorem jadd_generic {u1 u2 s1 s2 : Int} (eu1 : u1 = t1.x * t2.z ^ 2) (eu2 : u2 = t2.x * t1.z ^ 2)
    (es1 : s1 = t1.y * t2.z ^ 3) (es2 : s2 = t2.y * t1.z ^ 3) (hu : ¬ u1 ≡ u2 [ZMOD c.p]) : ∃ x3 y3 z3 : Nat,
    x3 < c.p ∧ y3 < c.p ∧ z3 < c.p ∧
    (x3 : Int) ≡ (s2 - s1) * (s2 - s1) - (u2 - u1) ^ 3 - 2 * u1 * (u2 - u1) ^ 2 [ZMOD c.p] ∧
    (y3 : Int) ≡ (s2 - s1) * (u1 * (u2 - u1) ^ 2 - x3) - s1 * (u2 - u1) ^ 3 [ZMOD c.p] ∧
    (z3 : Int) ≡ (u2 - u1) * t1.z * t2.z [ZMOD c.p] ∧
    jadd c t1 t2 = if z3 = 0 then JacPoint.infinity else ⟨x3, y3, z3⟩ := by
  simp only [jadd, if_neg h1, if_neg h2, ← eu1, ← eu2, ← es1, ← es2, red_eq_red_iff hp, if_neg hu]
  refine ⟨_, _, _, red_lt _ _ hp, red_lt _ _ hp, red_lt _ _ hp, ?_, ?_, ?_, rfl⟩ <;>
  · rw [← ZMod.intCast_eq_intCast_iff]
    push_cast [red_zmod _ _ hp]
    rfl

end Jadd

/-- Settles O23: the five checks of R205, then R209 case by case; equal classes run exactly JDBL of operand A. -/
theorem jaddResult : Obligations.JaddResult := by
  intro d a b s
  have hexec := exec_jadd d a b s
  refine ⟨fun hc => checked_fails (e := .noCurve) hexec (jacOperands_noCurve hc),
    fun hc ha => checked_fails (e := .formA) hexec (jacOperands_formA hc ha),
    fun hc ha hb => checked_fails (e := .formB) hexec (jacOperands_formB hc ha hb),
    fun hc ha hb => checked_fails (e := .pointA) hexec (jacOperands_offA hc ha hb),
    fun t1 hc ha hb => checked_fails (e := .pointB) hexec (jacOperands_offB hc ha hb),
    fun t1 t2 hc ha hb => ?_⟩
  intro u1 u2 s1 s2 hh r
  have hp := jacOperand_pos ha
  have hrun := checked_exec hexec (jacOperands_ok hc ha hb)
  have hwrite : WritesPt (.jadd d a b) s (ptIx d) (jacReg (jadd s.curve t1 t2)) := writesPt_of hrun
  refine ⟨hwrite, fun h1 h2 => ?_, fun h1 h2 => ?_, fun h1 h2 => ?_, fun h1 h2 hu hs q hq => ?_,
    fun h1 h2 hu hs => ?_, fun h1 h2 hu => ?_⟩
  · rwa [jadd_infinities h1 h2] at hwrite
  · rwa [jadd_infinity_left h1 h2, jacReg_of_z_ne h2] at hwrite
  · rwa [jadd_infinity_right h1 h2, jacReg_of_z_ne h1] at hwrite
  · have hdbl := checked_exec (exec_jdbl d a s) (jacOperandA_ok hc ha)
    rw [jadd_same_class hp h1 h2 hu hs] at hrun
    rwa [WritesPt, hdbl, ← hrun] at hq
  · rwa [jadd_opposite_class hp h1 h2 hu hs] at hwrite
  · obtain ⟨x3, y3, z3, hx3, hy3, hz3, ex, ey, ez, htriple⟩ := jadd_generic hp h1 h2 rfl rfl rfl rfl hu
    refine ⟨x3, y3, z3, hx3, hy3, hz3, ex, ey, ez, ?_⟩
    rwa [htriple, jacReg_ite] at hwrite

/-! From Jacobian to affine: J2A and J2X. -/

/-- `inv_mod` answers the residue of any inverse (40_modular.md R166). -/
theorem invMod_of_inverse {z p zi : Nat} (hp : 2 ≤ p) (h : z * zi % p = 1) : invMod z p = .ok (zi % p) := by
  obtain ⟨x, hinv, -, hlt, hmul⟩ := (invMod_spec z p hp).1 (gcd_of_inverse hp h)
  have hx : zi % p = x := Eq.trans (inverse_unique hp h hmul) (Nat.mod_eq_of_lt hlt)
  rw [hinv, hx]

theorem red_mul_inverse_sq (p x zi : Nat) :
    red p ((x : Int) * (((zi % p : Nat) : Int) * (zi % p : Nat))) = x * zi ^ 2 % p := by
  rw [← Nat.cast_mul, ← Nat.cast_mul, red_natCast, ← pow_two]
  exact ((Nat.mod_modEq zi p).pow 2).mul_left x

theorem red_mul_inverse_cube (p y zi : Nat) :
    red p ((y : Int) * (((zi % p : Nat) : Int) * (zi % p : Nat) * (zi % p : Nat))) = y * zi ^ 3 % p := by
  rw [← Nat.cast_mul, ← Nat.cast_mul, ← Nat.cast_mul, red_natCast, ← pow_three']
  exact ((Nat.mod_modEq zi p).pow 3).mul_left y

section AffOf
variable {c : CurveBlock} {t : JacPoint}

theorem affOf_infinity (hz : t.z = 0) : affOf c t = .ok .inf := if_pos hz

theorem affOf_no_inverse (hp : 2 ≤ c.p) (hz : t.z ≠ 0) (hg : Nat.gcd t.z c.p ≠ 1) :
    affOf c t = .error .noInverse := by
  rw [affOf, if_neg hz, (invMod_spec _ _ hp).2 hg, bind_error]

theorem affOf_inverse {zi : Nat} (hp : 2 ≤ c.p) (hz : t.z ≠ 0) (h : t.z * zi % c.p = 1) :
    affOf c t = .ok (.pt (t.x * zi ^ 2 % c.p) (t.y * zi ^ 3 % c.p)) := by
  rw [affOf, if_neg hz, invMod_of_inverse hp h, bind_ok, red_mul_inverse_sq, red_mul_inverse_cube]

end AffOf

/-- Settles O25: the checks of R205, then aff_of of a valid operand. -/
theorem j2aResult : Obligations.J2aResult := by
  intro d a s
  obtain ⟨hcurve, hform, hvalue⟩ := jacOperandA_fails (exec_j2a d a s)
  refine ⟨hcurve, hform, hvalue, fun t hc ha => ?_⟩
  have hrun := checked_exec (exec_j2a d a s) (jacOperandA_ok hc ha)
  have hwrite {q : AffPoint} (hq : affOf s.curve t = .ok q) : WritesPt (.j2a d a) s (ptIx d) (affReg q) :=
    writesPt_of (checked_exec hrun hq)
  refine ⟨fun hz => hwrite (affOf_infinity hz), fun hz hg => ?_, fun hz zi hzi => ?_⟩
  · exact checked_fails hrun (affOf_no_inverse (jacOperand_two_le ha hz) hz hg)
  · exact hwrite (affOf_inverse (jacOperand_two_le ha hz) hz hzi)

/-- Settles O27: the checks of R205, then the refusal of infinity, then x times the square of the inverse of Z. -/
theorem j2xResult : Obligations.J2xResult := by
  intro d a s
  obtain ⟨hcurve, hform, hvalue⟩ := jacOperandA_fails (exec_j2x a d s)
  refine ⟨hcurve, hform, hvalue, fun t hc ha => ?_⟩
  have hrun := checked_exec (exec_j2x a d s) (jacOperandA_ok hc ha)
  refine ⟨fun hz => checked_fails hrun (require_neg .xOfInf (not_not.2 hz)), fun hz hg => ?_, fun hz zi hzi => ?_⟩
  all_goals
    have hp := jacOperand_two_le ha hz
    have hinv := checked_exec hrun (require_pos .xOfInf hz)
  · exact checked_fails hinv ((invMod_spec _ _ hp).2 hg)
  · rw [← red_mul_inverse_sq]
    exact writesV_of (checked_exec hinv (invMod_of_inverse hp hzi))

end Sys2Proof.Proofs

/-! The y-recovery family (42_curve_y.md): the checks on the selector (R205), what `y_roots` and `select` answer case by case (R260, R261), and the four commands (R263 to R266). -/

namespace Sys2Proof.Proofs
open Sys2Proof.Machine Sys2Proof.Laws

/-! The two candidates (R260): the checks on x, then a root and its negation. -/

section Roots
variable {c : CurveBlock} {x : Nat}

theorem yRoots_xRange (hx : c.p ≤ x) : yRoots c x = .error .xRange := if_pos hx

theorem yRoots_noSqrt (hx : x < c.p) {e : CmdError} (he : sqrtMod (rightSide c x) c.p = .error e) :
    yRoots c x = .error .noY := by
  rw [yRoots_eq, if_neg hx.not_ge, he]

theorem yRoots_sqrt (hx : x < c.p) {r : Nat} (hr : sqrtMod (rightSide c x) c.p = .ok r) :
    yRoots c x = .ok (r, (c.p - r) % c.p) := by
  have hlt : r < c.p := sqrtMod_lt (by omega) hr
  rw [yRoots_eq, if_neg hx.not_ge, hr, ← red_other c.p r hlt]

end Roots

/-! The selection (R261): the first candidate with the property. -/

section Selection
variable {r q : Nat} {pred : Nat → Bool}

theorem selectRoot_first (h : pred r = true) : selectRoot (r, q) pred = .ok r := if_pos h

theorem selectRoot_second (h1 : ¬ pred r = true) (h2 : pred q = true) : selectRoot (r, q) pred = .ok q :=
  (if_neg h1).trans (if_pos h2)

theorem selectRoot_none (h1 : ¬ pred r = true) (h2 : ¬ pred q = true) : selectRoot (r, q) pred = .error .noRoot :=
  (if_neg h1).trans (if_neg h2)

end Selection

/-! YLOW's property of a candidate (R264): it is the smaller, or the larger, of itself and its negation, so one of the two always has it. -/

section LowPred
variable {c : CurveBlock} {sel : Sel} {r : Nat}

theorem lowPred_iff (hr : r < c.p) :
    lowPred c sel r = true ↔ if sel.val = 1 then r ≤ (c.p - r) % c.p else (c.p - r) % c.p ≤ r := by
  rw [lowPred, red_other c.p r hr]
  split <;> exact decide_eq_true_iff

theorem selectRoot_lowPred (hr : r < c.p) : selectRoot (r, (c.p - r) % c.p) (lowPred c sel) =
    .ok (if sel.val = 1 then min r ((c.p - r) % c.p) else max r ((c.p - r) % c.p)) := by
  have hroot := lowPred_iff (sel := sel) hr
  have hother := lowPred_iff (c := c) (sel := sel) (Nat.mod_lt (c.p - r) (by omega))
  rw [other_other c.p r hr] at hother
  by_cases hfirst : lowPred c sel r = true
  · rw [selectRoot_first hfirst]
    rw [hroot] at hfirst
    split_ifs at hfirst ⊢ <;> simp [hfirst]
  · have hle := mt hroot.2 hfirst
    have hsecond := hother.2 (by split_ifs at hle ⊢ <;> exact Nat.le_of_not_le hle)
    rw [selectRoot_second hfirst hsecond]
    split_ifs at hle ⊢ <;> simp [Nat.le_of_not_le hle]

end LowPred

/-- YQR compares the 0 or 1 of a truth value with its selector (R265). -/
theorem boolNat_eq_iff {n : Nat} (hn : n ≤ 1) (b : Bool) : boolNat b = n ↔ b = decide (n = 1) := by
  obtain rfl | rfl : n = 0 ∨ n = 1 := by omega
  all_goals cases b <;> decide

/-! How the checks and the selection end a command of the family. -/

section Forms
variable {i : Instr} {s : State} {d a : VField} {sel : Sel}

theorem selector_checks {x : Except CmdError Effect}
    (h : exec i s = complete s (curvePrologue s >>= fun _ => selectorCheck sel >>= fun _ => x)) :
    (s.curveOk = false → FailsWith i s 2 0x10) ∧
    (s.curveOk = true → 2 ≤ sel.val → FailsWith i s 4 0x30) ∧
    (s.curveOk = true → sel.val ≤ 1 → exec i s = complete s x) :=
  ⟨fun hc => checked_fails (e := .noCurve) h (curvePrologue_error hc),
    fun hc hsel => checked_fails (e := .selector) (checked_exec h (curvePrologue_ok hc)) (selectorCheck_error hsel),
    fun hc hsel => checked_exec (checked_exec h (curvePrologue_ok hc)) (selectorCheck_ok hsel)⟩

theorem yRoots_checks {k : Nat × Nat → Except CmdError Effect}
    (h : exec i s = complete s (yRoots s.curve (s.getV a) >>= k)) :
    (s.curve.p ≤ s.getV a → FailsWith i s 4 0x33) ∧
    (s.getV a < s.curve.p →
      (∀ e, sqrtMod (rightSide s.curve (s.getV a)) s.curve.p = .error e → FailsWith i s 4 0x34) ∧
      (∀ r, sqrtMod (rightSide s.curve (s.getV a)) s.curve.p = .ok r →
        exec i s = complete s (k (r, (s.curve.p - r) % s.curve.p)))) :=
  ⟨fun hx => checked_fails (e := .xRange) h (yRoots_xRange hx),
    fun hx => ⟨fun _ he => checked_fails (e := .noY) h (yRoots_noSqrt hx he),
      fun _ hr => checked_exec h (yRoots_sqrt hx hr)⟩⟩

theorem selectRoot_writes {roots : Nat × Nat} {pred : Nat → Bool}
    (h : exec i s = complete s (selectRoot roots pred >>= fun y => .ok (.setV d y))) {y : Nat}
    (hy : selectRoot roots pred = .ok y) : WritesV i s d y :=
  writesV_of (checked_exec h hy)

theorem selectRoot_outcomes {r q : Nat} {pred : Nat → Bool}
    (h : exec i s = complete s (selectRoot (r, q) pred >>= fun y => .ok (.setV d y))) :
    (pred r = true → WritesV i s d r) ∧
    (¬ pred r = true → pred q = true → WritesV i s d q) ∧
    (¬ pred r = true → ¬ pred q = true → FailsWith i s 4 0x3D) :=
  ⟨fun h1 => selectRoot_writes h (selectRoot_first h1),
    fun h1 h2 => selectRoot_writes h (selectRoot_second h1 h2),
    fun h1 h2 => checked_fails (e := .noRoot) h (selectRoot_none h1 h2)⟩

end Forms

/-! The commands: their checks in order and the property each asks of a candidate. -/

section Commands
variable (d a : VField) (b : PtField) (sel : Sel) (s : State)

theorem exec_yodd : exec (.yodd d a sel) s = complete s (curvePrologue s >>= fun _ => selectorCheck sel >>= fun _ =>
    yRoots s.curve (s.getV a) >>= fun roots =>
      selectRoot roots (fun r => decide (r % 2 = sel.val)) >>= fun y => .ok (.setV d y)) := rfl

theorem exec_ylow : exec (.ylow d a sel) s = complete s (curvePrologue s >>= fun _ => selectorCheck sel >>= fun _ =>
    yRoots s.curve (s.getV a) >>= fun roots =>
      selectRoot roots (lowPred s.curve sel) >>= fun y => .ok (.setV d y)) := rfl

theorem exec_yqr : exec (.yqr d a sel) s = complete s (curvePrologue s >>= fun _ => selectorCheck sel >>= fun _ =>
    require (s.curve.p % 4 = 3) .pMod4 >>= fun _ => yRoots s.curve (s.getV a) >>= fun roots =>
      selectRoot roots (fun r => decide (boolNat (isQr r s.curve.p) = sel.val)) >>= fun y => .ok (.setV d y)) := rfl

theorem exec_hsqy : exec (.hsqy d b) s = complete s (affOperandA s (ptIx b) >>= fun q =>
    .ok (.setV d (boolNat (hasSquareY s.curve q)))) := rfl

end Commands

/-- Settles O34: of a root and its negation the selection takes the smaller or the larger, so it never fails. -/
theorem ylowResult : Obligations.YlowResult := by
  intro d a sel s
  obtain ⟨hcurve, hselector, hrun⟩ := selector_checks (exec_ylow d a sel s)
  refine ⟨hcurve, hselector, fun hc hsel => (yRoots_checks (hrun hc hsel)).1, fun hc hsel hx => ?_⟩
  obtain ⟨hnone, hroots⟩ := (yRoots_checks (hrun hc hsel)).2 hx
  refine ⟨hnone, fun r hr => ?_⟩
  have hwrite := selectRoot_writes (hroots r hr) (selectRoot_lowPred (sqrtMod_lt (by omega) hr))
  exact ⟨fun h1 => by rwa [if_pos h1] at hwrite, fun h0 => by rwa [if_neg (by omega)] at hwrite⟩

/-- Settles O33: the checks of the family, then the selection by parity. -/
theorem yoddResult : Obligations.YoddResult := by
  intro d a sel s
  obtain ⟨hcurve, hselector, hrun⟩ := selector_checks (exec_yodd d a sel s)
  refine ⟨hcurve, hselector, fun hc hsel => (yRoots_checks (hrun hc hsel)).1, fun hc hsel hx => ?_⟩
  obtain ⟨hnone, hroots⟩ := (yRoots_checks (hrun hc hsel)).2 hx
  refine ⟨hnone, fun r hr => ?_⟩
  simpa only [decide_eq_true_iff] using selectRoot_outcomes (hroots r hr)

/-- Settles O35: p mod 4 is checked between the selector and x, then the selection is by residuosity. -/
theorem yqrResult : Obligations.YqrResult := by
  intro d a sel s
  obtain ⟨hcurve, hselector, hrun⟩ := selector_checks (exec_yqr d a sel s)
  have hmod4 hc hsel (h4 : s.curve.p % 4 = 3) := yRoots_checks (checked_exec (hrun hc hsel) (require_pos .pMod4 h4))
  refine ⟨hcurve, hselector, fun hc hsel h4 => checked_fails (hrun hc hsel) (require_neg .pMod4 h4),
    fun hc hsel h4 => (hmod4 hc hsel h4).1, fun hc hsel h4 hx => ?_⟩
  obtain ⟨hnone, hroots⟩ := (hmod4 hc hsel h4).2 hx
  refine ⟨hnone, fun r hr => ?_⟩
  simpa only [decide_eq_true_iff, boolNat_eq_iff hsel] using selectRoot_outcomes (hroots r hr)

/-- Settles O36: the checks of R205, then the residuosity of the y of a valid operand. -/
theorem hsqyResult : Obligations.HsqyResult := by
  intro d a s
  obtain ⟨hcurve, hform, hvalue⟩ := affOperandA_fails (exec_hsqy d a s)
  have hwrite {q : AffPoint} (hc : s.curveOk = true) (ha : AffOperand s (ptIx a) q) :
      WritesV (.hsqy d a) s d (boolNat (hasSquareY s.curve q)) :=
    writesV_of (checked_exec (exec_hsqy d a s) (affOperandA_ok hc ha))
  exact ⟨hcurve, hform, hvalue, hwrite, fun x y => hwrite⟩

end Sys2Proof.Proofs

/-! The SEC1 codec (43_codec.md): what each branch of DEC answers (R291), the checks of ENC and the two strings it writes (R292). -/

namespace Sys2Proof.Proofs
open Sys2Proof.Machine Sys2Proof.Laws

/-! The branches of DEC: the empty string, then the leading byte, then the length. -/

section Branches
variable {s : State} {b0 : Byte}

theorem decPoint_empty (hl : s.oblen.toNat = 0) : decPoint s = .error .octetLength :=
  if_pos (BitVec.eq_of_toNat_eq hl)

theorem oblen_ne_zero (hl : s.oblen.toNat ≠ 0) : ¬ s.oblen = 0 := mt (congrArg BitVec.toNat) hl

theorem decPoint_compressed (hl : s.oblen.toNat ≠ 0) (hb : s.obByte 0 = 0x02 ∨ s.obByte 0 = 0x03) :
    decPoint s = decCompressed s (s.obByte 0) :=
  (if_neg (oblen_ne_zero hl)).trans (if_pos hb)

theorem decPoint_uncompressed (hl : s.oblen.toNat ≠ 0) (hb : s.obByte 0 = 0x04) : decPoint s = decUncompressed s := by
  rw [decPoint, if_neg (oblen_ne_zero hl), hb, if_neg (by decide), if_pos rfl]

theorem decPoint_leadingByte (hl : s.oblen.toNat ≠ 0) (h2 : s.obByte 0 ≠ 0x02) (h3 : s.obByte 0 ≠ 0x03)
    (h4 : s.obByte 0 ≠ 0x04) : decPoint s = .error .leadingByte := by
  rw [decPoint, if_neg (oblen_ne_zero hl), if_neg (not_or.2 ⟨h2, h3⟩), if_neg h4]

theorem decCompressed_length (hl : s.oblen.toNat ≠ 1 + s.psize) : decCompressed s b0 = .error .octetLength := by
  rw [decCompressed, require_neg _ hl, bind_error]

theorem decCompressed_roots (hl : s.oblen.toNat = 1 + s.psize) : decCompressed s b0 =
    yRoots s.curve (beNat (s.obSlice 1 s.psize)) >>= fun roots =>
      selectRoot roots (fun r => decide (r % 2 = (b0 &&& 1).toNat)) >>= fun y =>
        .ok (.pt (beNat (s.obSlice 1 s.psize)) y) := by
  rw [decCompressed, require_pos _ hl, bind_ok]
  rfl

theorem decUncompressed_length (hl : s.oblen.toNat ≠ 1 + 2 * s.psize) : decUncompressed s = .error .octetLength := by
  rw [decUncompressed, require_neg _ hl, bind_error]

theorem decUncompressed_eq (hl : s.oblen.toNat = 1 + 2 * s.psize) : decUncompressed s =
    require (onCurveAff s.curve (beNat (s.obSlice 1 s.psize)) (beNat (s.obSlice (1 + s.psize) s.psize)) = true)
      .octetPoint >>= fun _ =>
        .ok (.pt (beNat (s.obSlice 1 s.psize)) (beNat (s.obSlice (1 + s.psize) s.psize))) := by
  rw [decUncompressed, require_pos _ hl, bind_ok]
  rfl

/-- The parity a compressed string asks for: its leading byte is 0x02 for an even y, 0x03 for an odd one. -/
theorem leadingByte_parity (hb : b0 = 0x02 ∨ b0 = 0x03) : (b0 &&& 1).toNat = if b0 = 0x03 then 1 else 0 := by
  rcases hb with rfl | rfl <;> decide

end Branches

/-! How DEC ends, from what its branch answers. -/

section Dec
variable (d : PtField) {s : State}

theorem exec_dec : exec (.dec d) s = complete s (curvePrologue s >>= fun _ =>
    decPoint s >>= fun q => .ok (.setPt (ptIx d) (affReg q))) := rfl

variable (hc : s.curveOk = true)
include hc

theorem exec_dec_point {x : Except CmdError AffPoint} (h : decPoint s = x) :
    exec (.dec d) s = complete s (x >>= fun q => .ok (.setPt (ptIx d) (affReg q))) := by
  rw [checked_exec (exec_dec d) (curvePrologue_ok hc), h]

theorem dec_fails {e : CmdError} (h : decPoint s = .error e) : FailsWith (.dec d) s e.cls.code e.info :=
  failsWith_of (exec_dec_point d hc h)

theorem dec_writes {x y : Nat} (h : decPoint s = .ok (.pt x y)) : WritesPt (.dec d) s (ptIx d) ⟨.aff, x, y, 1⟩ :=
  writesPt_of (exec_dec_point d hc h)

/-- The compressed string of x, from a root at x: the root or its negation, whichever has the parity asked for. -/
theorem dec_selects {x r q odd : Nat} (h : decPoint s = selectRoot (r, q) (fun r => decide (r % 2 = odd)) >>= fun y =>
      .ok (.pt x y)) :
    (r % 2 = odd → WritesPt (.dec d) s (ptIx d) ⟨.aff, x, r, 1⟩) ∧
    (r % 2 ≠ odd → q % 2 = odd → WritesPt (.dec d) s (ptIx d) ⟨.aff, x, q, 1⟩) ∧
    (r % 2 ≠ odd → q % 2 ≠ odd → FailsWith (.dec d) s 4 0x3D) := by
  refine ⟨fun h1 => dec_writes d hc ?_, fun h1 h2 => dec_writes d hc ?_, fun h1 h2 => dec_fails (e := .noRoot) d hc ?_⟩
  · rw [h, selectRoot_first (decide_eq_true h1), bind_ok]
  · rw [h, selectRoot_second (by simpa using h1) (decide_eq_true h2), bind_ok]
  · rw [h, selectRoot_none (by simpa using h1) (by simpa using h2), bind_error]

end Dec

/-- Settles O38: the branch the leading byte names, its length check, and the point of the string. -/
theorem decResult : Obligations.DecResult := by
  intro d s l ps b0 x y
  have hcomp (hb : b0 = 0x02 ∨ b0 = 0x03) (hl : l = 1 + ps) : decPoint s = yRoots s.curve x >>= fun roots =>
      selectRoot roots (fun r => decide (r % 2 = (b0 &&& 1).toNat)) >>= fun y => .ok (.pt x y) :=
    (decPoint_compressed (by omega) hb).trans (decCompressed_roots hl)
  have huncomp (hb : b0 = 0x04) (hl : l = 1 + 2 * ps) :
      decPoint s = require (onCurveAff s.curve x y = true) .octetPoint >>= fun _ => .ok (.pt x y) :=
    (decPoint_uncompressed (by omega) hb).trans (decUncompressed_eq hl)
  refine ⟨fun hc => checked_fails (e := .noCurve) (exec_dec d) (curvePrologue_error hc),
    fun hc hl => dec_fails (e := .octetLength) d hc (decPoint_empty hl),
    fun hc hl h2 h3 h4 => dec_fails (e := .leadingByte) d hc (decPoint_leadingByte hl h2 h3 h4),
    fun hc hl hb hlen => dec_fails (e := .octetLength) d hc
      ((decPoint_compressed hl hb).trans (decCompressed_length hlen)),
    fun hc hb hlen hx => dec_fails (e := .xRange) d hc ?_,
    fun hc hb hlen hx => ⟨fun e he => dec_fails (e := .noY) d hc ?_, fun r hr => dec_selects d hc ?_⟩,
    fun hc hl hb hlen => dec_fails (e := .octetLength) d hc
      ((decPoint_uncompressed hl hb).trans (decUncompressed_length hlen)),
    fun hc hb hlen hoff => dec_fails (e := .octetPoint) d hc ?_, fun hc hb hlen hon => dec_writes d hc ?_⟩
  · rw [hcomp hb hlen, yRoots_xRange hx, bind_error]
  · rw [hcomp hb hlen, yRoots_noSqrt hx he, bind_error]
  · rw [hcomp hb hlen, yRoots_sqrt hx hr, bind_ok, leadingByte_parity hb]
  · rw [huncomp hb hlen, require_neg _ (mt (onCurveAff_iff ..).1 hoff), bind_error]
  · rw [huncomp hb hlen, require_pos _ ((onCurveAff_iff ..).2 hon), bind_ok]

/-! The checks of ENC, in their order: the curve, the form, the selector, infinity, the curve equation. -/

section EncChecks
variable {s : State} {i : Fin 8} {sel : Sel}

theorem encPoint_noCurve (hc : s.curveOk = false) : encPoint s i sel = .error .noCurve := by
  simp [encPoint, curvePrologue_error hc]

variable (hc : s.curveOk = true)
include hc

theorem encPoint_form (hf : ¬ AffForm s i) : encPoint s i sel = .error .formA := by
  simp [encPoint, curvePrologue_ok hc, formAff_bad _ hf]

theorem encPoint_selector (hf : AffForm s i) (hsel : 2 ≤ sel.val) : encPoint s i sel = .error .selector := by
  simp [encPoint, curvePrologue_ok hc, formAff_good _ hf, selectorCheck_error hsel]

theorem encPoint_inf (hsel : sel.val ≤ 1) (hf : (s.getPt i).f = .inf) : encPoint s i sel = .error .encodeInf := by
  simp [encPoint, curvePrologue_ok hc, formAff_good _ (.inl hf), selectorCheck_ok hsel, hf]

theorem encPoint_off (hsel : sel.val ≤ 1) (ha : OffCurve s i) : encPoint s i sel = .error .pointA := by
  obtain ⟨hf, hoff⟩ := ha
  simp [encPoint, curvePrologue_ok hc, formAff_good _ (.inr hf), selectorCheck_ok hsel, hf,
    mt (onCurveAff_iff ..).1 hoff]

theorem encPoint_ok (hsel : sel.val ≤ 1) {x y : Nat} (ha : AffOperand s i (.pt x y)) : encPoint s i sel = .ok (x, y) := by
  obtain ⟨-, hpt⟩ | ⟨hf, hpt, hon⟩ := ha
  · cases hpt
  · cases hpt
    simp [encPoint, curvePrologue_ok hc, formAff_good _ (.inr hf), selectorCheck_ok hsel, hf, (onCurveAff_iff ..).2 hon]

end EncChecks

/-! The strings of ENC. -/

section Strings
variable {k : Nat} {sel : Sel} {x y : Nat}

theorem encBytes_compressed (h : sel.val = 1) : encBytes k sel x y = BitVec.ofNat 8 (2 + y % 2) :: beBytes k x := if_pos h

theorem encBytes_uncompressed (h : sel.val = 0) : encBytes k sel x y = 0x04 :: (beBytes k x ++ beBytes k y) :=
  if_neg (by omega)

theorem compressed_leadingByte (y : Nat) : BitVec.ofNat 8 (2 + y % 2) = if y % 2 = 1 then 0x03 else 0x02 := by
  obtain h | h := Nat.mod_two_eq_zero_or_one y <;> rw [h] <;> rfl

/-- A string of PSIZE bytes holds any coordinate below P in full (R14, R37). -/
theorem beNat_beBytes_psize {s : State} (hx : x < s.curve.p) : beNat (beBytes s.psize x) = x := by
  rw [beNat_beBytes, Nat.mod_eq_of_lt (hx.trans (lt_pow_psize s))]

theorem encBytes_length_le : (encBytes k sel x y).length ≤ 1 + 2 * k := by
  rw [encBytes_length]
  split <;> omega

end Strings

theorem exec_enc (a : PtField) (sel : Sel) (s : State) : exec (.enc a sel) s = complete s
    (encPoint s (ptIx a) sel >>= fun q => .ok (.setOb (encBytes s.psize sel q.1 q.2))) := rfl

theorem enc_writes {a : PtField} {sel : Sel} {s : State} {x y : Nat} (hi : s.Inv) (hc : s.curveOk = true)
    (hsel : sel.val ≤ 1) (ha : AffOperand s (ptIx a) (.pt x y)) : WritesOb (.enc a sel) s (encBytes s.psize sel x y) := by
  have hlen : (encBytes s.psize sel x y).length ≤ 1 + 2 * s.psize := encBytes_length_le
  have hfits := psize_fits hi.legal hi.width
  have hsize := obSize_le hi.legal
  exact writesOb_of hi.ob (by omega) (by omega) (checked_exec (exec_enc a sel s) (encPoint_ok hc hsel ha))

/-- Settles O39: the checks in order, then the string of a valid operand, whose coordinates PSIZE bytes hold in full. -/
theorem encResult : Obligations.EncResult := by
  intro a sel s hi
  have hexec := exec_enc a sel s
  refine ⟨fun hc => checked_fails (e := .noCurve) hexec (encPoint_noCurve hc),
    fun hc hf => checked_fails (e := .formA) hexec (encPoint_form hc hf),
    fun hc hf hsel => checked_fails (e := .selector) hexec (encPoint_selector hc hf hsel),
    fun hc hsel hf => checked_fails (e := .encodeInf) hexec (encPoint_inf hc hsel hf),
    fun hc hsel ha => checked_fails (e := .pointA) hexec (encPoint_off hc hsel ha), fun x y hc ha => ?_⟩
  obtain ⟨hx, hy, -⟩ : OnCurve s.curve x y := affOperand_on ha
  refine ⟨fun h1 => ⟨_, enc_writes hi hc (by omega) ha, ?_⟩, fun h0 => ⟨_, enc_writes hi hc (by omega) ha, ?_⟩⟩
  · refine ⟨by rw [encBytes_length, if_pos h1], ?_⟩
    rw [encBytes_compressed h1]
    exact ⟨compressed_leadingByte y, beNat_beBytes_psize hx⟩
  · refine ⟨by rw [encBytes_length, if_neg (by omega)], ?_⟩
    rw [encBytes_uncompressed h0, Nat.add_comm 1 s.psize, List.drop_succ_cons, List.drop_succ_cons, List.drop_zero,
      List.take_left' (beBytes_length ..), List.drop_left' (beBytes_length ..)]
    exact ⟨rfl, beNat_beBytes_psize hx, beNat_beBytes_psize hy⟩

end Sys2Proof.Proofs

/-! Scalar multiplication (44_scalar.md): what the product of R321 answers case by case, and SMUL. -/

namespace Sys2Proof.Proofs
open Sys2Proof.Machine Sys2Proof.Laws

section ScalarMul
variable {c : CurveBlock} {k : Nat} {q : AffPoint}

theorem scalarMul_inf (h : k = 0 ∨ q = .inf) : scalarMul c k q = .ok .inf := if_pos h

theorem scalarMul_converts (hk : k ≠ 0) (hq : q ≠ .inf) : scalarMul c k q = affOf c (jmul c k q) :=
  if_neg (not_or.2 ⟨hk, hq⟩)

end ScalarMul

theorem exec_smul (d a : PtField) (b : VField) (s : State) :
    exec (.smul d a b) s = complete s (affOperandA s (ptIx a) >>= fun q =>
      scalarMul s.curve (s.getV b % s.curve.n) q >>= fun r => .ok (.setPt (ptIx d) (affReg r))) := rfl

/-- Settles O41: the checks of R205, then the product, whose only error is the conversion's missing inverse. -/
theorem smulResult : Obligations.SmulResult := by
  intro d a b s k
  obtain ⟨hcurve, hform, hvalue⟩ := affOperandA_fails (exec_smul d a b s)
  refine ⟨hcurve, hform, hvalue, fun q hc ha => ?_⟩
  have hrun := checked_exec (exec_smul d a b s) (affOperandA_ok hc ha)
  have hwrite {r : AffPoint} (hr : scalarMul s.curve k q = .ok r) : WritesPt (.smul d a b) s (ptIx d) (affReg r) :=
    writesPt_of (checked_exec hrun hr)
  refine ⟨fun h => hwrite (scalarMul_inf h), fun hk hq r hr => hwrite ?_, fun hk hq e he => ?_⟩
  · exact (scalarMul_converts hk hq).trans hr
  · obtain rfl := affOf_raises he
    exact checked_fails hrun ((scalarMul_converts hk hq).trans he)

end Sys2Proof.Proofs

/-! Error atomicity (60_exceptions.md R345): what the two endings of a command leave alone. -/

namespace Sys2Proof.Proofs
open Sys2Proof.Machine Sys2Proof.Laws

/-- No error class has the code of success (R341), so ERR tells the two endings apart. -/
theorem errClass_code_ne_zero (c : ErrClass) : c.code ≠ 0 := by
  cases c <;> decide

/-! An error completion, and CCHK's success: the two write no field outside STATUS. -/

/-- The states differ in STATUS at most: BUSY, DONE, CURVE_OK, ERR and ERRINFO. -/
def StatusOnly (s t : State) : Prop :=
  t = { s with busy := t.busy, done := t.done, curveOk := t.curveOk, err := t.err, errInfo := t.errInfo }

theorem statusOnly_frame {s t : State} (h : StatusOnly s t) :
    SameContext s t ∧ SameVBut [] s t ∧ SamePtBut [] s t ∧ SameOb s t := by
  rw [h]
  exact ⟨⟨rfl, rfl, rfl, rfl, rfl, rfl, rfl, rfl⟩, fun _ _ => rfl, fun _ _ => rfl, rfl, fun _ => rfl⟩

theorem fail_statusOnly (s : State) (e : CmdError) : StatusOnly s (s.fail e) := rfl

theorem rejectCurve_statusOnly (s : State) (e : CmdError) : StatusOnly s (State.fail { s with curveOk := false } e) := rfl

theorem acceptCurve_statusOnly (s : State) : StatusOnly s (s.succeed .setCurveOk) := rfl

/-! A success of any other command: what the write of its own destination leaves alone. -/

theorem succeed_setOb (s : State) (str : List Byte) :
    ∃ ob n, s.succeed (.setOb str) = State.finish { s with ob := ob, oblen := n } 0 0 := by
  obtain ⟨ob, n, h⟩ := fillOb_frame s str
  exact ⟨ob, n, congrArg (fun t => State.finish t 0 0) h⟩

theorem succeed_sameContext (s : State) (e : Effect) : SameContext s (s.succeed e) := by
  cases e with
  | setV d x => exact ⟨rfl, rfl, rfl, rfl, rfl, rfl, rfl, rfl⟩
  | setPt d q => exact ⟨rfl, rfl, rfl, rfl, rfl, rfl, rfl, rfl⟩
  | setOb str =>
    obtain ⟨ob, n, h⟩ := succeed_setOb s str
    rw [h]
    exact ⟨rfl, rfl, rfl, rfl, rfl, rfl, rfl, rfl⟩
  | setCurveOk => exact (statusOnly_frame (acceptCurve_statusOnly s)).1

section Fits
variable {i : Instr} {e : Effect} (s : State) (hf : Fits i e)
include hf

theorem succeed_sameV : SameVBut (vDest i) s (s.succeed e) := by
  intro j hj
  cases e with
  | setV d x =>
    have hd : vDest i = [d] := hf
    exact getV_setV_ne s d j x (by simpa [hd] using hj)
  | setPt d q => rfl
  | setOb str =>
    obtain ⟨ob, n, h⟩ := succeed_setOb s str
    rw [h]
    rfl
  | setCurveOk => exact absurd hf id

theorem succeed_samePt : SamePtBut (ptDest i) s (s.succeed e) := by
  intro j hj
  cases e with
  | setV d x => rfl
  | setPt d q =>
    have hd : ptDest i = [d] := hf
    exact getPt_setPt_ne s d j q (by simpa [hd] using hj)
  | setOb str =>
    obtain ⟨ob, n, h⟩ := succeed_setOb s str
    rw [h]
    rfl
  | setCurveOk => exact absurd hf id

theorem succeed_sameOb (hi : mnemonicOf i ≠ "ENC") : SameOb s (s.succeed e) := by
  cases e with
  | setV d x => exact ⟨rfl, fun _ => rfl⟩
  | setPt d q => exact ⟨rfl, fun _ => rfl⟩
  | setOb str => exact absurd hf hi
  | setCurveOk => exact absurd hf id

/-- Only CCHK's write is of CURVE_OK, and it is no command's own destination. -/
theorem fits_ne_setCurveOk : e ≠ .setCurveOk := by
  rintro rfl
  exact hf

end Fits

/-- Settles O9, by the four endings of a command: its own write or error, or CCHK's success or error. -/
theorem errorAtomicity : Obligations.ErrorAtomicity := by
  intro i s t h
  cases exec_endsIn h with
  | writes e hi hf =>
    have hcurve : (s.succeed e).curveOk = if i = .cchk then true else s.curveOk :=
      (succeed_curveOk s (fits_ne_setCurveOk hf)).trans (if_neg hi).symm
    exact ⟨rfl, rfl, succeed_sameContext s e, fun herr => absurd rfl herr,
      fun _ => ⟨rfl, succeed_sameV s hf, succeed_samePt s hf, succeed_sameOb s hf, hcurve⟩⟩
  | raises e hi hr =>
    obtain ⟨hctx, hv, hpt, hob⟩ := statusOnly_frame (fail_statusOnly s e)
    exact ⟨rfl, rfl, hctx, fun _ => ⟨hv, hpt, hob, (if_neg hi).symm⟩,
      fun herr => absurd herr (errClass_code_ne_zero e.cls)⟩
  | accepts hi hc =>
    subst hi
    obtain ⟨hctx, hv, hpt, hob⟩ := statusOnly_frame (acceptCurve_statusOnly s)
    exact ⟨rfl, rfl, hctx, fun herr => absurd rfl herr, fun _ => ⟨rfl, hv, hpt, fun _ => hob, rfl⟩⟩
  | rejects e hi hc =>
    subst hi
    obtain ⟨hctx, hv, hpt, hob⟩ := statusOnly_frame (rejectCurve_statusOnly s e)
    exact ⟨rfl, rfl, hctx, fun _ => ⟨hv, hpt, hob, rfl⟩, fun herr => absurd herr (errClass_code_ne_zero e.cls)⟩

end Sys2Proof.Proofs

/-! Reset (70_reset_and_hazards.md R370 to R372): the registers of the reset state, the words of the window it reads as, and the one state both resets end in. -/

namespace Sys2Proof.Proofs
open Sys2Proof.Machine Sys2Proof.Laws

/-! The registers of the reset state (10_state.md R47). -/

section ResetState

variable (c : Config)

@[simp] theorem resetFor_getV (i : Fin 16) : (State.resetFor c).getV i = 0 :=
  Vector.getElem_replicate i.isLt

@[simp] theorem resetFor_getPt (i : Fin 8) : (State.resetFor c).getPt i = PtReg.zero :=
  Vector.getElem_replicate i.isLt

@[simp] theorem resetFor_obByte (j : Nat) : (State.resetFor c).obByte j = 0 :=
  ite_self 0

/-- Every W-bit register is 0. -/
theorem resetFor_slot (k : Slot) : (State.resetFor c).slot k = 0 := by
  cases k with
  | curve r => cases r <;> rfl
  | v i => exact resetFor_getV c i
  | pt i k =>
    rw [State.slot, resetFor_getPt]
    cases k <;> rfl

/-! The words of the reset state. -/

/-- Every word of a register of value 0 reads 0, implemented or not (20_memory.md R83). -/
theorem bigWord_zero (s : State) (q : Nat) : s.bigWord 0 q = 0 := by
  unfold State.bigWord
  split
  · rw [Nat.zero_div, BitVec.ofNat_eq_ofNat]
  · rfl

theorem resetFor_readSlot (k : Slot) (q : Nat) : (State.resetFor c).readTarget (slotTarget k q) = 0 := by
  rw [slot_read, resetFor_slot, bigWord_zero]

theorem resetFor_ctrlWord : (State.resetFor c).ctrlWord = 0 := by
  simp only [State.ctrlWord, State.resetFor]
  rfl

theorem resetFor_statusWord : (State.resetFor c).statusWord = 0 := by
  simp only [State.statusWord, State.resetFor]
  rfl

/-- P is 0, so its byte length is 0 (10_state.md R37). -/
theorem resetFor_psize : (State.resetFor c).psize = 0 := by
  simp [State.psize, State.resetFor, bitlen]

theorem resetFor_curvecfgWord : (State.resetFor c).curvecfgWord = 0 := by
  have hweak : (State.resetFor c).weak = false := rfl
  rw [State.curvecfgWord, resetFor_psize, hweak]
  rfl

theorem resetFor_obWord (q : Nat) : (State.resetFor c).obWord q = 0 := by
  simp only [State.obWord, resetFor_obByte]
  rfl

/-- Every form is INF, whose code is 0 (10_state.md R38). -/
theorem resetFor_ptfWord : (State.resetFor c).ptfWord = 0 := by
  simp only [State.ptfWord, resetFor_getPt]
  rfl

/-- In the reset state every target but ID and HWCFG reads 0 (R372). -/
theorem resetFor_readTarget {t : Target} (hid : t ≠ .id) (hhw : t ≠ .hwcfg) : (State.resetFor c).readTarget t = 0 := by
  cases t with
  | id => exact absurd rfl hid
  | hwcfg => exact absurd rfl hhw
  | ctrl => exact resetFor_ctrlWord c
  | status => exact resetFor_statusWord c
  | curvecfg => exact resetFor_curvecfgWord c
  | cmd | oblen | reserved => rfl
  | ptf => exact resetFor_ptfWord c
  | curve r q => exact resetFor_readSlot c (.curve r) q
  | v i q => exact resetFor_readSlot c (.v i) q
  | pt i k q => exact resetFor_readSlot c (.pt i k) q
  | ob q => exact resetFor_obWord c q

end ResetState

/-- No read depends on the accesses still to come or on the last answer. -/
theorem readTarget_withAnswer (s : State) (as : List Event) (r : Option BusResp) (t : Target) :
    State.readTarget { s with agenda := as, resp := r } t = s.readTarget t := by
  cases t <;> rfl

/-- From 0x008 up no offset names ID or HWCFG (20_memory.md R82). -/
theorem targetOf_not_constant {off : Nat} (h : 0x008 ≤ off) : targetOf off ≠ .id ∧ targetOf off ≠ .hwcfg := by
  unfold targetOf
  split
  case isTrue hlow =>
    have hk : 2 ≤ off / 4 ∧ off / 4 < 8 := by omega
    generalize off / 4 = k at hk
    obtain ⟨h2, h8⟩ := hk
    interval_cases k <;> decide
  case isFalse => split_ifs <;> simp

/-- Both resets end in the reset state of the configuration, with the accesses still to come and some answer (R370, R371). -/
theorem reset_endsIn {s t : State} (hl : Config.Legal s.cfg)
    (h : t = s.powerOn ∨ ∃ w : Word32, w.getLsbD 0 = true ∧ t = s.busAccess (hostWrite s.cfg 0x008 w)) :
    ∃ r, t = { State.resetFor s.cfg with agenda := s.agenda, resp := r } := by
  obtain rfl | ⟨w, hw, rfl⟩ := h
  · exact ⟨none, rfl⟩
  · rw [hostWrite_ctrl s w hl, writeCtrl_reset s hw]
    exact ⟨some .writeDone, rfl⟩

/-- Settles O46: both resets end in the reset state, where every register is 0 and so is every word but ID and HWCFG. -/
theorem resetErasesEverything : Obligations.ResetErasesEverything := by
  intro s t hl h
  obtain ⟨r, rfl⟩ := reset_endsIn hl h
  refine ⟨rfl, rfl, rfl, rfl, resetFor_getV s.cfg, resetFor_getPt s.cfg, resetFor_obByte s.cfg, ?_⟩
  intro off hoff h4 h0 h1
  obtain ⟨hid, hhw⟩ := targetOf_not_constant (off := off) (by omega)
  have hread := readsAs_idle { State.resetFor s.cfg with agenda := s.agenda, resp := r } hl rfl hoff h4
  rwa [readTarget_withAnswer, resetFor_readTarget s.cfg hid hhw] at hread

end Sys2Proof.Proofs

/-! The round trip of the command word (30_encoding.md R121, R126, R131): the fields of a well-formed command fit its opcode's row, and the fields that fit a row are those of the command built from them. -/

namespace Sys2Proof.Proofs
open Sys2Proof.Machine Sys2Proof.Laws

/-- The row of R126 a command belongs to. -/
def opcodeOfInstr : Instr → Opcode
  | .madd _ _ _ _ => .madd
  | .msub _ _ _ _ => .msub
  | .mmul _ _ _ _ => .mmul
  | .minv _ _ _ => .minv
  | .mexp _ _ _ _ => .mexp
  | .msqrt _ _ _ => .msqrt
  | .mred _ _ _ => .mred
  | .cchk => .cchk
  | .oncrv _ _ => .oncrv
  | .padd _ _ _ => .padd
  | .pneg _ _ => .pneg
  | .jadd _ _ _ => .jadd
  | .jdbl _ _ => .jdbl
  | .j2a _ _ => .j2a
  | .a2j _ _ => .a2j
  | .j2x _ _ => .j2x
  | .yodd _ _ _ => .yodd
  | .ylow _ _ _ => .ylow
  | .yqr _ _ _ => .yqr
  | .hsqy _ _ => .hsqy
  | .dec _ => .dec
  | .enc _ _ => .enc
  | .smul _ _ _ => .smul

/-- Reading a command's own fields gives the command back, whatever its operands hold. -/
theorem buildInstr_fieldsOf (i : Instr) : buildInstr (opcodeOfInstr i) (fieldsOf i) = i := by
  cases i <;> simp [opcodeOfInstr, buildInstr, fieldsOf, modOf_bit, regOf_regBits, selOf_selBits]

/-- A PT field names one of PT0 to PT7 exactly when the 4 bits it is written in are below 8 (R122). -/
theorem ptOk_iff_regBits_lt (f : PtField) : PtField.ok f = true ↔ (regBits f).toNat < 8 := by revert f; decide

theorem ptOk_regOf_iff_lt (b : BitVec 4) : PtField.ok (regOf b) = true ↔ b.toNat < 8 := by revert b; decide

/-- The fields of a well-formed command pass every check of its row (R128). -/
theorem fieldsOf_fit (i : Instr) (h : i.wellFormed = true) : FieldsFit (opcodeOfInstr i).row (fieldsOf i) := by
  cases i <;> simp_all [FieldsFit, ReservedSet, PtHigh, opcodeOfInstr, fieldsOf, Opcode.row,
    Instr.wellFormed, ptOk_iff_regBits_lt]

/-- Settles O2: the fields of the word are the command's own, they fit its row, and its row's command is read from them. -/
theorem decodeOfEncode : Obligations.DecodeOfEncode := by
  intro i hwf
  rw [decode_ok_iff, encode, unpack_pack]
  exact ⟨opcodeOfInstr i, fieldsOf_fit i hwf, (buildInstr_fieldsOf i).symm⟩

/-- Fields with every PT field below 8 build a well-formed command (R122). -/
theorem buildInstr_wellFormed (o : Opcode) (f : Fields) (h : ¬ PtHigh o.row f) : (buildInstr o f).wellFormed = true := by
  cases o <;> simp_all [PtHigh, Opcode.row, buildInstr, Instr.wellFormed, ptOk_regOf_iff_lt]

/-- Fields that fit a row are the fields of the command built from them: what the command does not hold is 0. -/
theorem fieldsOf_buildInstr (o : Opcode) (f : Fields) (h : FieldsFit o.row f) : fieldsOf (buildInstr o f) = f := by
  obtain ⟨opc, d, a, b, sel, m, rsv⟩ := f
  obtain ⟨hopc, hres, -⟩ := h
  cases o <;> simp_all [ReservedSet, Opcode.row, buildInstr, fieldsOf, regBits_regOf, selBits_selOf, bit_modOf]

/-- Settles O3: the fields of a word that decodes fit a row, and are those of the command built from them. -/
theorem encodeOfDecode : Obligations.EncodeOfDecode := by
  intro w i hdec
  obtain ⟨o, hfit, rfl⟩ := (decode_ok_iff w i).1 hdec
  have ⟨_, _, hpt⟩ := hfit
  refine ⟨buildInstr_wellFormed o _ hpt, ?_⟩
  rw [encode, fieldsOf_buildInstr o _ hfit, pack_unpack]

/-- Settles O1: each of the nine words is computed. -/
theorem decodeExamples : Obligations.DecodeExamples := by
  unfold Obligations.DecodeExamples
  decide +kernel

end Sys2Proof.Proofs

/-! The invariant (Safety.lean): the reset state meets it (10_state.md R47), and every step keeps it, the engine's completion (70_reset_and_hazards.md R377), a host access (20_memory.md R81 to R89) and a power-on reset alike. -/

namespace Sys2Proof.Proofs
open Sys2Proof.Machine Sys2Proof.Laws

/-! The invariant field by field: what it asks of a state that keeps the other fields of one that meets it. -/

/-- Other flags: STATUS must be legal and CURVE_OK sound, and the rest is free. -/
theorem inv_withFlags {s : State} (h : s.Inv) {ie busy done busywr curveOk weak : Bool} {err : BitVec 4} {errInfo : Byte}
    {cmdLast : Word32} {oblen : BitVec 16} {agenda : List Event} {resp : Option BusResp}
    (hresult : (err, errInfo) ∈ resultPairs) (hflight : busy = true → done = false ∧ err = 0 ∧ errInfo = 0)
    (hcurve : curveOk = true → checkCurve s.curve weak = .ok ()) : State.Inv { s with
      ie := ie, busy := busy, done := done, busywr := busywr, curveOk := curveOk, weak := weak, err := err,
      errInfo := errInfo, cmdLast := cmdLast, oblen := oblen, agenda := agenda, resp := resp } :=
  ⟨h.legal, ⟨h.width.v, h.width.pt, h.width.curve⟩, ⟨h.ob.form, h.ob.size⟩, ⟨hresult, hflight⟩, hcurve⟩

/-- CTRL.IE, BUSYWR, OBLEN, the events to come and the last answer are free. -/
theorem inv_withFreeFields {s : State} (h : s.Inv) {ie busywr : Bool} {oblen : BitVec 16} {agenda : List Event}
    {resp : Option BusResp} :
    State.Inv { s with ie := ie, busywr := busywr, oblen := oblen, agenda := agenda, resp := resp } :=
  inv_withFlags h h.status.result h.status.inFlight h.curveOk

/-- Other V and point registers: they must hold W-bit values (00_scope.md R10). -/
theorem inv_withRegisters {s : State} (h : s.Inv) {v : Vector Nat 16} {pt : Vector PtReg 8}
    (hw : State.WidthOk { s with v := v, pt := pt }) : State.Inv { s with v := v, pt := pt } :=
  ⟨h.legal, hw, ⟨h.ob.form, h.ob.size⟩, ⟨h.status.result, h.status.inFlight⟩, h.curveOk⟩

/-- Another octet buffer: it must be canonical and inside OBSIZE (R43). -/
theorem inv_withOb {s : State} (h : s.Inv) {ob : Memory} (hob : State.ObOk { s with ob := ob }) :
    State.Inv { s with ob := ob } :=
  ⟨h.legal, ⟨h.width.v, h.width.pt, h.width.curve⟩, hob, ⟨h.status.result, h.status.inFlight⟩, h.curveOk⟩

/-! Reset (R47). -/

theorem resetFor_inv (c : Config) (hl : Config.Legal c) : (State.resetFor c).Inv where
  legal := hl
  width := by
    have hpos : 0 < 2 ^ c.width := by positivity
    refine ⟨fun i => ?_, fun i k => ?_, fun r => ?_⟩
    · rwa [resetFor_getV]
    · rw [resetFor_getPt]
      cases k <;> exact hpos
    · cases r <;> exact hpos
  ob := ⟨memory_reset_wf, fun c hc => absurd hc List.not_mem_nil⟩
  status := ⟨List.mem_cons_self, fun hb => absurd hb Bool.false_ne_true⟩
  curveOk := fun hc => absurd hc Bool.false_ne_true

/-- Settles O59: every register is 0, and CURVE_OK with it. -/
theorem resetMeetsInv : Obligations.ResetMeetsInv :=
  ⟨resetFor_inv Config.reference (by decide), resetFor_inv⟩

theorem resetRegisters_inv {s : State} (h : s.Inv) : s.resetRegisters.Inv :=
  inv_withFreeFields (resetFor_inv s.cfg h.legal)

theorem powerOn_inv {s : State} (h : s.Inv) : s.powerOn.Inv :=
  inv_withFreeFields (resetRegisters_inv h)

/-! The completion step (R377). -/

/-- A completion leaves a row of R342 in ERR and ERRINFO and keeps the rest of the invariant. -/
theorem finish_inv {s : State} (h : s.Inv) {err : BitVec 4} {info : Byte} (hr : (err, info) ∈ resultPairs) :
    (s.finish err info).Inv :=
  inv_withFlags h hr (fun hb => absurd hb Bool.false_ne_true) h.curveOk

theorem fail_inv {s : State} (h : s.Inv) (e : CmdError) : (s.fail e).Inv := finish_inv h (cmdError_pairs e)

theorem setCurveOk_inv {s : State} (h : s.Inv) (b : Bool) (hb : b = true → checkCurve s.curve s.weak = .ok ()) :
    State.Inv { s with curveOk := b } :=
  inv_withFlags h h.status.result h.status.inFlight hb

theorem setV_inv {s : State} (h : s.Inv) (d : Fin 16) {x : Nat} (hx : x < 2 ^ s.cfg.width) : (s.setV d x).Inv :=
  inv_withRegisters h (setV_widthOk h.width d x hx)

theorem setPt_inv {s : State} (h : s.Inv) (d : Fin 8) {q : PtReg} (hq : ∀ k, q.get k < 2 ^ s.cfg.width) :
    (s.setPt d q).Inv :=
  inv_withRegisters h (setPt_widthOk h.width d q hq)

theorem fillOb_inv {s : State} (h : s.Inv) {str : List Byte} (hlen : str.length ≤ s.cfg.obSize) : (s.fillOb str).Inv := by
  have hsize := obSize_le h.legal
  obtain ⟨hob, hframe, -, -⟩ := fillOb_spec s str h.ob hlen (by omega)
  rw [hframe] at hob ⊢
  exact inv_withFreeFields (inv_withOb h ⟨hob.form, hob.size⟩)

/-- The collected write keeps the invariant when its values fit, and CURVE_OK is set over an accepted curve only. -/
theorem apply_inv {s : State} (h : s.Inv) {e : Effect} (hb : Bounded s.cfg e)
    (hc : e = .setCurveOk → checkCurve s.curve s.weak = .ok ()) : (s.apply e).Inv := by
  cases e with
  | setV d x => exact setV_inv h d hb
  | setPt d q => exact setPt_inv h d hb
  | setOb str => exact fillOb_inv h hb
  | setCurveOk => exact setCurveOk_inv h true fun _ => hc rfl

theorem succeed_inv {s : State} (h : s.Inv) {e : Effect} (hb : Bounded s.cfg e)
    (hc : e = .setCurveOk → checkCurve s.curve s.weak = .ok ()) : (s.succeed e).Inv :=
  finish_inv (apply_inv h hb hc) (by decide)

/-- No command but CCHK moves CURVE_OK (R48). -/
theorem exec_curveOk {i : Instr} {s t : State} (hi : i ≠ .cchk) (h : exec i s = .next t) : t.curveOk = s.curveOk := by
  cases exec_endsIn h with
  | writes e _ hf => exact succeed_curveOk s (fits_ne_setCurveOk hf)
  | raises e _ _ => rfl
  | accepts heq _ => exact absurd heq hi
  | rejects e heq _ => exact absurd heq hi

theorem exec_inv {i : Instr} {s t : State} (h : s.Inv) (hexec : exec i s = .next t) : t.Inv := by
  by_cases hi : i = .cchk
  · subst hi
    cases exec_endsIn hexec with
    | writes e hne _ => exact absurd rfl hne
    | raises e hne _ => exact absurd rfl hne
    | accepts _ hc => exact succeed_inv h trivial fun _ => hc
    | rejects e _ _ => exact fail_inv (setCurveOk_inv h false fun hb => absurd hb Bool.false_ne_true) e
  · obtain ⟨r, hcomplete, hbounded⟩ := exec_bounded i s h.legal h.width h.curveOk hi
    have hcurve := exec_curveOk hi hexec
    rw [hcomplete] at hexec
    cases r with
    | error e => cases hexec; exact fail_inv h e
    | ok e =>
      cases hexec
      refine succeed_inv h (hbounded e rfl) ?_
      rintro rfl
      exact h.curveOk hcurve.symm

theorem engineTurn_inv {s t : State} (h : s.Inv) (hturn : engineTurn s = .next t) : t.Inv := by
  unfold engineTurn engineStep at hturn
  split at hturn
  · split at hturn
    · exact exec_inv h hturn
    · cases hturn
      exact fail_inv h _
  · cases hturn
    exact h

/-! A host access (20_memory.md R81 to R89). -/

theorem accept_inv {s : State} (h : s.Inv) (w : Word32) : (s.accept w).Inv :=
  inv_withFlags h List.mem_cons_self (fun _ => ⟨rfl, rfl, rfl⟩) h.curveOk

theorem writeStatus_inv {s : State} (h : s.Inv) (w : Word32) : (s.writeStatus w).Inv := by
  refine inv_withFlags h h.status.result (fun hb => ?_) h.curveOk
  obtain ⟨hdone, herr⟩ := h.status.inFlight hb
  exact ⟨by simp [hdone], herr⟩

theorem writeCtrl_inv {s : State} (h : s.Inv) (w : Word32) : (s.writeCtrl w).Inv := by
  unfold State.writeCtrl
  split
  · exact resetRegisters_inv h
  · exact inv_withFreeFields h

theorem writePtf_inv {s : State} (h : s.Inv) (w : Word32) : (s.writePtf w).Inv := by
  obtain ⟨pt, hpt, hreg⟩ := writePtf_spec s w
  rw [hpt]
  refine inv_withRegisters h ⟨h.width.v, fun i k => ?_, h.width.curve⟩
  obtain ⟨-, hx, hy, hz⟩ := hreg i
  have hk : (pt.get i).get k = (s.getPt i).get k := by cases k <;> assumption
  exact lt_of_eq_of_lt hk (h.width.pt i k)

theorem writeCurvecfg_inv {s : State} (h : s.Inv) (w : Word32) : (s.writeCurvecfg w).Inv :=
  inv_withFlags h h.status.result h.status.inFlight fun hc => absurd hc Bool.false_ne_true

theorem writeObWord_inv {s : State} (h : s.Inv) (q : Nat) (w : Word32) : (s.writeObWord q w).Inv := by
  have hob := writeObWord_obOk s q w h.ob
  rw [writeObWord_frame] at hob ⊢
  exact inv_withOb h hob

/-- A W-bit value put in a slot leaves every slot at a W-bit value. -/
theorem putSlot_widthOk {s : State} (h : s.WidthOk) (k : Slot) {x : Nat} (hx : x < 2 ^ s.cfg.width) :
    (putSlot s k x).WidthOk := by
  have hslot (k' : Slot) : (putSlot s k x).slot k' < 2 ^ (putSlot s k x).cfg.width := by
    have hcfg : (putSlot s k x).cfg = s.cfg := by cases k <;> rfl
    rw [hcfg]
    by_cases hk : k' = k
    · rw [hk, putSlot_same]
      exact hx
    · rw [putSlot_ne s k k' x hk]
      exact slot_lt h k'
  exact ⟨fun i => hslot (.v i), fun i c => hslot (.pt i c), fun r => hslot (.curve r)⟩

theorem putSlot_inv {s : State} (h : s.Inv) (k : Slot) {x : Nat} (hx : x < 2 ^ s.cfg.width) : (putSlot s k x).Inv := by
  have hw := putSlot_widthOk h.width k hx
  cases k with
  | curve r => exact ⟨h.legal, hw, ⟨h.ob.form, h.ob.size⟩, ⟨h.status.result, h.status.inFlight⟩,
      fun hc => absurd hc Bool.false_ne_true⟩
  | v i | pt i c => exact inv_withRegisters h hw

/-- A word written to a slot keeps the invariant, implemented or not (R83). -/
theorem writeSlot_inv {s : State} (h : s.Inv) (k : Slot) (q : Nat) (w : Word32) :
    (s.writeTarget (slotTarget k q) w).Inv := by
  by_cases hq : q < s.cfg.nw
  · have hx := slot_lt h.width k
    rw [slot_write s k q w hq]
    refine putSlot_inv h k ?_
    rw [width_eq h.legal] at hx ⊢
    exact replaceWord_lt w hx hq
  · rwa [slot_write_out s k q w hq]

theorem writeTarget_inv {s : State} (h : s.Inv) (t : Target) (w : Word32) : (s.writeTarget t w).Inv := by
  cases t with
  | id | hwcfg | reserved => exact h
  | ctrl => exact writeCtrl_inv h w
  | status => exact writeStatus_inv h w
  | cmd => exact accept_inv h w
  | oblen => exact inv_withFreeFields h
  | ptf => exact writePtf_inv h w
  | curvecfg => exact writeCurvecfg_inv h w
  | curve r q => exact writeSlot_inv h (.curve r) q w
  | v i q => exact writeSlot_inv h (.v i) q w
  | pt i c q => exact writeSlot_inv h (.pt i c) q w
  | ob q => exact writeObWord_inv h q w

theorem busAccess_inv {s : State} (h : s.Inv) (a : Access) : (s.busAccess a).Inv :=
  busAccess_preserves (P := State.Inv) (fun _ _ ht => inv_withFreeFields ht)
    (fun _ ht => inv_withFreeFields ht) h (writeTarget_inv h) a

/-- Settles O60: each of the three kinds of step keeps the invariant. -/
theorem stepKeepsInv : Obligations.StepKeepsInv := by
  intro s t h hstep
  have hagenda (rest : List Event) : State.Inv { s with agenda := rest } := inv_withFreeFields h
  rcases step_cases hstep with ⟨rest, hturn⟩ | ⟨rest, a, rfl⟩ | ⟨rest, rfl⟩
  · exact engineTurn_inv (hagenda rest) hturn
  · exact busAccess_inv (hagenda rest) a
  · exact powerOn_inv (hagenda rest)

end Sys2Proof.Proofs

/-! The completion step (60_exceptions.md R340, R342; 70_reset_and_hazards.md R377): a step runs the decoded command, which ends in success or in an error of its own; a word that encodes no command ends in ILLEGAL. -/

namespace Sys2Proof.Proofs
open Sys2Proof.Machine Sys2Proof.Laws

/-! Every command completes (R340). -/

theorem exec_completes (i : Instr) (s : State) : ∃ t, exec i s = .next t := by
  by_cases hi : i = .cchk
  · subst hi
    rcases exec_cchk s with ⟨-, hexec⟩ | ⟨e, -, hexec⟩
    · exact ⟨_, hexec⟩
    · exact ⟨_, hexec⟩
  · obtain ⟨r, hexec, -⟩ := exec_shaped i s hi
    rw [hexec]
    cases r with
    | ok e => exact ⟨_, rfl⟩
    | error e => exact ⟨_, rfl⟩

/-- Every error of CCHK's checks is one R342 gives CCHK. -/
theorem checkCurve_raisedBy {c : CurveBlock} {weak : Bool} {e : CmdError} (h : checkCurve c weak = .error e) :
    (e.cls.code, e.info) ∈ raisedBy .cchk := by
  rcases checkCurve_raises h with rfl | rfl | rfl | rfl | rfl | rfl <;> simp only [raisedBy] <;> decide

/-- Settles O8, by the four endings of a command. -/
theorem everyCommandCompletes : Obligations.EveryCommandCompletes := by
  intro i s
  obtain ⟨t, hexec⟩ := exec_completes i s
  refine ⟨t, hexec, ?_⟩
  cases exec_endsIn hexec with
  | writes e _ _ => exact ⟨rfl, rfl, List.mem_cons_self⟩
  | raises e _ hr => exact ⟨rfl, rfl, List.mem_cons_of_mem _ hr⟩
  | accepts _ _ => exact ⟨rfl, rfl, List.mem_cons_self⟩
  | rejects e hi hc =>
    subst hi
    exact ⟨rfl, rfl, List.mem_cons_of_mem _ (checkCurve_raisedBy hc)⟩

/-- Settles O10: each curve command's first check is of CURVE_OK. -/
theorem curveCommandsNeedCurveOk : Obligations.CurveCommandsNeedCurveOk := by
  intro i s hneeds hc
  have hfails {α : Type} {x : Except CmdError α} {k : α → Except CmdError Effect}
      (hexec : exec i s = complete s (x >>= k)) (hx : x = .error .noCurve) : FailsWith i s 2 0x10 :=
    checked_fails hexec hx
  cases i with
  | madd | msub | mmul | minv | mexp | msqrt | mred | cchk => exact absurd hneeds Bool.false_ne_true
  | oncrv d a => exact hfails rfl (curvePrologue_error hc)
  | padd d a b => exact hfails (exec_padd d a b s) (affOperands_noCurve hc)
  | pneg d a => exact hfails (exec_pneg d a s) (affOperandA_noCurve hc)
  | jadd d a b => exact hfails (exec_jadd d a b s) (jacOperands_noCurve hc)
  | jdbl d a => exact hfails (exec_jdbl d a s) (jacOperandA_noCurve hc)
  | j2a d a => exact hfails (exec_j2a d a s) (jacOperandA_noCurve hc)
  | a2j d a => exact hfails (exec_a2j d a s) (affOperandA_noCurve hc)
  | j2x d a => exact hfails (exec_j2x a d s) (jacOperandA_noCurve hc)
  | yodd d a sel => exact hfails (exec_yodd d a sel s) (curvePrologue_error hc)
  | ylow d a sel => exact hfails (exec_ylow d a sel s) (curvePrologue_error hc)
  | yqr d a sel => exact hfails (exec_yqr d a sel s) (curvePrologue_error hc)
  | hsqy d a => exact hfails (exec_hsqy d a s) (affOperandA_noCurve hc)
  | dec d => exact hfails (exec_dec d) (curvePrologue_error hc)
  | enc a sel => exact hfails (exec_enc a sel s) (encPoint_noCurve hc)
  | smul d a b => exact hfails (exec_smul d a b s) (affOperandA_noCurve hc)

/-! The step (R377). -/

theorem engineStep_ok {s : State} {i : Instr} (h : decode s.cmdLast = .ok i) : engineStep s = exec i s := by
  rw [engineStep, h]

theorem engineStep_illegal {s : State} {why : Illegal} (h : decode s.cmdLast = .error why) :
    engineStep s = .next (s.fail (.illegal why)) := by
  rw [engineStep, h]

theorem engineTurn_busy {s : State} {i : Instr} (hb : s.busy = true) (h : decode s.cmdLast = .ok i) :
    engineTurn s = exec i s := by
  rw [engineTurn, if_pos hb, engineStep_ok h]

theorem engineTurn_idle {s : State} (hb : s.busy = false) : engineTurn s = .next s := by
  rw [engineTurn, if_neg (by simp [hb])]

theorem step_empty {s : State} (h : s.agenda = []) : step s = engineTurn s := by
  rw [step, h]

theorem step_completion {s : State} {rest : List Event} (h : s.agenda = .completion :: rest) :
    step s = engineTurn { s with agenda := rest } := by
  rw [step, h]

theorem step_access {s : State} {rest : List Event} {a : Access} (h : s.agenda = .access a :: rest) :
    step s = .next (State.busAccess { s with agenda := rest } a) := by
  rw [step, h]

theorem step_powerOn {s : State} {rest : List Event} (h : s.agenda = .powerOnReset :: rest) :
    step s = .next (State.powerOn { s with agenda := rest }) := by
  rw [step, h]

theorem withFetchWord_eq (s : State) (w : Word32) :
    s.withFetchWord 32 w.toNat = { s.accept w with agenda := completesNext s.agenda } := by
  rw [State.withFetchWord, Nat.mod_eq_of_lt w.isLt, BitVec.ofNat_toNat, BitVec.setWidth_eq]

/-- The next step after `withFetchWord` is the engine's turn on the accepted word, with the events to come as they were. -/
theorem step_withFetchWord (s : State) (w : Word32) : step (s.withFetchWord 32 w.toNat) = engineTurn (s.accept w) := by
  rw [withFetchWord_eq]
  cases ha : s.agenda with
  | nil =>
    rw [step_empty rfl, completesNext, ← ha]
    rfl
  | cons e rest =>
    rw [step_completion rfl, ← ha]
    rfl

/-- Settles O6: the five cases of the agenda's head. -/
theorem stepRunsDecodedCommand : Obligations.StepRunsDecodedCommand := by
  refine ⟨fun s rest i hb hdec => ⟨fun ha => ?_, fun ha => ?_⟩, fun s w i hdec => ?_,
    fun s rest hb => ⟨fun ha => ?_, fun ha => ?_⟩, fun s rest a => step_access, fun s rest => step_powerOn⟩
  · exact (step_completion ha).trans (engineTurn_busy (s := { s with agenda := rest }) hb hdec)
  · exact (step_empty ha).trans (engineTurn_busy hb hdec)
  · exact (step_withFetchWord s w).trans (engineTurn_busy (s := s.accept w) rfl hdec)
  · exact (step_completion ha).trans (engineTurn_idle (s := { s with agenda := rest }) hb)
  · exact (step_empty ha).trans (engineTurn_idle hb)

/-- An error completion writes STATUS only, whatever raised it (R345). -/
theorem onlyFails_fail {o : Host.Outcome State Fault Refusal} {s : State} {e : CmdError} (h : o = .next (s.fail e)) :
    OnlyFails o s e.cls.code e.info := by
  obtain ⟨hctx, hv, hpt, hob⟩ := statusOnly_frame (fail_statusOnly s e)
  exact ⟨_, h, ⟨rfl, rfl, rfl, rfl⟩, hctx, rfl, hv, hpt, hob⟩

/-- Settles O7: the error completion with ILLEGAL and the detail of the check that failed. -/
theorem illegalWordCompletes : Obligations.IllegalWordCompletes := by
  intro s why h
  have hfail := onlyFails_fail (engineStep_illegal h)
  cases why <;> exact hfail

end Sys2Proof.Proofs

/-! The remaining control registers and the reserved space on the bus: STATUS (10_state.md R36), CMD (R39), PTF (R38), CURVECFG (R37) and the reserved offsets (20_memory.md R85). -/

namespace Sys2Proof.Proofs
open Sys2Proof.Machine Sys2Proof.Laws

/-! STATUS and CMD. -/

theorem statusWord_toNat (s : State) : s.statusWord.toNat = s.busy.toNat + 2 * s.done.toNat + 4 * s.busywr.toNat
    + 8 * s.curveOk.toNat + 2 ^ 8 * s.err.toNat + 2 ^ 16 * s.errInfo.toNat := by
  simp only [State.statusWord, toNat_append_eq, BitVec.toNat_ofBool, BitVec.toNat_ofNat]
  omega

/-- Settles O44: STATUS is read and written at all times, and its fields stand at their places. -/
theorem statusRegister : Obligations.StatusRegister := by
  intro s hl
  exact ⟨⟨s.statusWord, readsAs_low s (off := 0x00C) hl (by decide) rfl, statusWord_toNat s⟩,
    fun w => hostWrite_low s (off := 0x00C) w hl (by decide) rfl⟩

/-- Settles O49: CMD is read at all times, and a write to it is an acceptance while idle and dropped while busy. -/
theorem commandAcceptance : Obligations.CommandAcceptance := by
  intro s w hl
  exact ⟨readsAs_low s (off := 0x010) hl (by decide) rfl,
    fun hb => hostWrite_idle s (off := 0x010) w hl hb (by decide) rfl, hostWrite_cmd_busy s w hl⟩

/-! Reserved space (R85). -/

theorem writeIgnored_reserved_idle (s : State) {off : Nat} (w : Word32) (hl : Config.Legal s.cfg) (hb : s.busy = false)
    (h : off < 0x2000) (h4 : off % 4 = 0) (ht : targetOf off = .reserved) : WriteIgnored s off w := by
  rw [WriteIgnored, hostWrite_idle s w hl hb h h4, ht]
  rfl

theorem readsAs_reserved_idle (s : State) {off : Nat} (hl : Config.Legal s.cfg) (hb : s.busy = false)
    (h : off < 0x2000) (h4 : off % 4 = 0) (ht : targetOf off = .reserved) : ReadsAs s off 0 := by
  have hread := readsAs_idle s hl hb h h4
  rwa [ht] at hread

/-- Settles O54: the low range is never hidden, the two others are reserved targets while idle. -/
theorem reservedSpace : Obligations.ReservedSpace := by
  intro s off w hl h4 h
  rcases h with ⟨h1, h2⟩ | ⟨hb, hrange⟩
  · exact ⟨readsAs_reserved_low s hl h1 h2 h4, writeIgnored_reserved_low s w hl h1 h2 h4⟩
  · have ht : targetOf off = .reserved := targetOf_reserved (.inr (hrange.imp_right And.left))
    have hoff : off < 0x2000 := by omega
    exact ⟨readsAs_reserved_idle s hl hb hoff h4 ht, writeIgnored_reserved_idle s w hl hb hoff h4 ht⟩

/-! CURVECFG and PSIZE (R37). -/

theorem two_pow_bitlen_pred_le {x : Nat} (h : x ≠ 0) : 2 ^ (bitlen x - 1) ≤ x := by
  rw [bitlen, if_neg h, Nat.add_sub_cancel]
  exact Nat.log2_self_le h

theorem psize_le {s : State} (hl : Config.Legal s.cfg) (hw : s.WidthOk) : s.psize ≤ 128 := by
  have hbits := bitlen_le s.curve.p s.cfg.width (hw.curve .p)
  obtain ⟨-, -, hmax, -⟩ := hl
  unfold State.psize
  omega

/-- P needs all its PSIZE bytes (R37). -/
theorem pow_psize_pred_le {s : State} (h : s.curve.p ≠ 0) : 256 ^ (s.psize - 1) ≤ s.curve.p := by
  refine le_trans ?_ (two_pow_bitlen_pred_le h)
  rw [show (256 : Nat) = 2 ^ 8 by norm_num, ← pow_mul]
  refine Nat.pow_le_pow_right (by norm_num) ?_
  unfold State.psize
  omega

theorem psize_zero {s : State} (h : s.curve.p = 0) : s.psize = 0 := by
  rw [State.psize, h]
  rfl

theorem curvecfgWord_toNat {s : State} (h : s.psize ≤ 128) :
    s.curvecfgWord.toNat = s.weak.toNat + 2 ^ 16 * s.psize := by
  have hsize : s.psize % 2 ^ 8 = s.psize := Nat.mod_eq_of_lt (by omega)
  simp only [State.curvecfgWord, toNat_append_eq, BitVec.toNat_ofBool, BitVec.toNat_ofNat, hsize]
  omega

/-- Settles O48: PSIZE is the least number of bytes that holds P, and fits its field. -/
theorem curvecfgRegister : Obligations.CurvecfgRegister := by
  intro s hl hw hb
  have hsize := psize_le hl hw
  exact ⟨⟨s.curvecfgWord, readsAs_idle s (off := 0x01C) hl hb (by decide) rfl, curvecfgWord_toNat hsize⟩, hsize,
    lt_pow_psize s, pow_psize_pred_le, psize_zero, fun w => hostWrite_idle s (off := 0x01C) w hl hb (by decide) rfl⟩

/-! PTF (R38). -/

/-- A form code placed at bit 2i shows at bits 2i and 2i + 1 only. -/
theorem formField_getLsbD (c : BitVec 2) {i n : Nat} (hi : i < 16) :
    (c.zeroExtend 32 <<< (2 * i)).getLsbD n = (decide (n / 2 = i) && c.getLsbD (n % 2)) := by
  rw [BitVec.getLsbD_shiftLeft, BitVec.zeroExtend, BitVec.getLsbD_setWidth]
  by_cases h : n / 2 = i
  · have h1 : n < 32 ∧ ¬ n < 2 * i ∧ n % 2 < 32 ∧ n - 2 * i = n % 2 := by omega
    simp [h, h1]
  · by_cases hlow : n < 2 * i
    · simp [h, hlow]
    · simp [h, BitVec.getLsbD_of_ge c (n - 2 * i) (by omega)]

theorem mem_ptIndices (i : Fin 8) : i ∈ ptIndices := by revert i; decide

/-- Bit n of PTF is bit n mod 2 of the form of PT[n / 2]. -/
theorem ptfWord_getLsbD (s : State) (n : Nat) : s.ptfWord.getLsbD n =
    ptIndices.any (fun i => decide (n / 2 = i.val) && (s.getPt i).f.code.getLsbD (n % 2)) := by
  have hfold (l : List (Fin 8)) (w : Word32) :
      (l.foldl (fun w i => w ||| ((s.getPt i).f.code.zeroExtend 32 <<< (2 * i.val))) w).getLsbD n =
        (w.getLsbD n || l.any (fun i => decide (n / 2 = i.val) && (s.getPt i).f.code.getLsbD (n % 2))) := by
    induction l generalizing w with
    | nil => simp
    | cons i l ih =>
      rw [List.foldl_cons, ih, BitVec.getLsbD_or, formField_getLsbD _ (by omega), List.any_cons, Bool.or_assoc]
  exact (hfold ptIndices 0).trans (by simp)

theorem ptfWord_form (s : State) (i : Fin 8) : s.ptfWord.extractLsb' (2 * i.val) 2 = (s.getPt i).f.code := by
  apply BitVec.eq_of_getLsbD_eq
  intro j hj
  have hdiv : (2 * i.val + j) / 2 = i.val := by omega
  have hmod : (2 * i.val + j) % 2 = j := by omega
  rw [BitVec.getLsbD_extractLsb', ptfWord_getLsbD, hdiv, hmod]
  cases hbit : (s.getPt i).f.code.getLsbD j with
  | true => simpa [hj] using ⟨i, mem_ptIndices i, rfl, hbit⟩
  | false =>
    simp only [hj, decide_true, Bool.true_and, List.any_eq_false]
    intro k _
    by_cases hk : i.val = k.val
    · simp [← Fin.ext hk, hbit]
    · simp [hk]

theorem ptfWord_high (s : State) : s.ptfWord.extractLsb' 16 16 = 0 := by
  apply BitVec.eq_of_getLsbD_eq
  intro j hj
  rw [BitVec.getLsbD_extractLsb', ptfWord_getLsbD]
  have hk (k : Fin 8) : ¬ (16 + j) / 2 = k.val := by omega
  simp [hk]

/-- Settles O47: PTF is read form by form, and `write_ptf` sets the eight forms and no coordinate. -/
theorem ptfRegister : Obligations.PtfRegister := by
  intro s hl hb
  refine ⟨⟨s.ptfWord, readsAs_idle s (off := 0x018) hl hb (by decide) rfl, ptfWord_form s, ptfWord_high s⟩, fun w => ?_⟩
  obtain ⟨pt, hframe, hreg⟩ := writePtf_spec s w
  refine ⟨pt, ?_, fun i => ?_⟩
  · rw [hostWrite_idle s (off := 0x018) w hl hb (by decide) rfl]
    exact congrArg (fun t : State => { t with resp := some .writeDone }) hframe
  · obtain ⟨hf, hcoords⟩ := hreg i
    exact ⟨by rw [hf, code_ofCode], hcoords⟩

end Sys2Proof.Proofs

/-! Loading a W-bit register word by word (20_memory.md R83, 30_encoding.md R135): a run of word writes to one slot puts one value there, the value whose written words are the new ones. -/

namespace Sys2Proof.Proofs
open Sys2Proof.Machine Sys2Proof.Laws

/-! A value put over another. -/

/-- A slot holding x, the last access answered with an accepted write. -/
def loaded (s : State) (k : Slot) (x : Nat) : State := { putSlot s k x with resp := some .writeDone }

theorem curvePut_put (c : CurveBlock) (r : CurveReg) (x y : Nat) : (c.put r x).put r y = c.put r y := by
  cases r <;> rfl

theorem ptRegPut_put (q : PtReg) (c : Coord) (x y : Nat) : (q.put c x).put c y = q.put c y := by
  cases c <;> rfl

theorem setV_setV (s : State) (i : Fin 16) (x y : Nat) : (s.setV i x).setV i y = s.setV i y := by
  simp [State.setV]

theorem setPt_setPt (s : State) (i : Fin 8) (p q : PtReg) : (s.setPt i p).setPt i q = s.setPt i q := by
  simp [State.setPt]

theorem putSlot_putSlot (s : State) (k : Slot) (x y : Nat) : putSlot (putSlot s k x) k y = putSlot s k y := by
  cases k with
  | curve r => simp only [putSlot, curvePut_put]
  | v i => exact setV_setV s i x y
  | pt i c => simp only [putSlot, getPt_setPt_same, ptRegPut_put, setPt_setPt]

theorem putSlot_withAnswer (s : State) (r : Option BusResp) (k : Slot) (x : Nat) :
    putSlot { s with resp := r } k x = { putSlot s k x with resp := r } := by
  cases k <;> rfl

theorem loaded_loaded (s : State) (k : Slot) (x y : Nat) : loaded (loaded s k x) k y = loaded s k y := by
  simp only [loaded, putSlot_withAnswer, putSlot_putSlot]

section Loaded
variable (s : State) (k : Slot) (x : Nat)

theorem loaded_cfg : (loaded s k x).cfg = s.cfg := by cases k <;> rfl

theorem loaded_busy : (loaded s k x).busy = s.busy := by cases k <;> rfl

theorem loaded_slot : (loaded s k x).slot k = x := (put_word_slot ..).trans (putSlot_same s k x)

theorem loaded_slot_ne {k' : Slot} (h : k' ≠ k) : (loaded s k x).slot k' = s.slot k' :=
  (put_word_slot ..).trans (putSlot_ne s k k' x h)

theorem loaded_form (i : Fin 8) : ((loaded s k x).getPt i).f = (s.getPt i).f := putSlot_form s k x i

theorem loaded_frame : loaded s k x = { s with
    v := (loaded s k x).v, pt := (loaded s k x).pt, curve := (loaded s k x).curve, curveOk := (loaded s k x).curveOk,
    resp := some .writeDone } :=
  congrArg (fun t : State => { t with resp := some .writeDone }) (putSlot_frame s k x)

theorem loaded_widthOk (h : s.WidthOk) (hx : x < 2 ^ s.cfg.width) : (loaded s k x).WidthOk := by
  have hput := putSlot_widthOk h k hx
  exact ⟨hput.v, hput.pt, hput.curve⟩

end Loaded

/-! The run of writes (R135). -/

/-- A first write and the ones after it load one value: x in the words written, the old value in the others. -/
theorem writes_load (k : Slot) (x : Nat) (qs : List Nat) : ∀ (s : State) (q : Nat), Config.Legal s.cfg → s.busy = false →
    (∀ j ∈ q :: qs, j < s.cfg.nw) →
      ∃ y, s.busAccesses ((q :: qs).map (hostWriteWord s.cfg k.offset x)) = loaded s k y ∧
        ∀ j, wordOf y j = if j ∈ q :: qs then wordOf x j else wordOf (s.slot k) j := by
  induction qs with
  | nil =>
    intro s q hl hb hq
    refine ⟨_, host_slot s k q (wordOf x q) hl hb (hq q List.mem_cons_self), fun j => ?_⟩
    simp only [replaceWord_word, List.mem_singleton]
    split
    · rw [‹j = q›]
    · rfl
  | cons q' qs ih =>
    intro s q hl hb hq
    have hfirst : s.busAccess (hostWriteWord s.cfg k.offset x q) = loaded s k (replaceWord (s.slot k) q (wordOf x q)) :=
      host_slot s k q (wordOf x q) hl hb (hq q List.mem_cons_self)
    obtain ⟨y, hrun, hwords⟩ := ih (loaded s k (replaceWord (s.slot k) q (wordOf x q))) q'
      (by rwa [loaded_cfg]) (by rwa [loaded_busy])
      (fun j hj => by rw [loaded_cfg]; exact hq j (List.mem_cons_of_mem _ hj))
    rw [loaded_cfg, loaded_loaded] at hrun
    refine ⟨y, ?_, fun j => ?_⟩
    · rw [List.map_cons, State.busAccesses, List.foldl_cons, hfirst]
      exact hrun
    · rw [hwords, loaded_slot, replaceWord_word]
      by_cases hj : j ∈ q' :: qs
      · rw [if_pos hj, if_pos (List.mem_cons_of_mem _ hj)]
      · by_cases hjq : j = q
        · rw [if_neg hj, if_pos hjq, if_pos (List.mem_cons.2 (.inl hjq)), hjq]
        · rw [if_neg hj, if_neg hjq, if_neg (mt List.mem_cons.1 (not_or.2 ⟨hjq, hj⟩))]

/-- The words of a W-bit value at NW and above are 0. -/
theorem wordOf_out {c : Config} (hl : Config.Legal c) {x j : Nat} (hx : x < 2 ^ c.width) (hj : c.nw ≤ j) : wordOf x j = 0 := by
  rw [width_eq hl] at hx
  rw [wordOf, Nat.div_eq_of_lt (hx.trans_le (Nat.pow_le_pow_right (by norm_num) (by omega)))]
  rfl

theorem nw_pos {c : Config} (hl : Config.Legal c) : 0 < c.nw := by
  obtain ⟨-, hmin, -⟩ := hl
  exact Nat.div_pos hmin (by norm_num)

/-- The NW writes of a W-bit value, in any order, load it (R83, R135). -/
theorem writes_load_value {s : State} (k : Slot) {x : Nat} {order : List Nat} (hl : Config.Legal s.cfg) (hw : s.WidthOk)
    (hb : s.busy = false) (hx : x < 2 ^ s.cfg.width) (hperm : order.Perm (List.range s.cfg.nw)) :
    s.busAccesses (order.map (hostWriteWord s.cfg k.offset x)) = loaded s k x := by
  have hmem (j : Nat) : j ∈ order ↔ j < s.cfg.nw := hperm.mem_iff.trans List.mem_range
  cases order with
  | nil => exact absurd ((hmem 0).2 (nw_pos hl)) List.not_mem_nil
  | cons q qs =>
    obtain ⟨y, hrun, hwords⟩ := writes_load k x qs s q hl hb fun j => (hmem j).1
    have hy : y = x := eq_of_words fun j => by
      rw [hwords]
      by_cases hj : j < s.cfg.nw
      · rw [if_pos ((hmem j).2 hj)]
      · rw [if_neg (mt (hmem j).1 hj), wordOf_out hl (slot_lt hw k) (by omega), wordOf_out hl hx (by omega)]
    rw [hrun, hy]

/-- The NW reads of a slot change the answer alone, which ends at the most significant word (R89, R135). -/
theorem readBig_frame {s : State} {c : Config} (k : Slot) (hc : s.cfg = c) (hl : Config.Legal c) (hb : s.busy = false) :
    s.busAccesses (hostReadBig c k.offset) = { s with resp := some (.readData (wordOf (s.slot k) (c.nw - 1))) } := by
  subst hc
  have hpos := nw_pos hl
  rw [hostReadBig, (slot_reads k _ s hl hb fun q hq => List.mem_range.1 hq).2, List.getLast?_range, if_neg (by omega)]
  rfl

/-- Settles O51: the writes load the value, and the reads are those of the state they leave. -/
theorem bigRegisterLoad : Obligations.BigRegisterLoad := by
  intro s k x order hl hw hb hx hperm
  have hcfg := loaded_cfg s k x
  have hlt : Config.Legal (loaded s k x).cfg := by rwa [hcfg]
  have hbt : (loaded s k x).busy = false := by rwa [loaded_busy]
  have hvalue := readBig_value k hlt (loaded_widthOk s k x hw hx) hbt
  have hreads := readBig_frame k hcfg hl hbt
  rw [hcfg, loaded_slot] at hvalue
  rw [loaded_slot] at hreads
  simp only [writes_load_value k hl hw hb hx hperm]
  refine ⟨loaded_slot s k x, fun k' hk => loaded_slot_ne s k x hk, loaded_form s k x, loaded_frame s k x, ?_, hvalue,
    hreads⟩
  cases k <;> rfl

end Sys2Proof.Proofs

/-! The commands in the curve's group over an odd prime (41_curve_group.md, 44_scalar.md): PADD, the Jacobian commands and SMUL compute in Mathlib's group, the Jacobian sum normalises to the affine one (R209), the valid operands of a checked curve are its points (R200, R201), and CCHK accepts N when N·G is the identity (R202). -/

namespace Sys2Proof.Proofs
open Sys2Proof.Machine Sys2Proof.Laws

/-! The group commands. -/

/-- Settles O28: the value of PADD is aff_add's, which adds in the group. -/
theorem paddIsGroupAddition : Obligations.PaddIsGroupAddition := by
  intro d a b s q1 q2 g1 g2 _ h3 hc ha hb hd1 hd2
  obtain ⟨q, hq, hd⟩ := affAdd_denotes h3 hd1 hd2
  exact ⟨q, hd, writesPt_of (checked_exec (checked_exec (exec_padd d a b s) (affOperands_ok hc ha hb)) hq)⟩

/-- Settles O29: each command writes the value of its curve helper, which computes in the group. -/
theorem jacobianCommandsCompute : Obligations.JacobianCommandsCompute := by
  intro d a b s _ h3 hc
  refine ⟨fun t1 t2 g1 g2 ha hb hd1 hd2 => ?_, fun t g ha hd => ?_, fun t g ha hd => ?_, fun q g ha hd => ?_⟩
  · exact ⟨jadd s.curve t1 t2, jadd_denotes h3 hd1 hd2,
      writesPt_of (checked_exec (exec_jadd d a b s) (jacOperands_ok hc ha hb))⟩
  · exact ⟨jdbl s.curve t, jdbl_denotes h3 hd, writesPt_of (checked_exec (exec_jdbl d a s) (jacOperandA_ok hc ha))⟩
  · obtain ⟨q, hq, hdq⟩ := affOf_denotes hd
    exact ⟨q, hdq, writesPt_of (checked_exec (checked_exec (exec_j2a d a s) (jacOperandA_ok hc ha)) hq)⟩
  · exact ⟨jacOf q, jacOf_denotes h3 hd, writesPt_of (checked_exec (exec_a2j d a s) (affOperandA_ok hc ha))⟩

/-- The product of R321 is the multiple in the group, INF for k = 0 and for INF among them. -/
theorem scalarMul_denotes {c : CurveBlock} [Fact c.p.Prime] (h3 : 3 ≤ c.p) (k : Nat) {q : AffPoint}
    {g : c.overField.Point} (hd : q.Denotes c g) : ∃ r, scalarMul c k q = .ok r ∧ r.Denotes c (k • g) := by
  by_cases hk : k = 0
  · subst hk
    exact ⟨.inf, scalarMul_inf (.inl rfl), zero_nsmul g⟩
  · by_cases hq : q = .inf
    · subst hq
      have hg : g = 0 := hd
      refine ⟨.inf, scalarMul_inf (.inr rfl), ?_⟩
      rw [hg]
      exact nsmul_zero k
    · rw [scalarMul_converts hk hq]
      exact affOf_denotes (jmul_denotes h3 k hd)

/-- Settles O42: the value of SMUL is the product of R321 with the scalar reduced. -/
theorem smulIsScalarMultiple : Obligations.SmulIsScalarMultiple := by
  intro d a b s q g _ h3 hc ha hd
  obtain ⟨r, hr, hdr⟩ := scalarMul_denotes h3 (s.getV b % s.curve.n) hd
  exact ⟨r, hdr, writesPt_of (checked_exec (checked_exec (exec_smul d a b s) (affOperandA_ok hc ha)) hr)⟩

/-! CCHK and the group (R202). -/

theorem checkCurve_ok_iff (c : CurveBlock) : checkCurve c false = .ok () ↔
    ¬ (c.p % 2 = 0 ∨ c.p < 3) ∧ ¬ (c.p ≤ c.a ∨ c.p ≤ c.b ∨ c.p ≤ c.gx ∨ c.p ≤ c.gy) ∧ NonSingular c ∧
      OnCurve c c.gx c.gy ∧ ¬ (c.n % 2 = 0 ∨ c.n < 3) ∧ (jmul c c.n (.pt c.gx c.gy)).z = 0 := by
  simp only [checkCurve, bind_eq_ok, require_eq_ok, exists_const, onCurveAff_iff, true_and, NonSingular]

/-- The discriminant of the engine's curve is -16 times the number CCHK tests. -/
theorem overField_Δ (c : CurveBlock) :
    c.overField.Δ = -16 * ((4 * c.a ^ 3 + 27 * c.b ^ 2 : Nat) : ZMod c.p) := by
  simp only [CurveBlock.overField, WeierstrassCurve.Δ, WeierstrassCurve.b₂, WeierstrassCurve.b₄,
    WeierstrassCurve.b₆, WeierstrassCurve.b₈]
  push_cast
  ring

theorem overField_Δ_ne_zero {c : CurveBlock} [Fact c.p.Prime] (h3 : 3 ≤ c.p) (h : NonSingular c) : c.overField.Δ ≠ 0 := by
  have h2 := two_ne_zero_of_odd h3
  have h16 : (-16 : ZMod c.p) ≠ 0 := by
    rw [show (-16 : ZMod c.p) = -(2 ^ 4) by norm_num]
    exact neg_ne_zero.2 (pow_ne_zero 4 h2)
  rw [overField_Δ]
  refine mul_ne_zero h16 ?_
  rw [Ne, ZMod.natCast_eq_zero_iff]
  exact fun hdvd => h (Nat.mod_eq_zero_of_dvd hdvd)

/-- Over a non-singular curve every solution of the equation is a point of the group. -/
theorem nonsingular_of_equation {c : CurveBlock} [Fact c.p.Prime] (h3 : 3 ≤ c.p) (hns : NonSingular c) {x y : ZMod c.p}
    (h : y ^ 2 = x ^ 3 + c.a * x + c.b) : c.overField.Nonsingular x y := by
  refine (WeierstrassCurve.Affine.equation_iff_nonsingular_of_Δ_ne_zero (overField_Δ_ne_zero h3 hns)).1 ?_
  rw [WeierstrassCurve.Affine.equation_iff]
  simp only [CurveBlock.overField]
  linear_combination h

theorem equation_of_nonsingular {c : CurveBlock} {x y : ZMod c.p} (h : c.overField.Nonsingular x y) :
    y ^ 2 = x ^ 3 + c.a * x + c.b := by
  have heq := (WeierstrassCurve.Affine.equation_iff ..).1 h.1
  simp only [CurveBlock.overField] at heq
  linear_combination heq

/-- The curve equation of a pair below p, over the field. -/
theorem onCurve_iff_field (c : CurveBlock) (x y : Nat) : OnCurve c x y ↔
    x < c.p ∧ y < c.p ∧ (y : ZMod c.p) ^ 2 = (x : ZMod c.p) ^ 3 + c.a * x + c.b := by
  rw [OnCurve, ← ZMod.natCast_eq_natCast_iff']
  push_cast
  rfl

/-- The pairs on a non-singular curve are exactly the affine values that stand for a point (R200). -/
theorem onCurve_iff_denotes {c : CurveBlock} [Fact c.p.Prime] (h3 : 3 ≤ c.p) (hns : NonSingular c) (x y : Nat) :
    OnCurve c x y ↔ ∃ g, (AffPoint.pt x y).Denotes c g := by
  rw [onCurve_iff_field]
  constructor
  · rintro ⟨hx, hy, heq⟩
    exact ⟨_, hx, hy, nonsingular_of_equation h3 hns heq, rfl⟩
  · rintro ⟨g, hx, hy, h, -⟩
    exact ⟨hx, hy, equation_of_nonsingular h⟩

/-! The points that values stand for. -/

section Denotes
variable {c : CurveBlock}

theorem affDenotes_unique {q : AffPoint} {g g' : c.overField.Point} (h : q.Denotes c g) (h' : q.Denotes c g') : g = g' := by
  cases q with
  | inf => exact Eq.trans h (Eq.symm h')
  | pt x y =>
    obtain ⟨-, -, _, rfl⟩ := h
    obtain ⟨-, -, _, rfl⟩ := h'
    rfl

variable [Fact c.p.Prime] {t : JacPoint}

theorem jacDenotes_unique {g g' : c.overField.Point} (h : t.Denotes c g) (h' : t.Denotes c g') : g = g' := by
  obtain ⟨-, -, -, h⟩ := h
  obtain ⟨-, -, -, h'⟩ := h'
  split at h
  · rw [if_pos ‹_›] at h'
    exact Eq.trans h (Eq.symm h')
  · rw [if_neg ‹_›] at h'
    obtain ⟨_, rfl⟩ := h
    obtain ⟨_, rfl⟩ := h'
    rfl

/-- A triple stands for the identity exactly when Z = 0 (00_scope.md R17). -/
theorem jacDenotes_zero {g : c.overField.Point} (h : t.Denotes c g) : t.z = 0 ↔ g = 0 := by
  obtain ⟨-, -, -, h⟩ := h
  split at h
  · exact ⟨fun _ => h, fun _ => ‹_›⟩
  · obtain ⟨hns, rfl⟩ := h
    exact ⟨fun hz => absurd hz ‹_›, fun hg => absurd hg (WeierstrassCurve.Affine.Point.some_ne_zero hns)⟩

variable (h3 : 3 ≤ c.p) (hns : NonSingular c)
include h3 hns

theorem affOn_denotes {q : AffPoint} (h : q.On c) : ∃ g, q.Denotes c g := by
  cases q with
  | inf => exact ⟨_, rfl⟩
  | pt x y => exact (onCurve_iff_denotes h3 hns x y).1 h

theorem jacOn_denotes (h : OnCurveJac c t) : ∃ g, t.Denotes c g := by
  obtain ⟨hx, hy, hz, heq⟩ := h
  by_cases h0 : t.z = 0
  · exact ⟨.zero, hx, hy, hz, by rw [if_pos h0]⟩
  · have hz0 : (t.z : ZMod c.p) ≠ 0 := by rwa [Ne, natCast_zero_iff hz]
    have hfield := (ZMod.natCast_eq_natCast_iff' _ _ c.p).2 (heq h0)
    push_cast at hfield
    have hpoint : ((t.y : ZMod c.p) / t.z ^ 3) ^ 2 = ((t.x : ZMod c.p) / t.z ^ 2) ^ 3 + c.a * (t.x / t.z ^ 2) + c.b := by
      field_simp
      linear_combination hfield
    exact ⟨_, jacPoint_denotes_mk hx hy hz h0 ⟨nonsingular_of_equation h3 hns hpoint, rfl⟩⟩

end Denotes

/-- A checked curve is over an odd P and, with WEAK = 0, non-singular (R202). -/
theorem checked_nonSingular {s : State} (hi : s.Inv) (hc : s.curveOk = true) (hw : s.weak = false) :
    3 ≤ s.curve.p ∧ NonSingular s.curve := by
  have hcheck := hi.curveOk hc
  rw [hw, checkCurve_ok_iff] at hcheck
  obtain ⟨hp, -, hns, -⟩ := hcheck
  exact ⟨by omega, hns⟩

/-- Settles O32: N·G is the identity exactly when the loop of R320 ends at Z = 0. -/
theorem cchkChecksOrder : Obligations.CchkChecksOrder := by
  intro s hp h3 hw
  obtain ⟨t, hexec, -, -, -, -, -, -, hreport⟩ := exec_cchk_report s
  refine ⟨t, hexec, ?_⟩
  have hodd : s.curve.p % 2 = 1 := hp.out.eq_two_or_odd.resolve_left (by omega)
  have hcurve : t.curveOk = true ↔ checkCurve s.curve false = .ok () := by
    have hfst : t.curveOk = (checkReport (checkCurve s.curve false)).1 := by
      rw [← hw]
      exact congrArg Prod.fst hreport
    rw [hfst]
    cases checkCurve s.curve false <;> simp [checkReport]
  rw [hcurve, checkCurve_ok_iff]
  constructor
  · rintro ⟨-, hrange, hns, hon, hn, hz⟩
    obtain ⟨g, hg⟩ := (onCurve_iff_denotes h3 hns _ _).1 hon
    exact ⟨by omega, by omega, hns, by omega, by omega, g, hg, (jacDenotes_zero (jmul_denotes h3 _ hg)).1 hz⟩
  · rintro ⟨ha, hb, hns, hn, hn3, g, hg, hz⟩
    have hon := (onCurve_iff_denotes h3 hns _ _).2 ⟨g, hg⟩
    have ⟨hgx, hgy, _⟩ := hon
    exact ⟨by omega, by omega, hns, hon, by omega, (jacDenotes_zero (jmul_denotes h3 _ hg)).2 hz⟩

/-! ONCRV as a test (R210). -/

section Oncrv
variable {d : VField} {a : PtField} {s : State} (hc : s.curveOk = true)
include hc

theorem oncrv_writes_one {q : AffPoint} (ha : AffOperand s (ptIx a) q) : WritesV (.oncrv d a) s d 1 := by
  obtain ⟨hinf, hpair, -, -, -⟩ := oncrvResult d a s
  rcases ha with ⟨hf, -⟩ | ⟨hf, -, hon⟩
  · exact hinf hc hf
  · exact hpair hc hf hon

/-- Only an affine operand is answered with 1: another pair gets 0, another form an error. -/
theorem oncrv_one_operand (hw : WritesV (.oncrv d a) s d 1) : ∃ q, AffOperand s (ptIx a) q := by
  obtain ⟨t, hexec, hdone, hval, -⟩ := hw
  obtain ⟨-, -, hoff, hform, -⟩ := oncrvResult d a s
  by_cases hf : AffForm s (ptIx a)
  · rcases hf with hf | hf
    · exact ⟨.inf, .inl ⟨hf, rfl⟩⟩
    · by_cases hon : OnCurve s.curve (s.getPt (ptIx a)).x (s.getPt (ptIx a)).y
      · exact ⟨_, .inr ⟨hf, rfl, hon⟩⟩
      · obtain ⟨t', hexec', -, hval', -⟩ := hoff hc ⟨hf, hon⟩
        cases hexec.symm.trans hexec'
        cases hval.symm.trans hval'
  · obtain ⟨t', hexec', hdone', -⟩ := hform hc hf
    cases hexec.symm.trans hexec'
    cases hdone.err.symm.trans hdone'.err

end Oncrv

/-! The operands of a checked curve (R200, R201). -/

/-- Settles O31: the equation of each operand form is the curve's, and ONCRV tests it. -/
theorem validPointsDenote : Obligations.ValidPointsDenote := by
  intro s a hp hi hc hw
  obtain ⟨h3, hns⟩ := checked_nonSingular hi hc hw
  refine ⟨fun q ha => ?_, fun t ha => ?_, fun d => ⟨fun hwrite => ?_, fun ⟨q, g, ha, hd⟩ => ?_⟩⟩
  · obtain ⟨g, hg⟩ := affOn_denotes h3 hns (affOperand_on ha)
    exact ⟨g, hg, fun g' hg' => affDenotes_unique hg' hg⟩
  · obtain ⟨-, -, hon⟩ := ha
    obtain ⟨g, hg⟩ := jacOn_denotes h3 hns hon
    exact ⟨g, hg, fun g' hg' => jacDenotes_unique hg' hg⟩
  · obtain ⟨q, ha⟩ := oncrv_one_operand hc hwrite
    obtain ⟨g, hg⟩ := affOn_denotes h3 hns (affOperand_on ha)
    exact ⟨q, g, ha, hg⟩
  · exact oncrv_writes_one hc ha

end Sys2Proof.Proofs

/-! The Jacobian sum normalised (the last sentence of 41_curve_group.md R209). Over an odd prime both sides are the third point of one line, by the exact expressions of R207, R208 and R209; so the curve may be singular. -/

namespace Sys2Proof.Proofs
open Sys2Proof.Machine Sys2Proof.Laws

section Line
variable {c : CurveBlock} [hp : Fact c.p.Prime]

/-- The common end of R207 as a field expression: the pair below p on the line of slope l through (x1, y1), with the sum
of its x and the two others l². -/
def IsLineThird (c : CurveBlock) (l : ZMod c.p) (x1 y1 x2 : Nat) : AffPoint → Prop
  | .inf => False
  | .pt x y => x < c.p ∧ y < c.p ∧ (x : ZMod c.p) = l ^ 2 - x1 - x2 ∧ (y : ZMod c.p) = l * (x1 - (l ^ 2 - x1 - x2)) - y1

theorem isLineThird_unique {l : ZMod c.p} {x1 y1 x2 : Nat} {q q' : AffPoint} (h : IsLineThird c l x1 y1 x2 q)
    (h' : IsLineThird c l x1 y1 x2 q') : q = q' := by
  cases q with
  | inf => exact h.elim
  | pt x y =>
    cases q' with
    | inf => exact h'.elim
    | pt x' y' =>
      obtain ⟨hx, hy, ex, ey⟩ := h
      obtain ⟨hx', hy', ex', ey'⟩ := h'
      rw [(natCast_inj hx hx').1 (ex.trans ex'.symm), (natCast_inj hy hy').1 (ey.trans ey'.symm)]

theorem lineThird_isLineThird {lam : Nat} {l : ZMod c.p} (h : (lam : ZMod c.p) = l) (x1 y1 x2 : Nat) :
    IsLineThird c l x1 y1 x2 (lineThird c lam x1 y1 x2) := by
  refine ⟨red_lt _ _ hp.out.pos, red_lt _ _ hp.out.pos, ?_, ?_⟩
  · rw [red_field]
    push_cast
    rw [h]
    ring
  · push_cast [red_field]
    rw [h]
    ring

/-! The affine sum (R207). -/

theorem affAdd_chord {x1 y1 x2 y2 : Nat} (hx : (x2 : ZMod c.p) - x1 ≠ 0) :
    ∃ q, affAdd c (.pt x1 y1) (.pt x2 y2) = .ok q ∧ IsLineThird c ((y2 - y1) / (x2 - x1)) x1 y1 x2 q := by
  have hne : ¬ x1 = x2 := by
    rintro rfl
    exact hx (sub_self _)
  obtain ⟨di, hinv, -, hdi⟩ := invMod_field (c := c) (red c.p ((x2 : Int) - x1)) (by push_cast [red_field]; exact hx)
  refine ⟨_, by rw [affAdd, if_neg hne, hinv]; rfl, lineThird_isLineThird ?_ ..⟩
  push_cast [red_field] at hdi ⊢
  rw [hdi, div_eq_mul_inv]

theorem affAdd_tangent {x1 y1 : Nat} (h0 : y1 ≠ 0) (hy : 2 * (y1 : ZMod c.p) ≠ 0) :
    ∃ q, affAdd c (.pt x1 y1) (.pt x1 y1) = .ok q ∧ IsLineThird c ((3 * x1 ^ 2 + c.a) / (2 * y1)) x1 y1 x1 q := by
  obtain ⟨di, hinv, -, hdi⟩ := invMod_field (c := c) (red c.p (2 * (y1 : Int))) (by push_cast [red_field]; exact hy)
  refine ⟨_, by rw [affAdd, if_pos rfl, if_pos ⟨rfl, h0⟩, hinv]; rfl, lineThird_isLineThird ?_ ..⟩
  push_cast [red_field] at hdi ⊢
  rw [hdi, div_eq_mul_inv]
  ring

/-! The normalised Jacobian sum (R206, R208, R209). -/

/-- `aff_of` of a finite triple is (X/Z², Y/Z³). -/
theorem affOf_field {t : JacPoint} (hz : (t.z : ZMod c.p) ≠ 0) : ∃ x y, affOf c t = .ok (.pt x y) ∧ x < c.p ∧ y < c.p ∧
    (x : ZMod c.p) = t.x / t.z ^ 2 ∧ (y : ZMod c.p) = t.y / t.z ^ 3 := by
  have h0 : ¬ t.z = 0 := fun h => hz (by rw [h, Nat.cast_zero])
  obtain ⟨zi, hinv, -, hzi⟩ := invMod_field t.z hz
  refine ⟨_, _, by rw [affOf, if_neg h0, hinv]; rfl, red_lt _ _ hp.out.pos, red_lt _ _ hp.out.pos, ?_, ?_⟩
  · push_cast [red_field]
    rw [hzi]
    field_simp
  · push_cast [red_field]
    rw [hzi]
    field_simp

/-- A triple whose X and Y are the line's times Z² and Z³ normalises to the line's third point. -/
theorem affOf_isLineThird {t : JacPoint} {l : ZMod c.p} {x1 y1 x2 : Nat} (hz : (t.z : ZMod c.p) ≠ 0)
    (hx : (t.x : ZMod c.p) = (l ^ 2 - x1 - x2) * t.z ^ 2)
    (hy : (t.y : ZMod c.p) = (l * (x1 - (l ^ 2 - x1 - x2)) - y1) * t.z ^ 3) :
    ∃ q, affOf c t = .ok q ∧ IsLineThird c l x1 y1 x2 q := by
  obtain ⟨x, y, haff, hxlt, hylt, ex, ey⟩ := affOf_field hz
  refine ⟨_, haff, hxlt, hylt, ?_, ?_⟩
  · rw [ex, hx, mul_div_cancel_right₀ _ (pow_ne_zero 2 hz)]
  · rw [ey, hy, mul_div_cancel_right₀ _ (pow_ne_zero 3 hz)]

theorem affOf_jadd_chord {x1 y1 x2 y2 : Nat} (hx : (x2 : ZMod c.p) - x1 ≠ 0) :
    ∃ q, affOf c (jadd c ⟨x1, y1, 1⟩ ⟨x2, y2, 1⟩) = .ok q ∧
      IsLineThird c ((y2 - y1) / (x2 - x1)) x1 y1 x2 q := by
  have hu : ¬ (x1 : Int) ≡ x2 [ZMOD c.p] := by
    rw [← ZMod.intCast_eq_intCast_iff, Int.cast_natCast, Int.cast_natCast]
    exact fun h => hx (by rw [h, sub_self])
  obtain ⟨x3, y3, z3, -, -, -, ex, ey, ez, htriple⟩ := jadd_generic (c := c) (t1 := ⟨x1, y1, 1⟩) (t2 := ⟨x2, y2, 1⟩)
    (u1 := x1) (u2 := x2) (s1 := y1) (s2 := y2) hp.out.pos one_ne_zero one_ne_zero (by simp) (by simp) (by simp)
    (by simp) hu
  rw [← ZMod.intCast_eq_intCast_iff] at ex ey ez
  push_cast at ex ey ez
  rw [mul_one, mul_one] at ez
  have hz : (z3 : ZMod c.p) ≠ 0 := by rwa [ez]
  rw [htriple, if_neg fun h => hz (by rw [h, Nat.cast_zero])]
  refine affOf_isLineThird hz ?_ ?_
  · rw [ex, ez]
    field_simp
    ring
  · rw [ey, ex, ez]
    field_simp
    ring

theorem affOf_jdbl_tangent {x1 y1 : Nat} (h0 : y1 ≠ 0) (hy : 2 * (y1 : ZMod c.p) ≠ 0) :
    ∃ q, affOf c (jdbl c ⟨x1, y1, 1⟩) = .ok q ∧ IsLineThird c ((3 * x1 ^ 2 + c.a) / (2 * y1)) x1 y1 x1 q := by
  obtain ⟨x3, y3, -, -, ex, ey, htriple⟩ := jdbl_generic (c := c) (t := ⟨x1, y1, 1⟩) hp.out.pos one_ne_zero h0
  rw [← ZMod.intCast_eq_intCast_iff] at ex ey
  push_cast at ex ey
  have h2 : (2 : ZMod c.p) ≠ 0 := left_ne_zero_of_mul hy
  have hy1 : (y1 : ZMod c.p) ≠ 0 := right_ne_zero_of_mul hy
  have ez : ((2 * y1 * 1 % c.p : Nat) : ZMod c.p) = 2 * y1 := by
    rw [ZMod.natCast_mod]
    push_cast
    ring
  have hz : ((2 * y1 * 1 % c.p : Nat) : ZMod c.p) ≠ 0 := by rwa [ez]
  rw [htriple, if_neg fun h => hz (by rw [h, Nat.cast_zero])]
  refine affOf_isLineThird hz ?_ ?_
  · rw [ex, ez]
    field_simp
    ring
  · rw [ey, ex, ez]
    field_simp
    ring

/-- `aff_of` undoes `jac_of` on the curve (R206). -/
theorem affOf_jacOf {q : AffPoint} (h : q.On c) : affOf c (jacOf q) = .ok q := by
  cases q with
  | inf => rfl
  | pt x y =>
    obtain ⟨hx, hy, -⟩ := h
    obtain ⟨x', y', haff, hx', hy', ex, ey⟩ := affOf_field (c := c) (t := jacOf (.pt x y)) (by simp [jacOf])
    simp only [jacOf, Nat.cast_one, one_pow, div_one] at ex ey
    rw [haff, (natCast_inj hx' hx).1 ex, (natCast_inj hy' hy).1 ey]

end Line

/-- Two finite points: a chord, a tangent, or a sum that is INF on both sides. -/
theorem jacobian_sum_finite {c : CurveBlock} [Fact c.p.Prime] (h3 : 3 ≤ c.p) {x1 y1 x2 y2 : Nat}
    (h1 : OnCurve c x1 y1) (h2 : OnCurve c x2 y2) :
    affOf c (jadd c ⟨x1, y1, 1⟩ ⟨x2, y2, 1⟩) = affAdd c (.pt x1 y1) (.pt x2 y2) := by
  obtain ⟨hx1, hy1, -⟩ := h1
  obtain ⟨hx2, hy2, -⟩ := h2
  by_cases hx : x1 = x2
  · subst hx
    by_cases hy : y1 = y2
    · subst hy
      rw [jadd_same_class (by omega) one_ne_zero one_ne_zero rfl rfl]
      by_cases h0 : y1 = 0
      · rw [jdbl_degenerate (.inr h0), affAdd, if_pos rfl, if_neg (by simp [h0])]
        rfl
      · have hne : 2 * (y1 : ZMod c.p) ≠ 0 := mul_ne_zero (two_ne_zero_of_odd h3) (mt (natCast_zero_iff hy1).1 h0)
        obtain ⟨q, hq, hline⟩ := affOf_jdbl_tangent (x1 := x1) h0 hne
        obtain ⟨q', hq', hline'⟩ := affAdd_tangent (x1 := x1) h0 hne
        rw [hq, hq', isLineThird_unique hline hline']
    · have hs : ¬ (y1 : Int) * (1 : Nat) ^ 3 ≡ y2 * (1 : Nat) ^ 3 [ZMOD c.p] := by
        rw [← ZMod.intCast_eq_intCast_iff]
        push_cast
        rwa [mul_one, mul_one, natCast_inj hy1 hy2]
      rw [jadd_opposite_class (t1 := ⟨x1, y1, 1⟩) (t2 := ⟨x1, y2, 1⟩) (by omega) one_ne_zero
        one_ne_zero rfl hs, affAdd, if_pos rfl, if_neg fun h => hy h.1]
      rfl
  · have hne : (x2 : ZMod c.p) - x1 ≠ 0 := sub_ne_zero.2 fun h => hx ((natCast_inj hx2 hx1).1 h).symm
    obtain ⟨q, hq, hline⟩ := affOf_jadd_chord (y1 := y1) (y2 := y2) hne
    obtain ⟨q', hq', hline'⟩ := affAdd_chord (y1 := y1) (y2 := y2) hne
    rw [hq, hq', isLineThird_unique hline hline']

/-- Settles O30: an infinity on one side leaves the other operand, and two finite points end on one line. -/
theorem jacobianSumNormalises : Obligations.JacobianSumNormalises := by
  intro c q1 q2 hprime h3 h1 h2
  have : Fact c.p.Prime := ⟨hprime⟩
  cases q1 with
  | inf =>
    cases q2 with
    | inf => rfl
    | pt x2 y2 =>
      rw [jadd_infinity_left rfl (by exact one_ne_zero)]
      exact affOf_jacOf h2
  | pt x1 y1 =>
    cases q2 with
    | inf =>
      rw [jadd_infinity_right (by exact one_ne_zero) rfl]
      exact affOf_jacOf h1
    | pt x2 y2 => exact jacobian_sum_finite h3 h1 h2

end Sys2Proof.Proofs

/-! Roots over an odd prime: when `sqrt_mod` and `is_qr` answer yes (40_modular.md R167, R169), which y the y-recovery commands select (42_curve_y.md R261), and the round trip of the codec (43_codec.md §2), whose compressed form selects by parity. -/

namespace Sys2Proof.Proofs
open Sys2Proof.Machine Sys2Proof.Laws

/-! Squares modulo a prime. -/

theorem sqrtMod_ok_iff {p : Nat} (v : Nat) (hp : p.Prime) (h3 : 3 ≤ p) :
    (∃ r, sqrtMod v p = .ok r) ↔ ∃ z, z < p ∧ z * z % p = v % p := by
  constructor
  · rintro ⟨r, hr⟩
    exact ⟨r, sqrtMod_sound v p r hp.two_le hr⟩
  · intro h
    exact sqrtMod_complete v p hp h3 ((exists_root_iff p v hp).2 h)

/-- For p mod 4 = 3 the root is a power of a square, so itself a residue. -/
theorem sqrtMod_isQr {v p r : Nat} (hp : p.Prime) (h4 : p % 4 = 3) (hr : sqrtMod v p = .ok r) : isQr r p = true := by
  have hsquare : IsSquare (v : ZMod p) := (exists_root_iff p v hp).2 ⟨r, sqrtMod_sound v p r hp.two_le hr⟩
  rw [isQr_iff_isSquare r p hp (by omega), sqrtMod_three_mod_four v p r h4 hr, ZMod.natCast_mod, Nat.cast_pow]
  exact hsquare.pow _

/-- Settles O18: the search of `sqrt_mod` is complete and its last check sound, and `is_qr` is Euler's criterion. -/
theorem squareRootsModPrime : Obligations.SquareRootsModPrime := by
  intro p v hp h3
  exact ⟨sqrtMod_ok_iff v hp h3, (isQr_iff_isSquare v p hp h3).trans (exists_root_iff p v hp),
    fun h4 r hr => ⟨sqrtMod_three_mod_four v p r h4 hr, sqrtMod_isQr hp h4 hr⟩⟩

/-! The candidates of an x on the curve (R260). -/

section Candidates
variable {c : CurveBlock} (hp : c.p.Prime) {x : Nat}
include hp

/-- An x below p with no y on the curve has no candidates. -/
theorem sqrtMod_offCurve (hx : x < c.p) (h : ∀ y, ¬ OnCurve c x y) : ∃ e, sqrtMod (rightSide c x) c.p = .error e := by
  cases hr : sqrtMod (rightSide c x) c.p with
  | error e => exact ⟨e, rfl⟩
  | ok r =>
    obtain ⟨hlt, hsq⟩ := sqrtMod_sound _ _ _ hp.two_le hr
    exact absurd ⟨hx, hlt, by rw [pow_two, hsq, rightSide, Nat.mod_mod]⟩ (h r)

variable (h3 : 3 ≤ c.p)
include h3

/-- The y of a point on the curve is one of the two candidates at its x. -/
theorem yRoots_onCurve {y : Nat} (h : OnCurve c x y) : ∃ r, r < c.p ∧ sqrtMod (rightSide c x) c.p = .ok r ∧
    (y = r ∨ y = (c.p - r) % c.p) := by
  obtain ⟨-, hy, heq⟩ := h
  have hroot : y * y % c.p = rightSide c x % c.p := by rw [← pow_two, heq, rightSide, Nat.mod_mod]
  obtain ⟨r, hr⟩ := (sqrtMod_ok_iff (rightSide c x) hp h3).2 ⟨y, hy, hroot⟩
  obtain ⟨hlt, hsq⟩ := sqrtMod_sound _ _ _ hp.two_le hr
  exact ⟨r, hlt, hr, roots_of c.p r y hp hlt hy (by rw [hsq, ← hroot, pow_two])⟩

end Candidates

/-! The selection (R261): a property that tells different candidates apart selects the one that has it. -/

theorem selectRoot_of_apart {r q y : Nat} {pred : Nat → Bool} (hy : y = r ∨ y = q) (hpred : pred y = true)
    (hapart : pred r = true → pred q = true → r = q) : selectRoot (r, q) pred = .ok y := by
  rcases hy with rfl | rfl
  · exact selectRoot_first hpred
  · by_cases hr : pred r = true
    · rw [selectRoot_first hr, hapart hr hpred]
    · exact selectRoot_second hr hpred

section Apart
variable {p r : Nat} (hr : r < p)
include hr

/-- A root and its negation have different parities unless both are 0, as p is odd. -/
theorem parity_apart (hodd : p % 2 = 1) (h : r % 2 = (p - r) % p % 2) : r = (p - r) % p := by
  by_cases h0 : r = 0
  · subst h0
    simp
  · rw [Nat.mod_eq_of_lt (show p - r < p by omega)] at h ⊢
    omega

/-- Of a nonzero root and its negation exactly one is a residue when p mod 4 = 3 (R169). -/
theorem isQr_apart (hp : p.Prime) (h4 : p % 4 = 3) (h : isQr r p = isQr ((p - r) % p) p) : r = (p - r) % p := by
  by_cases h0 : r = 0
  · subst h0
    simp
  · rw [isQr_neg p r hp h4 hr h0] at h
    simp at h

end Apart

/-- Two candidates, each the low one of itself and its negation or each the high one, are equal. -/
theorem lowPred_apart {c : CurveBlock} {sel : Sel} {r : Nat} (hr : r < c.p) (h1 : lowPred c sel r = true)
    (h2 : lowPred c sel ((c.p - r) % c.p) = true) : r = (c.p - r) % c.p := by
  rw [lowPred_iff hr] at h1
  rw [lowPred_iff (Nat.mod_lt _ (by omega)), other_other c.p r hr] at h2
  split at h1
  · rw [if_pos ‹_›] at h2
    omega
  · rw [if_neg ‹_›] at h2
    omega

/-! The commands. -/

section Recovery
variable {i : Instr} {s : State} {d a : VField} {pred : Nat → Bool} (hp : s.curve.p.Prime)
  (hrun : exec i s = complete s (yRoots s.curve (s.getV a) >>= fun roots =>
    selectRoot roots pred >>= fun y => .ok (.setV d y)))
include hp hrun

theorem recovery_fails (hx : s.getV a < s.curve.p) (hoff : ∀ y, ¬ OnCurve s.curve (s.getV a) y) :
    FailsWith i s 4 0x34 := by
  obtain ⟨e, he⟩ := sqrtMod_offCurve hp hx hoff
  exact checked_fails (e := .noY) hrun (yRoots_noSqrt hx he)

variable (h3 : 3 ≤ s.curve.p)
include h3

/-- A command that selects by a property telling the candidates apart writes the y that has it. -/
theorem recovery_writes (hapart : ∀ r, r < s.curve.p → pred r = true → pred ((s.curve.p - r) % s.curve.p) = true →
    r = (s.curve.p - r) % s.curve.p) {y : Nat} (hon : OnCurve s.curve (s.getV a) y) (hy : pred y = true) :
    WritesV i s d y := by
  obtain ⟨r, hlt, hr, hcand⟩ := yRoots_onCurve hp h3 hon
  have ⟨hx, _⟩ := hon
  exact selectRoot_writes (checked_exec hrun (yRoots_sqrt hx hr)) (selectRoot_of_apart hcand hy (hapart r hlt))

end Recovery

/-- Settles O37: parity, lowness and residuosity each tell a root from its negation. -/
theorem yRecoveryOverPrime : Obligations.YRecoveryOverPrime := by
  intro d a sel s hp h3 hc hsel
  have hodd : s.curve.p % 2 = 1 := hp.eq_two_or_odd.resolve_left (by omega)
  obtain ⟨-, -, hyodd⟩ := selector_checks (exec_yodd d a sel s)
  obtain ⟨-, -, hylow⟩ := selector_checks (exec_ylow d a sel s)
  obtain ⟨-, -, hyqr⟩ := selector_checks (exec_yqr d a sel s)
  have hyqr4 (h4 : s.curve.p % 4 = 3) := checked_exec (hyqr hc hsel) (require_pos .pMod4 h4)
  have hlow {y : Nat} (hon : OnCurve s.curve (s.getV a) y) (hy : lowPred s.curve sel y = true) :=
    recovery_writes hp (hylow hc hsel) h3 (fun r hr => lowPred_apart hr) hon hy
  refine ⟨fun y hon => ?_, fun hx hoff => ⟨recovery_fails hp (hyodd hc hsel) hx hoff,
    recovery_fails hp (hylow hc hsel) hx hoff, fun h4 => recovery_fails hp (hyqr4 h4) hx hoff⟩⟩
  have ⟨_, hylt, _⟩ := hon
  refine ⟨fun hy => recovery_writes hp (hyodd hc hsel) h3 (fun r hr h1 h2 => ?_) hon (decide_eq_true hy),
    fun h1 hle => hlow hon ?_, fun h0 hle => hlow hon ?_,
    fun h4 hy => recovery_writes hp (hyqr4 h4) h3 (fun r hr h1 h2 => ?_) hon ?_⟩
  · exact parity_apart hr hodd ((of_decide_eq_true h1).trans (of_decide_eq_true h2).symm)
  · rwa [lowPred_iff hylt, if_pos h1]
  · rwa [lowPred_iff hylt, if_neg (by omega)]
  · rw [decide_eq_true_iff, boolNat_eq_iff hsel] at h1 h2
    exact isQr_apart hr hp h4 (h1.trans h2.symm)
  · rw [decide_eq_true_iff, boolNat_eq_iff hsel]
    exact hy

/-! The round trip of the codec (43_codec.md §2). -/

section Dec
variable {t : State} {x y : Nat} (hon : OnCurve t.curve x y)
include hon

/-- DEC of the compressed string of a point gives the point: the leading byte asks for the parity of y. -/
theorem decPoint_encCompressed (hp : t.curve.p.Prime) (h3 : 3 ≤ t.curve.p) {sel : Sel} (h1 : sel.val = 1)
    (hlen : t.oblen.toNat = (encBytes t.psize sel x y).length)
    (hbytes : ∀ j, t.obByte j = (encBytes t.psize sel x y).getD j 0) : decPoint t = .ok (.pt x y) := by
  have hodd : t.curve.p % 2 = 1 := hp.eq_two_or_odd.resolve_left (by omega)
  obtain ⟨r, hlt, hr, hcand⟩ := yRoots_onCurve hp h3 hon
  have ⟨hx, _, _⟩ := hon
  have hx0 : beNat (t.obSlice 1 t.psize) = x := by
    rw [obSlice_of_getD hbytes 1 t.psize (by rw [encBytes_length, if_pos h1]), encBytes_compressed h1,
      List.drop_succ_cons, List.drop_zero, List.take_of_length_le (by simp), beNat_beBytes_psize hx]
  have hlead : t.obByte 0 = if y % 2 = 1 then 0x03 else 0x02 := by
    rw [hbytes 0, encBytes_compressed h1]
    exact compressed_leadingByte y
  have hlead23 : t.obByte 0 = 0x02 ∨ t.obByte 0 = 0x03 := by
    rw [hlead]
    split
    · exact .inr rfl
    · exact .inl rfl
  have hparity : y % 2 = (t.obByte 0 &&& 1).toNat := by
    rw [hlead]
    obtain h | h := Nat.mod_two_eq_zero_or_one y <;> rw [h] <;> rfl
  rw [encBytes_length, if_pos h1] at hlen
  rw [decPoint_compressed (by omega) hlead23, decCompressed_roots hlen, hx0, yRoots_sqrt hx hr, bind_ok,
    selectRoot_of_apart hcand (decide_eq_true hparity) fun h1 h2 =>
      parity_apart hlt hodd ((of_decide_eq_true h1).trans (of_decide_eq_true h2).symm), bind_ok]

/-- DEC of the uncompressed string of a point gives the point. -/
theorem decPoint_encUncompressed {sel : Sel} (h0 : sel.val = 0)
    (hlen : t.oblen.toNat = (encBytes t.psize sel x y).length)
    (hbytes : ∀ j, t.obByte j = (encBytes t.psize sel x y).getD j 0) : decPoint t = .ok (.pt x y) := by
  have ⟨hx, hy, _⟩ := hon
  have hstr : (encBytes t.psize sel x y).length = 1 + 2 * t.psize := by rw [encBytes_length, if_neg (by omega)]
  have hx0 : beNat (t.obSlice 1 t.psize) = x := by
    rw [obSlice_of_getD hbytes 1 t.psize (by omega), encBytes_uncompressed h0, List.drop_succ_cons, List.drop_zero,
      List.take_left' (beBytes_length ..), beNat_beBytes_psize hx]
  have hy0 : beNat (t.obSlice (1 + t.psize) t.psize) = y := by
    rw [obSlice_of_getD hbytes (1 + t.psize) t.psize (by omega), encBytes_uncompressed h0, Nat.add_comm 1 t.psize,
      List.drop_succ_cons, List.drop_left' (beBytes_length ..), List.take_of_length_le (by simp), beNat_beBytes_psize hy]
  have hlead : t.obByte 0 = 0x04 := by
    rw [hbytes 0, encBytes_uncompressed h0]
    rfl
  rw [hstr] at hlen
  rw [decPoint_uncompressed (by omega) hlead, decUncompressed_eq hlen, hx0, hy0,
    require_pos _ ((onCurveAff_iff ..).2 hon), bind_ok]

end Dec

/-- Settles O40: ENC leaves the curve alone, and DEC reads back the string it wrote, in either form. -/
theorem sec1RoundTrip : Obligations.Sec1RoundTrip := by
  intro a d sel s x y hi hp hc hsel ha
  have hon : OnCurve s.curve x y := affOperand_on ha
  obtain ⟨h3, -⟩ := checkCurve_p (hi.curveOk hc)
  obtain ⟨t, hexec, hdone, hlen, hbytes, hctx, hcurveOk, -, -⟩ := enc_writes hi hc hsel ha
  have hpsize : s.psize = t.psize := by rw [State.psize, State.psize, hctx.curve]
  rw [hpsize] at hlen hbytes
  rw [← hctx.curve] at hon hp h3
  refine ⟨t, hexec, hdone.err, dec_writes d (hcurveOk.trans hc) ?_⟩
  by_cases h1 : sel.val = 1
  · exact decPoint_encCompressed hon hp h3 h1 hlen hbytes
  · exact decPoint_encUncompressed hon (by omega) hlen hbytes

end Sys2Proof.Proofs

/-! Latency (10_state.md R44, 70_reset_and_hazards.md R376, R377): while a command is in flight every access but the soft reset writes CTRL.IE, DONE, BUSYWR and the last answer alone, and no command reads these. -/

namespace Sys2Proof.Proofs
open Sys2Proof.Machine Sys2Proof.Laws

/-! Accesses to a busy engine. -/

/-- The states that differ from s in CTRL.IE, DONE, BUSYWR and the last answer at most. -/
def AwayFrom (s t : State) : Prop := ∃ ie dn bw rs, t = inContext s ie dn bw rs

theorem awayFrom_refl (s : State) : AwayFrom s s := ⟨s.ie, s.done, s.busywr, s.resp, rfl⟩

section Access
variable {s t : State} (h : AwayFrom s t)
include h

theorem awayFrom_answer (r : Option BusResp) : AwayFrom s { t with resp := r } := by
  obtain ⟨ie, dn, bw, rs, rfl⟩ := h
  exact ⟨ie, dn, bw, r, rfl⟩

theorem awayFrom_busywr : AwayFrom s { t with busywr := true } := by
  obtain ⟨ie, dn, bw, rs, rfl⟩ := h
  exact ⟨ie, dn, true, rs, rfl⟩

theorem awayFrom_writeStatus (w : Word32) : AwayFrom s (t.writeStatus w) := by
  obtain ⟨ie, dn, bw, rs, rfl⟩ := h
  exact ⟨ie, _, _, rs, rfl⟩

theorem awayFrom_writeCtrl {w : Word32} (hw : w.getLsbD 0 = false) : AwayFrom s (t.writeCtrl w) := by
  obtain ⟨ie, dn, bw, rs, rfl⟩ := h
  rw [writeCtrl_enable _ hw]
  exact ⟨w.getLsbD 1, dn, bw, rs, rfl⟩

end Access

/-- The offsets a busy engine neither hides nor drops: ID, HWCFG, CTRL, STATUS and the low reserved range (R87). -/
theorem open_offset {off : Nat} (h4 : off % 4 = 0) (hh : hiddenWhenBusy off = false) (hc : targetOf off ≠ .cmd) :
    off = 0x000 ∨ off = 0x004 ∨ off = 0x008 ∨ off = 0x00C ∨ (0x020 ≤ off ∧ off < 0x400) := by
  have hcmd : off ≠ 0x010 := fun he => hc ((targetOf_cmd h4).2 he)
  simp [hiddenWhenBusy] at hh
  omega

/-- A write to a busy engine that is no soft reset (R87). -/
theorem awayFrom_busWrite {s t : State} (h : AwayFrom s t) (hb : t.busy = true) {off : Nat} {w : Word32} (h4 : off % 4 = 0)
    (hw : ¬ (off = 0x008 ∧ w.getLsbD 0 = true)) : AwayFrom s (t.busWrite off w) := by
  by_cases hdrop : hiddenWhenBusy off = true ∨ targetOf off = .cmd
  · have hdropped : t.busWrite off w = { t with busywr := true } := by
      rw [State.busWrite, if_pos (by simpa [hb] using hdrop)]
    rw [hdropped]
    exact awayFrom_busywr h
  · obtain ⟨hhid, hcmd⟩ := not_or.1 hdrop
    have hopen : hiddenWhenBusy off = false := by simpa using hhid
    rw [busWrite_open t w hopen hcmd]
    rcases open_offset h4 hopen hcmd with rfl | rfl | rfl | rfl | hres
    · exact h
    · exact h
    · exact awayFrom_writeCtrl h (by simpa using hw)
    · exact awayFrom_writeStatus h w
    · rw [targetOf_reserved (.inl hres)]
      exact h

theorem awayFrom_busAccess {s t : State} (h : AwayFrom s t) (hb : t.busy = true) {a : Access} (ha : ¬ SoftReset t.cfg a) :
    AwayFrom s (t.busAccess a) := by
  unfold State.busAccess
  split
  case isFalse => exact awayFrom_answer h _
  case isTrue hroutes =>
    split
    case isFalse => exact awayFrom_answer h _
    case isTrue hlegal =>
      obtain ⟨hsize, h4⟩ := (legal_iff a).1 hlegal
      split
      · exact awayFrom_answer h _
      · rename_i w hop
        exact awayFrom_answer (awayFrom_busWrite h hb h4 fun ⟨hoff, hw⟩ => ha ⟨hroutes, hsize, hoff, w, hop, hw⟩) _

theorem awayFrom_busAccesses {s : State} (hb : s.busy = true) (as : List Access) (has : ∀ a ∈ as, ¬ SoftReset s.cfg a) :
    ∀ t, AwayFrom s t → AwayFrom s (t.busAccesses as) := by
  induction as with
  | nil => exact fun t h => h
  | cons a as ih =>
    intro t h
    have ⟨_, _, _, _, ht⟩ := h
    refine ih (fun a' ha' => has a' (List.mem_cons_of_mem _ ha')) _ (awayFrom_busAccess h (by rw [ht]; exact hb) ?_)
    rw [ht]
    exact has a List.mem_cons_self

/-! The completion there (R377). -/

theorem awayFrom_sameOperands {s t : State} (h : AwayFrom s t) : SameOperands s t := by
  obtain ⟨ie, dn, bw, rs, rfl⟩ := h
  exact ⟨rfl, rfl, rfl, rfl, rfl, rfl, rfl, rfl, rfl⟩

/-- The collected write changes the same fields in both. -/
theorem apply_inContext (s : State) (ie dn bw : Bool) (rs : Option BusResp) (e : Effect) :
    (inContext s ie dn bw rs).apply e = inContext (s.apply e) ie dn bw rs := by
  cases e with
  | setV d x => rfl
  | setPt d q => rfl
  | setOb str =>
    simp only [State.apply, State.fillOb]
    rw [fill_inContext]
  | setCurveOk => rfl

/-- A completion there: DONE is 1 whatever it was, and the rest of the context stays. -/
theorem succeed_inContext (s : State) (ie dn bw : Bool) (rs : Option BusResp) (e : Effect) :
    (inContext s ie dn bw rs).succeed e = inContext (s.succeed e) ie true bw rs :=
  congrArg (fun t => State.finish t 0 0) (apply_inContext s ie dn bw rs e)

theorem complete_inContext {s t : State} (ie dn bw : Bool) (rs : Option BusResp) {r : Except CmdError Effect}
    (h : complete s r = .next t) : complete (inContext s ie dn bw rs) r = .next (inContext t ie true bw rs) := by
  cases r with
  | ok e =>
    cases h
    exact congrArg _ (succeed_inContext s ie dn bw rs e)
  | error e =>
    cases h
    rfl

theorem completeCheck_inContext {s t : State} (ie dn bw : Bool) (rs : Option BusResp) {r : Except CmdError Effect}
    (h : completeCheck s r = .next t) : completeCheck (inContext s ie dn bw rs) r = .next (inContext t ie true bw rs) := by
  cases r with
  | ok e =>
    cases h
    exact congrArg _ (succeed_inContext s ie dn bw rs e)
  | error e =>
    cases h
    rfl

/-- The completion step of a state in another context ends in the same state in that context. -/
theorem engineStep_inContext {s t : State} (ie dn bw : Bool) (rs : Option BusResp) (h : engineStep s = .next t) :
    engineStep (inContext s ie dn bw rs) = .next (inContext t ie true bw rs) := by
  cases hdec : decode s.cmdLast with
  | error why =>
    rw [engineStep_illegal hdec] at h
    rw [engineStep_illegal (s := inContext s ie dn bw rs) hdec]
    cases h
    rfl
  | ok i =>
    rw [engineStep_ok hdec] at h
    rw [engineStep_ok (s := inContext s ie dn bw rs) hdec]
    by_cases hi : i = .cchk
    · subst hi
      exact completeCheck_inContext ie dn bw rs (r := checkCurve s.curve s.weak >>= fun _ => .ok .setCurveOk) h
    · obtain ⟨r, hs, hs'⟩ := exec_inContext i s ie dn bw rs hi
      rw [hs] at h
      rw [hs']
      exact complete_inContext ie dn bw rs h

/-- The completion step always ends the command (R377). -/
theorem engineStep_completes (s : State) : ∃ t, engineStep s = .next t ∧ t.busy = false := by
  cases hdec : decode s.cmdLast with
  | error why => exact ⟨_, engineStep_illegal hdec, rfl⟩
  | ok i =>
    obtain ⟨t, hexec, hbusy, -⟩ := everyCommandCompletes i s
    exact ⟨t, (engineStep_ok hdec).trans hexec, hbusy⟩

/-- Settles O58: the accesses leave the engine in another context, where its completion is the same. -/
theorem latencyIndependence : Obligations.LatencyIndependence := by
  intro s as _ hb has s'
  have haway : AwayFrom s s' := awayFrom_busAccesses hb as has s (awayFrom_refl s)
  obtain ⟨ie, dn, bw, rs, hs'⟩ := haway
  obtain ⟨t, hstep, hbusy⟩ := engineStep_completes s
  rw [hs']
  exact ⟨hb, awayFrom_sameOperands ⟨ie, dn, bw, rs, rfl⟩, t, _, hstep, engineStep_inContext ie dn bw rs hstep,
    awayFrom_sameOperands ⟨ie, true, bw, rs, rfl⟩, rfl, rfl, hbusy, rfl, rfl⟩

end Sys2Proof.Proofs
